-- ==== Sys2Proof/Word.lean ====
section
/-! DEFINITION. The words of the block: command words, bus words and bytes (00_scope R9, R10). -/

namespace Sys2Proof

/-- A command word (30_encoding R80). -/
abbrev CmdWord := BitVec 16

/-- A word of the peripheral bus, and a bus address (20_memory R60, R70). -/
abbrev Word32 := BitVec 32

/-- The byte that TRANSMIT takes and RECEIVE gives (20_memory R70). -/
abbrev Byte := BitVec 8

end Sys2Proof
end

