-- ==== Sys2Proof/Syntax.lean ====
section
/-! DEFINITION. The four commands (30_encoding R80, R81) and the Line Configuration as the
assembler writes it, five enumerated fields (30_encoding R84 to R86, R92). -/

namespace Sys2Proof

/-- A command. The operands are the fields of its word, unscaled (30_encoding R82). -/
inductive Instr where
  /-- `resolve sel`, format R (40_resolver R110). -/
  | resolve (sel : BitVec 2)
  /-- `initialize h, cfg`, format I; `cfg` is the packed 9-bit Line Configuration (41_line_init R131). -/
  | initLine (h : BitVec 2) (cfg : BitVec 9)
  /-- `transmit h, byte`, format T (42_transfer R160). -/
  | transmit (h : BitVec 2) (byte : Byte)
  /-- `receive h`, format X (42_transfer R165). -/
  | receive (h : BitVec 2)
deriving DecidableEq, Repr, Inhabited

/-- HwFlowControl, in DOC's order (30_encoding R85). -/
inductive FlowControl where
  | off | rts | cts | rtsCts
deriving DecidableEq, Repr, Inhabited

/-- ParityMode, in DOC's order (30_encoding R85). -/
inductive ParityMode where
  | off | even | odd
deriving DecidableEq, Repr, Inhabited

/-- BaudRate, in DOC's order (30_encoding R85). -/
inductive BaudRate where
  | b9600 | b115200 | b57600 | b38400
deriving DecidableEq, Repr, Inhabited

/-- StopBits, in DOC's order (30_encoding R85). -/
inductive StopBits where
  | one | two | half | oneAndHalf
deriving DecidableEq, Repr, Inhabited

/-- WordLength, in DOC's order (30_encoding R85). -/
inductive WordLength where
  | bits8 | bits9
deriving DecidableEq, Repr, Inhabited

/-- A Line Configuration, "always fully specified before use" (30_encoding R86). -/
structure LineConfig where
  flow   : FlowControl
  parity : ParityMode
  baud   : BaudRate
  stop   : StopBits
  word   : WordLength
deriving DecidableEq, Repr, Inhabited

end Sys2Proof
end

