-- ==== Sys2Proof/Config.lean ====
section
/-! DEFINITION. What is fixed for one machine: the parameters of 00_scope R8 as plain data, the
register and field names of the reference profile (20_memory R61 to R65), the choice of who moves
(00_scope R11), and the free values, opaque constants that no proof can evaluate (log 2, 3, 5, 8). -/

namespace Sys2Proof

/-- `P_WL_POLICY` (00_scope R8, 41_line_init R122). -/
inductive WlPolicy where
  | literal | autoExtend
deriving DecidableEq, Repr, Inhabited

/-- `P_FIELD_WRITE` (00_scope R8, 41_line_init R133). -/
inductive FieldWrite where
  | assign | orOnly
deriving DecidableEq, Repr, Inhabited

/-- `P_RX_SOURCE(i)` (00_scope R8, 10_state R27). -/
inductive RxSource where
  | external
  | loopback (j : Nat)
deriving DecidableEq, Repr, Inhabited

/-- The seven registers of a window (20_memory R61). -/
inductive Reg where
  | sr | dr | brr | cr1 | cr2 | cr3 | gtpr
deriving DecidableEq, Repr, Inhabited

/-- The register fields by the reference profile's names (10_state R21 to R23, 20_memory R62 to R65),
the data register's apart. -/
inductive Field where
  | PE | FE | NE | ORE | IDLE | RXNE | TC | TXE | LBD | CTS  -- SR
  | BRR  -- BRR
  | SBK | RWU | RE | TE | IDLEIE | RXNEIE | TCIE | TXEIE | PEIE | PS | PCE | WAKE | M | UE  -- CR1
  | ADD | LBDL | LBDIE | LBCL | CPHA | CPOL | CLKEN | STOP | LINEN  -- CR2
  | EIE | IREN | IRLP | HDSEL | NACK | SCEN | DMAR | DMAT | RTSE | CTSE | CTSIE  -- CR3
  | PSC | GT  -- GTPR
deriving DecidableEq, Repr, Inhabited

/-- `P_LAYOUT`: the register offsets, the lowest bit of every field, and the hardware STOP codes
(00_scope R8, 41_line_init R127). Which register holds a field, and a field's width, are 20_memory
R61's and 10_state R21's (log 9). -/
structure Layout where
  offSR   : Nat
  offDR   : Nat
  offBRR  : Nat
  offCR1  : Nat
  offCR2  : Nat
  offCR3  : Nat
  offGTPR : Nat
  /-- Bytes of one window (20_memory R60). -/
  window  : Nat
  /-- The lowest bit of each field within its register. -/
  pos     : List (Field × Nat)
  /-- The lowest bit of the 9 data bits of DR (20_memory R63). -/
  drPos   : Nat
  stopOne        : BitVec 2
  stopTwo        : BitVec 2
  stopHalf       : BitVec 2
  stopOneAndHalf : BitVec 2
deriving DecidableEq, Repr, Inhabited

/-- The parameters of one UART: `P_BASE(i)`, `P_FCLK(i)`, `P_CLOCKED(i)`, `P_RX_SOURCE(i)` (00_scope R8). -/
structure InstParams where
  base     : Word32
  fclk     : Nat
  clocked  : Bool
  rxSource : RxSource
deriving DecidableEq, Repr, Inhabited

/-- The parameters of the block (00_scope R8); `P_NINST` is the number of records in `insts`. -/
structure Params where
  insts      : List InstParams
  wlPolicy   : WlPolicy
  fieldWrite : FieldWrite
  txeReset   : BitVec 1
  layout     : Layout
  nAgents    : Nat
deriving DecidableEq, Repr, Inhabited

/-- Who moves: a sequencer agent, one of the three steps of a peripheral agent (00_scope R11,
42_transfer R180 to R182), or the environment of the flags NE, IDLE, LBD, CTS (10_state R22, log 8). -/
inductive Move where
  | seq (a : Nat)
  | txLoad (i : Nat)
  | txFinish (i : Nat)
  | rxFrame (i : Nat)
  | lineFlags (i : Nat)
deriving DecidableEq, Repr, Inhabited

/-- Who moves once the fixed schedule is used up: free (00_scope R11, log 2). -/
opaque Config.freeMove : Nat → Move

/-- The received 9-bit word that 42_transfer R182 draws (log 3). -/
opaque Config.drawWord : Nat → BitVec 9

/-- The framing-error flag that 42_transfer R182 draws (log 3). -/
opaque Config.drawFE : Nat → BitVec 1

/-- The parity-error flag that 42_transfer R182 draws (log 3). -/
opaque Config.drawPE : Nat → BitVec 1

/-- The word of an unspecified frame (42_transfer R183, log 3). -/
opaque Config.drawTx : Nat → BitVec 9

/-- What an unwritten RDR reads as (70_reset_and_hazards R231, log 5). -/
opaque Config.drawRDR : Nat → BitVec 9

/-- NE, IDLE, LBD, CTS in bits 0 to 3 as the environment sets them (10_state R22, log 8). -/
opaque Config.drawLine : Nat → BitVec 4

end Sys2Proof
end

