-- ==== Sys2Proof/Machine/RegMap.lean ====
section
/-! DEFINITION. The register map: which register holds a field, field widths, the layout's accessors,
the reference profile (20_memory R61 to R65) and the default parameters (00_scope R8). -/

namespace Sys2Proof

/-- The fields that a register holds (20_memory R62 to R65). DR holds no named field: its write side
is TDR, its read side RDR (10_state R24). -/
def Reg.fields : Reg → List Field
  | .sr => [.PE, .FE, .NE, .ORE, .IDLE, .RXNE, .TC, .TXE, .LBD, .CTS]
  | .dr => []
  | .brr => [.BRR]
  | .cr1 => [.SBK, .RWU, .RE, .TE, .IDLEIE, .RXNEIE, .TCIE, .TXEIE, .PEIE, .PS, .PCE, .WAKE, .M, .UE]
  | .cr2 => [.ADD, .LBDL, .LBDIE, .LBCL, .CPHA, .CPOL, .CLKEN, .STOP, .LINEN]
  | .cr3 => [.EIE, .IREN, .IRLP, .HDSEL, .NACK, .SCEN, .DMAR, .DMAT, .RTSE, .CTSE, .CTSIE]
  | .gtpr => [.PSC, .GT]

/-- Every field. -/
def Field.all : List Field :=
  Reg.sr.fields ++ Reg.brr.fields ++ Reg.cr1.fields ++ Reg.cr2.fields ++ Reg.cr3.fields ++ Reg.gtpr.fields

/-- A field's width (10_state R21 to R23, 20_memory R65). -/
def Field.width : Field → Nat
  | .BRR => 16
  | .STOP => 2
  | .ADD => 4
  | .PSC => 8
  | .GT => 8
  | _ => 1

/-- The mask of a field's width, at bit 0. -/
def Field.mask (f : Field) : Word32 := BitVec.ofNat 32 (2 ^ f.width - 1)

/-- The registers of a window in address order (20_memory R61). -/
def Reg.all : List Reg := [.sr, .dr, .brr, .cr1, .cr2, .cr3, .gtpr]

/-- A register's offset in its window (20_memory R61). -/
def Layout.off (L : Layout) : Reg → Nat
  | .sr => L.offSR
  | .dr => L.offDR
  | .brr => L.offBRR
  | .cr1 => L.offCR1
  | .cr2 => L.offCR2
  | .cr3 => L.offCR3
  | .gtpr => L.offGTPR

/-- The lowest bit of a field in its register. -/
def Layout.lo (L : Layout) (f : Field) : Nat := (L.pos.lookup f).getD 0

/-- SR's bits in the reference profile (20_memory R62). -/
def Layout.posSR : List (Field × Nat) :=
  [(.PE, 0), (.FE, 1), (.NE, 2), (.ORE, 3), (.IDLE, 4), (.RXNE, 5), (.TC, 6), (.TXE, 7), (.LBD, 8), (.CTS, 9)]

/-- BRR's field in the reference profile (20_memory R63). -/
def Layout.posBRR : List (Field × Nat) := [(.BRR, 0)]

/-- CR1's bits in the reference profile (20_memory R64). -/
def Layout.posCR1 : List (Field × Nat) :=
  [(.SBK, 0), (.RWU, 1), (.RE, 2), (.TE, 3), (.IDLEIE, 4), (.RXNEIE, 5), (.TCIE, 6),
   (.TXEIE, 7), (.PEIE, 8), (.PS, 9), (.PCE, 10), (.WAKE, 11), (.M, 12), (.UE, 13)]

/-- CR2's bits in the reference profile (20_memory R65). -/
def Layout.posCR2 : List (Field × Nat) :=
  [(.ADD, 0), (.LBDL, 5), (.LBDIE, 6), (.LBCL, 8), (.CPHA, 9), (.CPOL, 10), (.CLKEN, 11), (.STOP, 12), (.LINEN, 14)]

/-- CR3's bits in the reference profile (20_memory R65). -/
def Layout.posCR3 : List (Field × Nat) :=
  [(.EIE, 0), (.IREN, 1), (.IRLP, 2), (.HDSEL, 3), (.NACK, 4), (.SCEN, 5),
   (.DMAR, 6), (.DMAT, 7), (.RTSE, 8), (.CTSE, 9), (.CTSIE, 10)]

/-- GTPR's bits in the reference profile (20_memory R65). -/
def Layout.posGTPR : List (Field × Nat) := [(.PSC, 0), (.GT, 8)]

/-- The reference profile (00_scope R3, 20_memory R61 to R65; STOP codes 41_line_init R127). -/
def Layout.reference : Layout where
  offSR := 0x00
  offDR := 0x04
  offBRR := 0x08
  offCR1 := 0x0C
  offCR2 := 0x10
  offCR3 := 0x14
  offGTPR := 0x18
  window := 0x1C
  pos := Layout.posSR ++ Layout.posBRR ++ Layout.posCR1 ++ Layout.posCR2 ++ Layout.posCR3 ++ Layout.posGTPR
  drPos := 0
  stopOne := 0b00
  stopTwo := 0b10
  stopHalf := 0b01
  stopOneAndHalf := 0b11

/-- `P_NINST`, the number of UARTs (00_scope R8). -/
def Params.nInst (p : Params) : Nat := p.insts.length

/-- `P_BASE(i)` (0 for a UART that does not exist; nothing reads it). -/
def Params.base (p : Params) (i : Nat) : Word32 := (p.insts[i]?).elim 0 (·.base)

/-- `P_FCLK(i)` (0 for a UART that does not exist; nothing reads it). -/
def Params.fclk (p : Params) (i : Nat) : Nat := (p.insts[i]?).elim 0 (·.fclk)

/-- `P_CLOCKED(i)`; a UART that does not exist has no clock. -/
def Params.clocked (p : Params) (i : Nat) : Bool := (p.insts[i]?).elim false (·.clocked)

/-- `P_RX_SOURCE(i)`. -/
def Params.rxSource (p : Params) (i : Nat) : RxSource := (p.insts[i]?).elim .external (·.rxSource)

/-- The defaults of one UART (00_scope R8). -/
def InstParams.atBase (b : Word32) : InstParams where
  base := b
  fclk := 8000000
  clocked := true
  rxSource := .external

/-- The default parameters (00_scope R8). -/
def Params.default : Params where
  insts := [.atBase 0x40013800, .atBase 0x40004400, .atBase 0x40004800]
  wlPolicy := .literal
  fieldWrite := .assign
  txeReset := 1
  layout := Layout.reference
  nAgents := 1

end Sys2Proof
end

