-- ==== Sys2Proof/Machine/State.lean ====
section
/-! DEFINITION. The state of the block (10_state), all plain data, the reasons a step can stop, and
the state after reset (70_reset_and_hazards R230). -/

namespace Sys2Proof.Machine

/-- Register block `rb[i]`: the control fields of 10_state R21, the status flags of R23, the data
registers of R24 (`none` is the spec's own state "unwritten", 70_reset_and_hazards R231, log 5) and the
other fields of R22. -/
structure RegBlock where
  BRR : BitVec 16
  M : BitVec 1
  PCE : BitVec 1
  PS : BitVec 1
  STOP : BitVec 2
  RTSE : BitVec 1
  CTSE : BitVec 1
  TE : BitVec 1
  RE : BitVec 1
  UE : BitVec 1
  TXE : BitVec 1
  TC : BitVec 1
  RXNE : BitVec 1
  ORE : BitVec 1
  FE : BitVec 1
  PE : BitVec 1
  TDR : Option (BitVec 9)
  RDR : Option (BitVec 9)
  NE : BitVec 1
  IDLE : BitVec 1
  LBD : BitVec 1
  CTS : BitVec 1
  SBK : BitVec 1
  RWU : BitVec 1
  IDLEIE : BitVec 1
  RXNEIE : BitVec 1
  TCIE : BitVec 1
  TXEIE : BitVec 1
  PEIE : BitVec 1
  WAKE : BitVec 1
  ADD : BitVec 4
  LBDL : BitVec 1
  LBDIE : BitVec 1
  LBCL : BitVec 1
  CPHA : BitVec 1
  CPOL : BitVec 1
  CLKEN : BitVec 1
  LINEN : BitVec 1
  EIE : BitVec 1
  IREN : BitVec 1
  IRLP : BitVec 1
  HDSEL : BitVec 1
  NACK : BitVec 1
  SCEN : BitVec 1
  DMAR : BitVec 1
  DMAT : BitVec 1
  CTSIE : BitVec 1
  PSC : BitVec 8
  GT : BitVec 8
deriving DecidableEq, Repr, Inhabited

/-- The format a frame is sent with: the snapshot `fmt` of 10_state R25. -/
structure Format where
  M    : BitVec 1
  PCE  : BitVec 1
  PS   : BitVec 1
  STOP : BitVec 2
  BRR  : BitVec 16
deriving DecidableEq, Repr, Inhabited

/-- Shift logic `sh[i]` (10_state R25). The value is `none` when it is Unspecified (42_transfer R180). -/
inductive Shift where
  | idle
  | busy (v : Option (BitVec 9)) (fmt : Format) (corrupt : Bool)
deriving DecidableEq, Repr, Inhabited

/-- An entry of the wire log (10_state R26). `word` holds the `nbits` bits of the frame, extended with
zeros to 9 (log 15); `stop` is the hardware code. -/
inductive WireEntry where
  | frame (word : BitVec 9) (nbits : Nat) (parity : ParityMode) (stop : BitVec 2) (brr : BitVec 16)
  | corrupt
deriving DecidableEq, Repr, Inhabited

/-- One UART: `rb[i]`, `sh[i]`, `wire[i]`, `rxcur[i]` (10_state R20 to R27). -/
structure Uart where
  rb    : RegBlock
  sh    : Shift
  wire  : List WireEntry
  rxcur : Nat
deriving DecidableEq, Repr, Inhabited

/-- The encoder's output `ENC` (41_line_init R120). -/
structure Enc where
  brr  : BitVec 16
  m    : BitVec 1
  pce  : BitVec 1
  ps   : BitVec 1
  stop : BitVec 2
  rtse : BitVec 1
  ctse : BitVec 1
deriving DecidableEq, Repr, Inhabited

/-- Where a sequencer agent is (10_state R28; 90_conflicts C7). -/
inductive Phase where
  | idle
  | init (k : Fin 8) (r : Option Word32)
  | txHold
  | txWrite
  | rxHold
  | rxRead
  | faulted
deriving DecidableEq, Repr, Inhabited

/-- An entry of the result log `RES` (30_encoding R95). -/
inductive Result where
  | resolved (h : BitVec 2) (base : Word32)
  | byte (v : Byte)
deriving DecidableEq, Repr, Inhabited

/-- What `FAULT` holds: code 0 is `ok`, then codes 1 to 4 in order (60_exceptions R200). -/
inductive FaultCode where
  | ok | reserved | badHandle | badParity | brrRange
deriving DecidableEq, Repr, Inhabited

/-- Sequencer agent `seq[a]` (10_state R28). -/
structure Seq where
  phase : Phase
  CMD   : CmdWord
  H     : BitVec 2
  CFG   : BitVec 9
  ENC   : Enc
  TXB   : Byte
  RES   : List Result
  FAULT : FaultCode
  next  : Nat
deriving DecidableEq, Repr, Inhabited

/-- The block. `par` and `progs` are fixed at launch (00_scope R8, 10_state R29; log 1); `turn`, `sched`,
`clock` and `draws` are the model's own (log 2, log 3). -/
structure State where
  par   : Params
  progs : List (List CmdWord)
  uarts : List Uart
  seqs  : List Seq
  turn  : Move
  sched : List Move
  clock : Nat
  draws : Nat
deriving DecidableEq, Repr, Inhabited

/-- Where the model itself stops. The block's own faults are codes in `FAULT` (60_exceptions R200) and are
next states. -/
inductive Fault where
  /-- Raised by exec when the turn is no sequencer agent's, so that no agent runs the command: no step
  reaches it (log 11). Safe. -/
  | noSequencerAgent
  /-- Raised by exec when the agent is inside a command of another kind: no step reaches it (log 11). Safe. -/
  | phaseOfAnotherCommand
deriving DecidableEq, Repr, Inhabited

/-- What the model refuses: bus accesses that "a model that meets one refuses" (20_memory R70). -/
inductive Refusal where
  /-- Raised by exec for a command without a meaning yet. Safe. -/
  | notModelled (mnemonic : String)
  /-- Raised by a bus access of a width other than 32 bits (20_memory R70). Safe. -/
  | accessWidth
  /-- Raised by a bus access to an address that is not word aligned (20_memory R70). Safe. -/
  | accessMisaligned
  /-- Raised by a bus access to an address that is no register of a window (20_memory R70). Safe. -/
  | accessOutsideWindows
  /-- Raised by a register access that names a UART that does not exist (20_memory R70, 10_state R20). Safe. -/
  | noSuchUart
  /-- Raised by a write to SR, which "is never written" (20_memory R68). Safe. -/
  | statusWrite
deriving DecidableEq, Repr, Inhabited

/-- A register block after reset (70_reset_and_hazards R230, 10_state R21 to R24). -/
def RegBlock.reset (txe : BitVec 1) : RegBlock where
  BRR := 0
  M := 0
  PCE := 0
  PS := 0
  STOP := 0
  RTSE := 0
  CTSE := 0
  TE := 0
  RE := 0
  UE := 0
  TXE := txe
  TC := 1
  RXNE := 0
  ORE := 0
  FE := 0
  PE := 0
  TDR := none
  RDR := none
  NE := 0
  IDLE := 0
  LBD := 0
  CTS := 0
  SBK := 0
  RWU := 0
  IDLEIE := 0
  RXNEIE := 0
  TCIE := 0
  TXEIE := 0
  PEIE := 0
  WAKE := 0
  ADD := 0
  LBDL := 0
  LBDIE := 0
  LBCL := 0
  CPHA := 0
  CPOL := 0
  CLKEN := 0
  LINEN := 0
  EIE := 0
  IREN := 0
  IRLP := 0
  HDSEL := 0
  NACK := 0
  SCEN := 0
  DMAR := 0
  DMAT := 0
  CTSIE := 0
  PSC := 0
  GT := 0

/-- A UART after reset (70_reset_and_hazards R230). -/
def Uart.reset (txe : BitVec 1) : Uart where
  rb := RegBlock.reset txe
  sh := .idle
  wire := []
  rxcur := 0

/-- A sequencer agent after reset (70_reset_and_hazards R230). DESIGN CHOICE, unsafe: the latches, which the
spec leaves unwritten, hold 0 (log 4). -/
def Seq.reset : Seq where
  phase := .idle
  CMD := 0
  H := 0
  CFG := 0
  ENC := { brr := 0, m := 0, pce := 0, ps := 0, stop := 0, rtse := 0, ctse := 0 }
  TXB := 0
  RES := []
  FAULT := .ok
  next := 0

/-- The block after reset with given parameters and command streams (70_reset_and_hazards R230).
DESIGN CHOICE: the model's own fields start with sequencer agent 0's turn, no schedule, counters 0 (log 2, log 3). -/
def State.launch (p : Params) (progs : List (List CmdWord)) : State where
  par := p
  progs := progs
  uarts := p.insts.map fun _ => Uart.reset p.txeReset
  seqs := List.replicate p.nAgents Seq.reset
  turn := .seq 0
  sched := []
  clock := 0
  draws := 0

/-- The machine right after reset, with the default parameters (00_scope R8) and no program loaded (log 7). -/
def State.reset : State := State.launch Params.default [[]]

end Sys2Proof.Machine
end

