-- ==== Sys2Proof/Machine/Registers.lean ====
section
/-! DEFINITION. Register words: reading and writing a field of a register block, packing a register's
fields into its word and unpacking a written word (20_memory R62 to R65, R68), and the field
replacement of a read-modify-write (41_line_init R133). -/

namespace Sys2Proof.Machine

/-- The value of a field, extended with zeros. -/
def RegBlock.get (b : RegBlock) : Field → Word32
  | .PE => b.PE.setWidth 32
  | .FE => b.FE.setWidth 32
  | .NE => b.NE.setWidth 32
  | .ORE => b.ORE.setWidth 32
  | .IDLE => b.IDLE.setWidth 32
  | .RXNE => b.RXNE.setWidth 32
  | .TC => b.TC.setWidth 32
  | .TXE => b.TXE.setWidth 32
  | .LBD => b.LBD.setWidth 32
  | .CTS => b.CTS.setWidth 32
  | .BRR => b.BRR.setWidth 32
  | .SBK => b.SBK.setWidth 32
  | .RWU => b.RWU.setWidth 32
  | .RE => b.RE.setWidth 32
  | .TE => b.TE.setWidth 32
  | .IDLEIE => b.IDLEIE.setWidth 32
  | .RXNEIE => b.RXNEIE.setWidth 32
  | .TCIE => b.TCIE.setWidth 32
  | .TXEIE => b.TXEIE.setWidth 32
  | .PEIE => b.PEIE.setWidth 32
  | .PS => b.PS.setWidth 32
  | .PCE => b.PCE.setWidth 32
  | .WAKE => b.WAKE.setWidth 32
  | .M => b.M.setWidth 32
  | .UE => b.UE.setWidth 32
  | .ADD => b.ADD.setWidth 32
  | .LBDL => b.LBDL.setWidth 32
  | .LBDIE => b.LBDIE.setWidth 32
  | .LBCL => b.LBCL.setWidth 32
  | .CPHA => b.CPHA.setWidth 32
  | .CPOL => b.CPOL.setWidth 32
  | .CLKEN => b.CLKEN.setWidth 32
  | .STOP => b.STOP.setWidth 32
  | .LINEN => b.LINEN.setWidth 32
  | .EIE => b.EIE.setWidth 32
  | .IREN => b.IREN.setWidth 32
  | .IRLP => b.IRLP.setWidth 32
  | .HDSEL => b.HDSEL.setWidth 32
  | .NACK => b.NACK.setWidth 32
  | .SCEN => b.SCEN.setWidth 32
  | .DMAR => b.DMAR.setWidth 32
  | .DMAT => b.DMAT.setWidth 32
  | .RTSE => b.RTSE.setWidth 32
  | .CTSE => b.CTSE.setWidth 32
  | .CTSIE => b.CTSIE.setWidth 32
  | .PSC => b.PSC.setWidth 32
  | .GT => b.GT.setWidth 32

/-- The block with a field set to the low bits of a value. -/
def RegBlock.set (b : RegBlock) (f : Field) (v : Word32) : RegBlock :=
  match f with
  | .PE => { b with PE := v.setWidth 1 }
  | .FE => { b with FE := v.setWidth 1 }
  | .NE => { b with NE := v.setWidth 1 }
  | .ORE => { b with ORE := v.setWidth 1 }
  | .IDLE => { b with IDLE := v.setWidth 1 }
  | .RXNE => { b with RXNE := v.setWidth 1 }
  | .TC => { b with TC := v.setWidth 1 }
  | .TXE => { b with TXE := v.setWidth 1 }
  | .LBD => { b with LBD := v.setWidth 1 }
  | .CTS => { b with CTS := v.setWidth 1 }
  | .BRR => { b with BRR := v.setWidth 16 }
  | .SBK => { b with SBK := v.setWidth 1 }
  | .RWU => { b with RWU := v.setWidth 1 }
  | .RE => { b with RE := v.setWidth 1 }
  | .TE => { b with TE := v.setWidth 1 }
  | .IDLEIE => { b with IDLEIE := v.setWidth 1 }
  | .RXNEIE => { b with RXNEIE := v.setWidth 1 }
  | .TCIE => { b with TCIE := v.setWidth 1 }
  | .TXEIE => { b with TXEIE := v.setWidth 1 }
  | .PEIE => { b with PEIE := v.setWidth 1 }
  | .PS => { b with PS := v.setWidth 1 }
  | .PCE => { b with PCE := v.setWidth 1 }
  | .WAKE => { b with WAKE := v.setWidth 1 }
  | .M => { b with M := v.setWidth 1 }
  | .UE => { b with UE := v.setWidth 1 }
  | .ADD => { b with ADD := v.setWidth 4 }
  | .LBDL => { b with LBDL := v.setWidth 1 }
  | .LBDIE => { b with LBDIE := v.setWidth 1 }
  | .LBCL => { b with LBCL := v.setWidth 1 }
  | .CPHA => { b with CPHA := v.setWidth 1 }
  | .CPOL => { b with CPOL := v.setWidth 1 }
  | .CLKEN => { b with CLKEN := v.setWidth 1 }
  | .STOP => { b with STOP := v.setWidth 2 }
  | .LINEN => { b with LINEN := v.setWidth 1 }
  | .EIE => { b with EIE := v.setWidth 1 }
  | .IREN => { b with IREN := v.setWidth 1 }
  | .IRLP => { b with IRLP := v.setWidth 1 }
  | .HDSEL => { b with HDSEL := v.setWidth 1 }
  | .NACK => { b with NACK := v.setWidth 1 }
  | .SCEN => { b with SCEN := v.setWidth 1 }
  | .DMAR => { b with DMAR := v.setWidth 1 }
  | .DMAT => { b with DMAT := v.setWidth 1 }
  | .RTSE => { b with RTSE := v.setWidth 1 }
  | .CTSE => { b with CTSE := v.setWidth 1 }
  | .CTSIE => { b with CTSIE := v.setWidth 1 }
  | .PSC => { b with PSC := v.setWidth 8 }
  | .GT => { b with GT := v.setWidth 8 }

/-- The bits of a register word that hold a field, at bit 0 (00_scope R9 `v[hi:lo]`). -/
def extractField (L : Layout) (f : Field) (v : Word32) : Word32 :=
  (v >>> L.lo f) &&& f.mask

/-- A field's value at its place in the register word. -/
def placeField (L : Layout) (f : Field) (v : Word32) : Word32 :=
  (v &&& f.mask) <<< L.lo f

/-- A register word with one field replaced and "all other bits" kept (41_line_init R133). -/
def insertField (L : Layout) (f : Field) (v r : Word32) : Word32 :=
  (r &&& ~~~(f.mask <<< L.lo f)) ||| placeField L f v

/-- The word of a register: its fields at their places, reserved bits 0 (20_memory R62 to R65). DR reads
as RDR (20_memory R63), and the caller says what an unwritten RDR reads as (log 5). -/
def readWord (L : Layout) (b : RegBlock) (unwritten : BitVec 9) : Reg → Word32
  | .dr => (b.RDR.getD unwritten).setWidth 32 <<< L.drPos
  | r => r.fields.foldl (fun acc f => acc ||| placeField L f (b.get f)) 0

/-- The block after a write of BRR, CR1, CR2, CR3 or GTPR: "exactly the fields the written bits hold",
reserved bits ignored (20_memory R68). -/
def writeFields (L : Layout) (b : RegBlock) (r : Reg) (v : Word32) : RegBlock :=
  r.fields.foldl (fun b f => b.set f (extractField L f v)) b

/-- The format fields of a block (10_state R25). -/
def RegBlock.format (b : RegBlock) : Format where
  M := b.M
  PCE := b.PCE
  PS := b.PS
  STOP := b.STOP
  BRR := b.BRR

end Sys2Proof.Machine
end

