-- ==== Sys2Proof/Machine/Frame.lean ====
section
/-! DEFINITION. The contents of a frame on the line (42_transfer R183). -/

namespace Sys2Proof.Machine

/-- The number of ones among the low `n` bits. -/
def popcount : Nat → Nat → Nat
  | 0, _ => 0
  | n + 1, d => popcount n d + (d.testBit n).toNat

/-- `parity(PCE, PS)` (42_transfer R182). -/
def parityOf (pce ps : BitVec 1) : ParityMode :=
  if pce = 0 then .off else if ps = 0 then .even else .odd

/-- The frame length `L = 8 + M` (42_transfer R183). -/
def Format.nbits (fmt : Format) : Nat := 8 + fmt.M.toNat

/-- The parity bit over the data bits `d` (42_transfer R183). -/
def parityBit (n d : Nat) (ps : BitVec 1) : Nat := (popcount n d + ps.toNat) % 2

/-- The `L` bits of the frame: `v[L-1:0]`, or the parity bit over `v[L-2:0]` and those (42_transfer R183). -/
def frameWord (v : BitVec 9) (fmt : Format) : BitVec 9 :=
  if fmt.PCE = 0 then BitVec.ofNat 9 (v.toNat % 2 ^ fmt.nbits)
  else
    let d := v.toNat % 2 ^ (fmt.nbits - 1)
    BitVec.ofNat 9 (parityBit (fmt.nbits - 1) d fmt.PS * 2 ^ (fmt.nbits - 1) + d)

/-- `frame(v, fmt)` of a specified value (42_transfer R183). -/
def frame (v : BitVec 9) (fmt : Format) : WireEntry :=
  .frame (frameWord v fmt) fmt.nbits (parityOf fmt.PCE fmt.PS) fmt.STOP fmt.BRR

end Sys2Proof.Machine
end

