-- ==== Sys2Proof/Machine/Flags.lean ====
section
/-! DEFINITION. The status flags and the data registers: every way a flag changes (10_state R23,
20_memory R66, R67, 42_transfer R180 to R182), and the corrupt mark (42_transfer R184). -/

namespace Sys2Proof.Machine

/-- A data-register write (20_memory R66). -/
def RegBlock.dataWrite (b : RegBlock) (v : BitVec 9) : RegBlock :=
  { b with TDR := some v, TXE := 0, TC := 0 }

/-- The flags after a data-register read (20_memory R67). -/
def RegBlock.dataRead (b : RegBlock) : RegBlock :=
  { b with RXNE := 0, ORE := 0, FE := 0, PE := 0 }

/-- The holding register has been moved into the shift logic (42_transfer R180). -/
def RegBlock.txLoaded (b : RegBlock) : RegBlock := { b with TXE := 1 }

/-- The last frame has left: TC is set if the holding register is empty (42_transfer R181). -/
def RegBlock.txFinished (b : RegBlock) : RegBlock := if b.TXE = 1 then { b with TC := 1 } else b

/-- A frame arrives; an unread byte stays and ORE is set (42_transfer R182). -/
def RegBlock.received (b : RegBlock) (x : BitVec 9) (fe pe : BitVec 1) : RegBlock :=
  if b.RXNE = 0 then { b with RDR := some x, RXNE := 1, FE := fe, PE := pe } else { b with ORE := 1 }

/-- The flags that "are left to the environment" (10_state R22, log 8). -/
def RegBlock.lineFlags (b : RegBlock) (v : BitVec 4) : RegBlock :=
  { b with
    NE := v.extractLsb' 0 1
    IDLE := v.extractLsb' 1 1
    LBD := v.extractLsb' 2 1
    CTS := v.extractLsb' 3 1 }

/-- The corrupt mark after a write of BRR, CR1 or CR2 (42_transfer R184). -/
def Uart.markCorrupt (u : Uart) : Uart :=
  match u.sh with
  | .idle => u
  | .busy v fmt c => { u with sh := .busy v fmt (c || decide (u.rb.format ≠ fmt)) }

end Sys2Proof.Machine
end

