-- ==== Sys2Proof/Decode.lean ====
section
/-! DEFINITION. The command words: decoding, total on 16-bit words, and encoding (30_encoding R81, R82,
R88, R90), and the packed Line Configuration (R84, R85). -/

namespace Sys2Proof

/-- Why a word is no command: a reserved bit is set (30_encoding R90, the only way: R88). -/
inductive DecodeError where
  | reservedBit
deriving DecidableEq, Repr

/-- The row of the opcode map that a word's `op` selects, with its reserved bits checked (30_encoding R81, R88). -/
def decode (w : CmdWord) : Except DecodeError Instr :=
  let h : BitVec 2 := w.extractLsb' 2 2
  if w.extractLsb' 0 2 = 0b00#2 then
    if w &&& 0xFFF0#16 = 0 then .ok (.resolve h) else .error .reservedBit
  else if w.extractLsb' 0 2 = 0b01#2 then
    if w &&& 0xE000#16 = 0 then .ok (.initLine h (w.extractLsb' 4 9)) else .error .reservedBit
  else if w.extractLsb' 0 2 = 0b10#2 then
    if w &&& 0xF000#16 = 0 then .ok (.transmit h (w.extractLsb' 4 8)) else .error .reservedBit
  else
    if w &&& 0xFFF0#16 = 0 then .ok (.receive h) else .error .reservedBit

/-- The word of a command, from the patterns of 30_encoding R81. -/
def encode : Instr → CmdWord
  | .resolve sel => (0#12 ++ sel ++ 0b00#2 : BitVec 16)
  | .initLine h cfg => (0#3 ++ cfg ++ h ++ 0b01#2 : BitVec 16)
  | .transmit h byte => (0#4 ++ byte ++ h ++ 0b10#2 : BitVec 16)
  | .receive h => (0#12 ++ h ++ 0b11#2 : BitVec 16)

/-- The instruction the decoder reads from a word numbered as spec/opcode_table.json numbers it: every row
is one 16-bit word, and a longer word would need bits no command has (30_encoding R80, R91). -/
def decodeTableWord (nbits w : Nat) : Option Instr :=
  if nbits ≤ 16 ∧ w < 2 ^ 16 then (decode (BitVec.ofNat 16 w)).toOption else none

/-- The code of a flow control mode (30_encoding R85). -/
def FlowControl.code : FlowControl → BitVec 2
  | .off => 0
  | .rts => 1
  | .cts => 2
  | .rtsCts => 3

/-- The code of a parity mode (30_encoding R85). -/
def ParityMode.code : ParityMode → BitVec 2
  | .off => 0
  | .even => 1
  | .odd => 2

/-- The code of a baud rate (30_encoding R85). -/
def BaudRate.code : BaudRate → BitVec 2
  | .b9600 => 0
  | .b115200 => 1
  | .b57600 => 2
  | .b38400 => 3

/-- The code of a number of stop bits (30_encoding R85). -/
def StopBits.code : StopBits → BitVec 2
  | .one => 0
  | .two => 1
  | .half => 2
  | .oneAndHalf => 3

/-- The code of a word length (30_encoding R85). -/
def WordLength.code : WordLength → BitVec 1
  | .bits8 => 0
  | .bits9 => 1

/-- The 9-bit word `CFG` of a Line Configuration: WL, STOPC, BAUD, PAR, FLOW from bit 8 down (30_encoding R84). -/
def LineConfig.pack (c : LineConfig) : BitVec 9 :=
  (c.word.code ++ c.stop.code ++ c.baud.code ++ c.parity.code ++ c.flow.code : BitVec 9)

/-- The flow control mode of a code (30_encoding R85). -/
def FlowControl.ofCode (v : BitVec 2) : FlowControl :=
  if v = 0 then .off else if v = 1 then .rts else if v = 2 then .cts else .rtsCts

/-- The parity mode of a code; 3 is illegal (30_encoding R85). -/
def ParityMode.ofCode (v : BitVec 2) : Option ParityMode :=
  if v = 0 then some .off else if v = 1 then some .even else if v = 2 then some .odd else none

/-- The baud rate of a code (30_encoding R85). -/
def BaudRate.ofCode (v : BitVec 2) : BaudRate :=
  if v = 0 then .b9600 else if v = 1 then .b115200 else if v = 2 then .b57600 else .b38400

/-- The number of stop bits of a code (30_encoding R85). -/
def StopBits.ofCode (v : BitVec 2) : StopBits :=
  if v = 0 then .one else if v = 1 then .two else if v = 2 then .half else .oneAndHalf

/-- The word length of a code (30_encoding R85). -/
def WordLength.ofCode (v : BitVec 1) : WordLength := if v = 0 then .bits8 else .bits9

/-- The Line Configuration of a 9-bit word; none when `PAR = 3` (30_encoding R84, R86). -/
def LineConfig.unpack (cfg : BitVec 9) : Option LineConfig :=
  (ParityMode.ofCode (cfg.extractLsb' 2 2)).map fun p =>
    { flow := .ofCode (cfg.extractLsb' 0 2)
      parity := p
      baud := .ofCode (cfg.extractLsb' 4 2)
      stop := .ofCode (cfg.extractLsb' 6 2)
      word := .ofCode (cfg.extractLsb' 8 1) }

end Sys2Proof
end

