-- ==== Sys2Proof/WellFormed.lean ====
section
/-! DEFINITION. What a well-formed command (30_encoding R89), layout and parameter set (00_scope R8,
20_memory R60, R70; the model's own conditions: log 21) are: Boolean checks. -/

namespace Sys2Proof

/-- The UART a command names (30_encoding R82). -/
def Instr.handle : Instr → BitVec 2
  | .resolve sel => sel
  | .initLine h _ => h
  | .transmit h _ => h
  | .receive h => h

/-- The instance field names a UART that exists (30_encoding R89). -/
def Instr.handleOk (nInst : Nat) (i : Instr) : Bool := decide (i.handle.toNat < nInst)

/-- The configuration of INITIALIZE holds a ParityMode (30_encoding R89). -/
def Instr.parityOk : Instr → Bool
  | .initLine _ cfg => decide (cfg.extractLsb' 2 2 ≠ 3#2)
  | .resolve _ => true
  | .transmit _ _ => true
  | .receive _ => true

/-- A legal command word (30_encoding R89). Whether a divisor fits depends on the clock: that is
acceptance's check 4 (60_exceptions R201), not this one's. -/
def Instr.wf (nInst : Nat) (i : Instr) : Bool := i.handleOk nInst && i.parityOk

/-- Two fields of one register share no bit. -/
def Layout.apart (L : Layout) (f g : Field) : Bool :=
  decide (L.lo f + f.width ≤ L.lo g) || decide (L.lo g + g.width ≤ L.lo f)

/-- Every field fits into 32 bits. -/
def Layout.fieldsFit (L : Layout) : Bool :=
  Field.all.all (fun f => decide (L.lo f + f.width ≤ 32)) && decide (L.drPos + 9 ≤ 32)

/-- No two fields of a register overlap. -/
def Layout.fieldsApart (L : Layout) : Bool :=
  Reg.all.all fun r => r.fields.all fun f => r.fields.all fun g => decide (f = g) || L.apart f g

/-- The offsets are distinct word addresses inside the window (20_memory R70). -/
def Layout.offsetsOk (L : Layout) : Bool :=
  Reg.all.all (fun r => decide (L.off r % 4 = 0) && decide (L.off r + 4 ≤ L.window)) &&
    decide (Reg.all.map L.off).Nodup

/-- The STOP translation is a bijection (41_line_init R127). -/
def Layout.stopsOk (L : Layout) : Bool :=
  decide [L.stopOne, L.stopTwo, L.stopHalf, L.stopOneAndHalf].Nodup

/-- A layout that can be a register map. Word-aligned offsets are 20_memory R70's and the STOP
bijection 41_line_init R127's; DESIGN CHOICE: the other conditions, since 00_scope R8 says only "a layout record"
(log 21). -/
def Layout.wf (L : Layout) : Bool := L.fieldsFit && L.fieldsApart && L.offsetsOk && L.stopsOk

/-- One UART's parameters: base word aligned and the clock above 0, as 00_scope R8 says. DESIGN CHOICE: the window
ends inside the 32-bit address space, and a loopback source exists; R8's domains do not ask for either (log 21). -/
def InstParams.wf (p : Params) (c : InstParams) : Bool :=
  decide (c.base.toNat % 4 = 0) && decide (c.base.toNat + p.layout.window ≤ 2 ^ 32) && decide (0 < c.fclk) &&
    match c.rxSource with
    | .external => true
    | .loopback j => decide (j < p.nInst)

/-- "The windows do not overlap (a precondition on P_BASE)" (20_memory R60). -/
def Params.windowsApart (p : Params) : Bool :=
  decide (p.insts.Pairwise fun c d =>
    c.base.toNat + p.layout.window ≤ d.base.toNat ∨ d.base.toNat + p.layout.window ≤ c.base.toNat)

/-- Parameters in the domains of 00_scope R8, with the model's own conditions on windows, loopback sources and the
layout (log 21), and windows that do not overlap (20_memory R60). -/
def Params.wf (p : Params) : Bool :=
  decide (1 ≤ p.nInst) && decide (p.nInst ≤ 4) && decide (1 ≤ p.nAgents) && p.layout.wf &&
    p.insts.all (InstParams.wf p) && p.windowsApart

end Sys2Proof
end

