-- ==== Sys2Proof/Machine/Operands.lean ====
section
/-! DEFINITION. The operands of INITIALIZE: the fields of `CFG` (30_encoding R84), the encoder functions
(41_line_init R120 to R128), and the acceptance checks on a decoded command (60_exceptions R201). -/

namespace Sys2Proof.Machine

/-- `CFG[1:0]` (30_encoding R84). -/
def cfgFlow (cfg : BitVec 9) : BitVec 2 := cfg.extractLsb' 0 2

/-- `CFG[3:2]` (30_encoding R84). -/
def cfgPar (cfg : BitVec 9) : BitVec 2 := cfg.extractLsb' 2 2

/-- `CFG[5:4]` (30_encoding R84). -/
def cfgBaud (cfg : BitVec 9) : BitVec 2 := cfg.extractLsb' 4 2

/-- `CFG[7:6]` (30_encoding R84). -/
def cfgStop (cfg : BitVec 9) : BitVec 2 := cfg.extractLsb' 6 2

/-- `CFG[8]` (30_encoding R84). -/
def cfgWl (cfg : BitVec 9) : BitVec 1 := cfg.extractLsb' 8 1

/-- Bits per second of a BAUD code (41_line_init R121). -/
def baudRate (code : BitVec 2) : Nat :=
  if code = 0 then 9600 else if code = 1 then 115200 else if code = 2 then 57600 else 38400

/-- `round_half_up(p, q)` (00_scope R9). -/
def roundHalfUp (p q : Nat) : Nat := (2 * p + q) / (2 * q)

/-- The divisor before it is checked to fit (41_line_init R124). -/
def divisor (fclk : Nat) (cfg : BitVec 9) : Nat := roundHalfUp fclk (baudRate (cfgBaud cfg))

/-- "The divisor is legal only if" (41_line_init R125). -/
def divisorOk (fclk : Nat) (cfg : BitVec 9) : Bool :=
  decide (16 ≤ divisor fclk cfg) && decide (divisor fclk cfg ≤ 0xFFFF)

/-- The word length bit (41_line_init R122). -/
def encM (pol : WlPolicy) (cfg : BitVec 9) : BitVec 1 :=
  match pol with
  | .literal => cfgWl cfg
  | .autoExtend => cfgWl cfg ||| (if cfgPar cfg ≠ 0 then 1 else 0)

/-- Parity enable (41_line_init R123). -/
def encPce (cfg : BitVec 9) : BitVec 1 := if cfgPar cfg ≠ 0 then 1 else 0

/-- Parity odd (41_line_init R123). -/
def encPs (cfg : BitVec 9) : BitVec 1 := if cfgPar cfg = 2 then 1 else 0

/-- The hardware STOP code (41_line_init R127, the codes of `P_LAYOUT`). -/
def encStop (L : Layout) (cfg : BitVec 9) : BitVec 2 :=
  if cfgStop cfg = 0 then L.stopOne else if cfgStop cfg = 1 then L.stopTwo
  else if cfgStop cfg = 2 then L.stopHalf else L.stopOneAndHalf

/-- RTS enable (41_line_init R128). -/
def encRtse (cfg : BitVec 9) : BitVec 1 := (cfgFlow cfg).extractLsb' 0 1

/-- CTS enable (41_line_init R128). -/
def encCtse (cfg : BitVec 9) : BitVec 1 := (cfgFlow cfg).extractLsb' 1 1

/-- `enc(CFG, fclk)`, which reads `P_WL_POLICY` and the layout's STOP codes beside them (41_line_init R120). -/
def enc (p : Params) (cfg : BitVec 9) (fclk : Nat) : Enc where
  brr := BitVec.ofNat 16 (divisor fclk cfg)
  m := encM p.wlPolicy cfg
  pce := encPce cfg
  ps := encPs cfg
  stop := encStop p.layout cfg
  rtse := encRtse cfg
  ctse := encCtse cfg

/-- The acceptance checks 2 to 4 in their order, on a word that has passed check 1, which is the
decoder's (60_exceptions R201). -/
def acceptFault (p : Params) (i : Instr) : FaultCode :=
  if i.handleOk p.nInst = false then .badHandle
  else match i with
    | .resolve _ => .ok
    | .initLine h cfg =>
      if i.parityOk = false then .badParity
      else if divisorOk (p.fclk h.toNat) cfg = false then .brrRange
      else .ok
    | .transmit _ _ => .ok
    | .receive _ => .ok

/-- The number of a fault code (60_exceptions R200). -/
def FaultCode.num : FaultCode → Nat
  | .ok => 0
  | .reserved => 1
  | .badHandle => 2
  | .badParity => 3
  | .brrRange => 4

end Sys2Proof.Machine
end

