-- ==== Sys2Proof/Machine/Ops.lean ====
section
/-! DEFINITION. The named operations: reading and updating agents and UARTs, the peripheral bus
(20_memory), accepting a command (10_state R30), taking a fault (60_exceptions R202) and completing a
command (10_state R31). -/

namespace Sys2Proof.Machine

/-- An outcome of the block. -/
abbrev Out (α : Type) := Host.Outcome α Fault Refusal

/-- Go on with the value of a next outcome; a stop stays. -/
def Out.andThen {α β : Type} (o : Out α) (f : α → Out β) : Out β :=
  match o with
  | .next a => f a
  | .fault r => .fault r
  | .refused r => .refused r

/-- The value of a next outcome. -/
def Out.value {α : Type} : Out α → Option α
  | .next a => some a
  | .fault _ => none
  | .refused _ => none

/-- Agent `seq[a]`. -/
def State.seq (s : State) (a : Nat) : Seq := s.seqs.getD a Seq.reset

/-- UART `i`. -/
def State.uart (s : State) (i : Nat) : Uart := s.uarts.getD i (Uart.reset 0)

/-- Update agent `seq[a]`. -/
def State.modSeq (s : State) (a : Nat) (f : Seq → Seq) : State :=
  { s with seqs := s.seqs.set a (f (s.seq a)) }

/-- Update UART `i`. -/
def State.modUart (s : State) (i : Nat) (f : Uart → Uart) : State :=
  { s with uarts := s.uarts.set i (f (s.uart i)) }

/-- Update register block `rb[i]`. -/
def State.modRb (s : State) (i : Nat) (f : RegBlock → RegBlock) : State :=
  s.modUart i fun u => { u with rb := f u.rb }

/-- A free value has been used (log 3). -/
def State.useDraw (s : State) : State := { s with draws := s.draws + 1 }

/-- The sequencer agent whose turn it is. -/
def activeSeq (s : State) : Option Nat :=
  match s.turn with
  | .seq a => if a < s.seqs.length then some a else none
  | .txLoad _ => none
  | .txFinish _ => none
  | .rxFrame _ => none
  | .lineFlags _ => none

/-- An address lies in a UART's window (20_memory R60). -/
def inWindow (L : Layout) (addr : Word32) (c : InstParams) : Bool :=
  decide (c.base.toNat ≤ addr.toNat) && decide (addr.toNat < c.base.toNat + L.window)

/-- The register at an offset of a window (20_memory R61). -/
def regAt (L : Layout) (off : Nat) : Option Reg := Reg.all.find? fun r => L.off r == off

/-- The register at a bus address: the UART and the register's name (20_memory R60, R61). Should windows
overlap, against R60's precondition, the lowest instance has the address (log 14). -/
def locate (p : Params) (addr : Word32) : Option (Nat × Reg) :=
  match p.insts.findIdx? (inWindow p.layout addr) with
  | none => none
  | some i => (regAt p.layout (addr.toNat - (p.base i).toNat)).map fun r => (i, r)

/-- A read of one register of a clocked UART: a DR read clears its flags (20_memory R67), any other has no
side effect (R68). Reading an unwritten RDR gives a free value (70_reset_and_hazards R231, log 5). -/
def readReg (i : Nat) (r : Reg) (s : State) : Word32 × State :=
  let v := readWord s.par.layout (s.uart i).rb (Config.drawRDR s.draws) r
  match r with
  | .dr =>
    (v, if (s.uart i).rb.RDR.isSome then s.modRb i RegBlock.dataRead else (s.modRb i RegBlock.dataRead).useDraw)
  | .sr => (v, s)
  | .brr => (v, s)
  | .cr1 => (v, s)
  | .cr2 => (v, s)
  | .cr3 => (v, s)
  | .gtpr => (v, s)

/-- A write of a control register: its fields, and the corrupt mark for the registers that 42_transfer R184
names (20_memory R68). -/
def writeControl (i : Nat) (r : Reg) (marks : Bool) (v : Word32) (s : State) : State :=
  s.modUart i fun u =>
    let u' := { u with rb := writeFields s.par.layout u.rb r v }
    if marks then u'.markCorrupt else u'

/-- A write of one register of a clocked UART (20_memory R66, R68). SR is never written (log 10). -/
def writeReg (i : Nat) (r : Reg) (v : Word32) (s : State) : Out State :=
  match r with
  | .sr => .refused .statusWrite
  | .dr => .next (s.modRb i fun b => b.dataWrite ((v >>> s.par.layout.drPos).setWidth 9))
  | .brr => .next (writeControl i .brr true v s)
  | .cr1 => .next (writeControl i .cr1 true v s)
  | .cr2 => .next (writeControl i .cr2 true v s)
  | .cr3 => .next (writeControl i .cr3 false v s)
  | .gtpr => .next (writeControl i .gtpr false v s)

/-- `MemRead(addr, n)`: a 32-bit read of a register; reads of an unclocked UART return 0 (20_memory R69);
other accesses are refused (R70). -/
def memRead (addr : Word32) (n : Nat) (s : State) : Out (Word32 × State) :=
  if n ≠ 4 then .refused .accessWidth
  else if addr.toNat % 4 ≠ 0 then .refused .accessMisaligned
  else match locate s.par addr with
    | none => .refused .accessOutsideWindows
    | some (i, r) => if s.par.clocked i then .next (readReg i r s) else .next (0, s)

/-- `MemWrite(addr, n, v)`: a 32-bit write of a register; writes to an unclocked UART are ignored
(20_memory R69); other accesses are refused (R70). -/
def memWrite (addr : Word32) (n : Nat) (v : Word32) (s : State) : Out State :=
  if n ≠ 4 then .refused .accessWidth
  else if addr.toNat % 4 ≠ 0 then .refused .accessMisaligned
  else match locate s.par addr with
    | none => .refused .accessOutsideWindows
    | some (i, r) => if s.par.clocked i then writeReg i r v s else .next s

/-- `P_BASE(i) + off` (20_memory R70). -/
def regAddr (p : Params) (i : Nat) (r : Reg) : Word32 := p.base i + BitVec.ofNat 32 (p.layout.off r)

/-- The block's read of a register of the UART a handle names. -/
def regRead (h : BitVec 2) (r : Reg) (s : State) : Out (Word32 × State) :=
  if h.toNat < s.par.nInst then memRead (regAddr s.par h.toNat r) 4 s else .refused .noSuchUart

/-- The block's write of a register of the UART a handle names. -/
def regWrite (h : BitVec 2) (r : Reg) (v : Word32) (s : State) : Out State :=
  if h.toNat < s.par.nInst then memWrite (regAddr s.par h.toNat r) 4 v s else .refused .noSuchUart

/-- What a register reads as, without the side effect of a read; none when an unwritten RDR would be read. -/
def peekWord (s : State) (i : Nat) (r : Reg) : Option Word32 :=
  if s.par.clocked i = false then some 0
  else match (s.uart i).rb.RDR, r with
    | none, .dr => none
    | _, r => some (readWord s.par.layout (s.uart i).rb 0 r)

/-- What the byte at a bus address holds, for a reader who splits a register word into bytes: the byte at
offset +0 holds bits 7:0 (20_memory R71, log 13). None outside the registers and in an unwritten RDR. -/
def peekByte (s : State) (addr : Word32) : Option Byte :=
  match locate s.par (addr &&& ~~~3#32) with
  | none => none
  | some (i, r) => (peekWord s i r).map fun v => v.extractLsb' (8 * (addr.toNat % 4)) 8

/-- `raise Fault(code)` at the acceptance of a word: "and nothing else" (60_exceptions R202). -/
def raiseFault (a : Nat) (w : CmdWord) (code : FaultCode) (s : State) : State :=
  s.modSeq a fun q => { q with CMD := w, FAULT := code, phase := .faulted }

/-- Accepting a command that decodes: the checks, then `CMD`, `H` and what the command's own acceptance
does (10_state R30). -/
def acceptCommand (a : Nat) (i : Instr) (enter : Seq → Seq) (s : State) : State :=
  match acceptFault s.par i with
  | .ok => s.modSeq a fun q => enter { q with CMD := encode i, H := i.handle }
  | code => raiseFault a (encode i) code s

/-- The step that ends a command (10_state R31). -/
def Seq.complete (q : Seq) : Seq := { q with phase := .idle, next := q.next + 1 }

/-- The result log gains an entry (30_encoding R95). -/
def Seq.append (q : Seq) (x : Result) : Seq := { q with RES := q.RES ++ [x] }

end Sys2Proof.Machine
end

