-- ==== Sys2Proof/Machine/Peripheral.lean ====
section
/-! DEFINITION. The peripheral agent's steps (42_transfer R180 to R187). A move that is not enabled changes
nothing (log 6). -/

namespace Sys2Proof.Machine

/-- TxLoad is enabled (42_transfer R180); only a clocked UART has steps (20_memory R69). -/
def txLoadEnabled (i : Nat) (s : State) : Bool :=
  s.par.clocked i && decide ((s.uart i).rb.UE = 1) && decide ((s.uart i).rb.TE = 1) &&
    decide ((s.uart i).rb.TXE = 0) && decide ((s.uart i).sh = .idle)

/-- TxLoad (42_transfer R180): an unwritten TDR is loaded as Unspecified. -/
def txLoad (i : Nat) (s : State) : State :=
  if txLoadEnabled i s then
    s.modUart i fun u => { u with sh := .busy u.rb.TDR u.rb.format false, rb := u.rb.txLoaded }
  else s

/-- What TxFinish puts on the wire: the bits of an Unspecified value are drawn (42_transfer R181, R183, log 3). -/
def finishedFrame (n : Nat) (v : Option (BitVec 9)) (fmt : Format) (corrupt : Bool) : WireEntry :=
  if corrupt then .corrupt else frame (v.getD (Config.drawTx n)) fmt

/-- TxFinish (42_transfer R181). -/
def txFinish (i : Nat) (s : State) : State :=
  if s.par.clocked i then
    match (s.uart i).sh with
    | .idle => s
    | .busy v fmt c =>
      (s.modUart i fun u =>
        { u with wire := u.wire ++ [finishedFrame s.draws v fmt c], sh := .idle, rb := u.rb.txFinished }).useDraw
  else s

/-- A frame is available to UART `i` (42_transfer R182). -/
def frameAvailable (i : Nat) (s : State) : Bool :=
  match s.par.rxSource i with
  | .external => true
  | .loopback j => decide ((s.uart i).rxcur < (s.uart j).wire.length)

/-- RxFrame is enabled (42_transfer R182, 20_memory R69). -/
def rxFrameEnabled (i : Nat) (s : State) : Bool :=
  s.par.clocked i && decide ((s.uart i).rb.UE = 1) && decide ((s.uart i).rb.RE = 1) && frameAvailable i s

/-- A frame has the receiver's own format `format(rb[i])` (42_transfer R182). -/
def formatMatches (b : RegBlock) (nbits : Nat) (par : ParityMode) (stop : BitVec 2) (brr : BitVec 16) : Bool :=
  decide (nbits = b.format.nbits) && decide (par = parityOf b.PCE b.PS) && decide (stop = b.STOP) &&
    decide (brr = b.BRR)

/-- What arrives, `x`, `fe` and `pe`: draws, but for a looped-back frame of the receiver's format
(42_transfer R182, log 3). -/
def arrival (n : Nat) (b : RegBlock) : Option WireEntry → BitVec 9 × BitVec 1 × BitVec 1
  | some (.frame word nbits par stop brr) =>
    if formatMatches b nbits par stop brr then (word, 0, 0)
    else (Config.drawWord n, Config.drawFE n, Config.drawPE n)
  | some .corrupt => (Config.drawWord n, Config.drawFE n, Config.drawPE n)
  | none => (Config.drawWord n, Config.drawFE n, Config.drawPE n)

/-- The next frame of the loopback source, none when the source is external (42_transfer R182). -/
def nextFrame (i : Nat) (s : State) : Option WireEntry :=
  match s.par.rxSource i with
  | .external => none
  | .loopback j => (s.uart j).wire[(s.uart i).rxcur]?

/-- `rxcur` after a frame: a looped-back frame has been delivered (10_state R27, 42_transfer R182). -/
def nextCursor (i : Nat) (s : State) : Nat :=
  match s.par.rxSource i with
  | .external => (s.uart i).rxcur
  | .loopback _ => (s.uart i).rxcur + 1

/-- RxFrame (42_transfer R182). -/
def rxFrame (i : Nat) (s : State) : State :=
  if rxFrameEnabled i s then
    let x := arrival s.draws (s.uart i).rb (nextFrame i s)
    (s.modUart i fun u => { u with rb := u.rb.received x.1 x.2.1 x.2.2, rxcur := nextCursor i s }).useDraw
  else s

/-- The environment sets NE, IDLE, LBD and CTS of a clocked UART (10_state R22, log 8). -/
def lineFlags (i : Nat) (s : State) : State :=
  if s.par.clocked i then (s.modRb i fun b => b.lineFlags (Config.drawLine s.draws)).useDraw else s

end Sys2Proof.Machine
end

