-- ==== Sys2Proof/Machine/LineInit.lean ====
section
/-! DEFINITION. INITIALIZE: its acceptance and its micro-steps (41_line_init R130 to R136). -/

namespace Sys2Proof.Machine

/-- The register of micro-step k (41_line_init R132). -/
def initReg (k : Fin 8) : Reg :=
  match k with
  | 0 => .brr
  | 1 => .cr1
  | 2 => .cr1
  | 3 => .cr2
  | 4 => .cr3
  | 5 => .cr1
  | 6 => .cr1
  | 7 => .cr1

/-- The fields of micro-step k and the values written (41_line_init R132). -/
def initFields (k : Fin 8) (e : Enc) : List (Field × Word32) :=
  match k with
  | 0 => [(.BRR, e.brr.setWidth 32)]
  | 1 => [(.M, e.m.setWidth 32)]
  | 2 => [(.PCE, e.pce.setWidth 32), (.PS, e.ps.setWidth 32)]
  | 3 => [(.STOP, e.stop.setWidth 32)]
  | 4 => [(.RTSE, e.rtse.setWidth 32), (.CTSE, e.ctse.setWidth 32)]
  | 5 => [(.TE, 1)]
  | 6 => [(.RE, 1)]
  | 7 => [(.UE, 1)]

/-- One field of the word read, replaced as `P_FIELD_WRITE` says (41_line_init R133). -/
def replaceField (p : Params) (r : Word32) (x : Field × Word32) : Word32 :=
  match p.fieldWrite with
  | .assign => insertField p.layout x.1 x.2 r
  | .orOnly => insertField p.layout x.1 (extractField p.layout x.1 r ||| x.2) r

/-- The word `r'` that the write step of micro-step k writes (41_line_init R133). -/
def initWord (p : Params) (k : Fin 8) (e : Enc) (r : Word32) : Word32 :=
  (initFields k e).foldl (replaceField p) r

/-- After the write step of micro-step k (41_line_init R134). -/
def Seq.initAdvance (k : Fin 8) (q : Seq) : Seq :=
  if k = 7 then q.complete else { q with phase := .init (k + 1) none }

/-- The read step of micro-step k (41_line_init R133). -/
def initRead (a : Nat) (k : Fin 8) (s : State) : Out State :=
  (regRead (s.seq a).H (initReg k) s).andThen fun (v, t) =>
    .next (t.modSeq a fun q => { q with phase := .init k (some v) })

/-- The write step of micro-step k with the word to write (41_line_init R133, R134). -/
def initWrite (a : Nat) (k : Fin 8) (v : Word32) (s : State) : Out State :=
  (regWrite (s.seq a).H (initReg k) v s).andThen fun t => .next (t.modSeq a (Seq.initAdvance k))

/-- The agent's step in phase `Init(k, r)`: micro-step 0 is one write of BRR, always assigned; micro-steps 1
to 7 are a read step, then a write step (41_line_init R133). Micro-step 0 reads nothing, so `Init(0, r)` with a
word read is no phase of a run, and there the write is done all the same (log 12). -/
def initMicro (a : Nat) (k : Fin 8) (r : Option Word32) (s : State) : Out State :=
  if k = 0 then initWrite a 0 (placeField s.par.layout .BRR ((s.seq a).ENC.brr.setWidth 32)) s
  else match r with
    | none => initRead a k s
    | some v => initWrite a k (initWord s.par k (s.seq a).ENC v) s

/-- INITIALIZE: acceptance latches `CFG` and `ENC` and enters `Init(0, none)` (41_line_init R130, R131), then
the micro-steps. -/
def execInitLine (h : BitVec 2) (cfg : BitVec 9) (s : State) : Out State :=
  match activeSeq s with
  | none => .fault .noSequencerAgent
  | some a =>
    match (s.seq a).phase with
    | .idle =>
      .next (acceptCommand a (.initLine h cfg)
        (fun q => { q with CFG := cfg, ENC := enc s.par cfg (s.par.fclk h.toNat), phase := .init 0 none }) s)
    | .init k r => initMicro a k r s
    | .faulted => .next s
    | .txHold => .fault .phaseOfAnotherCommand
    | .txWrite => .fault .phaseOfAnotherCommand
    | .rxHold => .fault .phaseOfAnotherCommand
    | .rxRead => .fault .phaseOfAnotherCommand

end Sys2Proof.Machine
end

