-- ==== Sys2Proof/Machine/Resolver.lean ====
section
/-! DEFINITION. RESOLVE (40_resolver). -/

namespace Sys2Proof.Machine

/-- RESOLVE: one step, at acceptance (40_resolver R110). -/
def execResolve (sel : BitVec 2) (s : State) : Out State :=
  match activeSeq s with
  | none => .fault .noSequencerAgent
  | some a =>
    match (s.seq a).phase with
    | .idle =>
      .next (acceptCommand a (.resolve sel)
        (fun q => (q.append (.resolved sel (s.par.base sel.toNat))).complete) s)
    | .faulted => .next s
    | .init _ _ => .fault .phaseOfAnotherCommand
    | .txHold => .fault .phaseOfAnotherCommand
    | .txWrite => .fault .phaseOfAnotherCommand
    | .rxHold => .fault .phaseOfAnotherCommand
    | .rxRead => .fault .phaseOfAnotherCommand

end Sys2Proof.Machine
end

