-- ==== Sys2Proof/Machine/Transfer.lean ====
section
/-! DEFINITION. TRANSMIT and RECEIVE, the blocking transfers (42_transfer R160 to R169). -/

namespace Sys2Proof.Machine

/-- A poll of one flag: the SR read, and whether it returned the flag set (42_transfer R161, R166). -/
def pollFlag (h : BitVec 2) (f : Field) (s : State) : Out (Bool × State) :=
  (regRead h .sr s).andThen fun (v, t) => .next (decide (extractField s.par.layout f v = 1), t)

/-- A hold: the agent goes on to `ph` when the flag reads 1; else it "holds, changing nothing"
(42_transfer R161, R166). -/
def holdUntil (a : Nat) (f : Field) (ph : Phase) (s : State) : Out State :=
  (pollFlag (s.seq a).H f s).andThen fun (set, t) =>
    .next (if set then t.modSeq a (fun q => { q with phase := ph }) else s)

/-- TxHold (42_transfer R161). -/
def txHold (a : Nat) (s : State) : Out State := holdUntil a .TXE .txWrite s

/-- TxWrite (42_transfer R162). -/
def txWrite (a : Nat) (s : State) : Out State :=
  (regWrite (s.seq a).H .dr ((s.seq a).TXB.setWidth 32 <<< s.par.layout.drPos) s).andThen fun t =>
    .next (t.modSeq a Seq.complete)

/-- RxHold (42_transfer R166). -/
def rxHold (a : Nat) (s : State) : Out State := holdUntil a .RXNE .rxRead s

/-- RxRead: the low 8 bits of the word read go to `RES` (42_transfer R167). -/
def rxRead (a : Nat) (s : State) : Out State :=
  (regRead (s.seq a).H .dr s).andThen fun (v, t) =>
    .next (t.modSeq a fun q => (q.append (.byte ((v >>> s.par.layout.drPos).setWidth 8))).complete)

/-- TRANSMIT (42_transfer R160). -/
def execTransmit (h : BitVec 2) (byte : Byte) (s : State) : Out State :=
  match activeSeq s with
  | none => .fault .noSequencerAgent
  | some a =>
    match (s.seq a).phase with
    | .idle => .next (acceptCommand a (.transmit h byte) (fun q => { q with TXB := byte, phase := .txHold }) s)
    | .txHold => txHold a s
    | .txWrite => txWrite a s
    | .faulted => .next s
    | .init _ _ => .fault .phaseOfAnotherCommand
    | .rxHold => .fault .phaseOfAnotherCommand
    | .rxRead => .fault .phaseOfAnotherCommand

/-- RECEIVE (42_transfer R165). -/
def execReceive (h : BitVec 2) (s : State) : Out State :=
  match activeSeq s with
  | none => .fault .noSequencerAgent
  | some a =>
    match (s.seq a).phase with
    | .idle => .next (acceptCommand a (.receive h) (fun q => { q with phase := .rxHold }) s)
    | .rxHold => rxHold a s
    | .rxRead => rxRead a s
    | .faulted => .next s
    | .init _ _ => .fault .phaseOfAnotherCommand
    | .txHold => .fault .phaseOfAnotherCommand
    | .txWrite => .fault .phaseOfAnotherCommand

end Sys2Proof.Machine
end

