-- ==== Sys2Proof/Machine/Dispatch.lean ====
section
/-! DEFINITION. One step of a command: one arm per constructor of Instr (opcode_table.json). -/

namespace Sys2Proof.Machine

def exec (i : Instr) (s : State) : Host.Outcome State Fault Refusal :=
  match i with
  | .resolve sel => Sys2Proof.Machine.execResolve sel s
  | .initLine h cfg => Sys2Proof.Machine.execInitLine h cfg s
  | .transmit h byte => Sys2Proof.Machine.execTransmit h byte s
  | .receive h => Sys2Proof.Machine.execReceive h s

end Sys2Proof.Machine
end

