-- ==== Sys2Proof/Machine/Sequencer.lean ====
section
/-! DEFINITION. The sequencer agent's step: fetching the next command word (10_state R29, R30), and the
step of the phase the agent is in (10_state R28). -/

namespace Sys2Proof.Machine

/-- `prog[a]` (10_state R29). -/
def State.prog (s : State) (a : Nat) : List CmdWord := s.progs.getD a []

/-- `prog[a][next]`, when `next < length(prog[a])` (10_state R30). -/
def fetch (a : Nat) (s : State) : Option CmdWord := (s.prog a)[(s.seq a).next]?

/-- The acceptance step of a word: a word with a reserved bit set faults with code 1, any other runs as the
command it decodes to (60_exceptions R201 check 1, 10_state R30). -/
def acceptWord (a : Nat) (w : CmdWord) (s : State) : Out State :=
  match decode w with
  | .error .reservedBit => .next (raiseFault a w .reserved s)
  | .ok i => exec i s

/-- The step of agent `seq[a]`, whose turn it is. An agent that is done or `Faulted` has no step and nothing
changes (10_state R30, 60_exceptions R203, log 6). -/
def seqStep (a : Nat) (s : State) : Out State :=
  match (s.seq a).phase with
  | .idle =>
    match fetch a s with
    | none => .next s
    | some w => acceptWord a w s
  | .init k r => initMicro a k r s
  | .txHold => txHold a s
  | .txWrite => txWrite a s
  | .rxHold => rxHold a s
  | .rxRead => rxRead a s
  | .faulted => .next s

/-- The agent's step is enabled (10_state R30, 41_line_init R134, 42_transfer R161, R166, 60_exceptions R203). -/
def seqEnabled (a : Nat) (s : State) : Bool :=
  decide (a < s.seqs.length) &&
    match (s.seq a).phase with
    | .idle => (fetch a s).isSome
    | .init _ _ => true
    | .txHold => (Out.value (pollFlag (s.seq a).H .TXE s)).elim false (·.1)
    | .txWrite => true
    | .rxHold => (Out.value (pollFlag (s.seq a).H .RXNE s)).elim false (·.1)
    | .rxRead => true
    | .faulted => false

end Sys2Proof.Machine
end

