-- ==== Sys2Proof/Machine/Agents.lean ====
section
/-! DEFINITION. The move of the agent whose turn it is, the next turn, and how a command word is loaded. -/

namespace Sys2Proof.Machine

/-- One atomic transition of the agent whose turn it is (00_scope R11). A turn of no agent changes nothing
(log 6). -/
def runTurn (s : State) : Out State :=
  match s.turn with
  | .seq a => if a < s.seqs.length then seqStep a s else .next s
  | .txLoad i => .next (txLoad i s)
  | .txFinish i => .next (txFinish i s)
  | .rxFrame i => .next (rxFrame i s)
  | .lineFlags i => .next (lineFlags i s)

/-- Whose turn is next: the schedule's, and after it anyone's (00_scope R11, 60_exceptions R209, log 2). -/
def nextTurn (s : State) : State :=
  match s.sched with
  | m :: ms => { s with turn := m, sched := ms, clock := s.clock + 1 }
  | [] => { s with turn := Config.freeMove s.clock, clock := s.clock + 1 }

/-- The agent that a loaded word is for: the one whose turn it is, else agent 0. -/
def loadAgent (s : State) : Nat :=
  match s.turn with
  | .seq a => if a < s.seqs.length then a else 0
  | .txLoad _ => 0
  | .txFinish _ => 0
  | .rxFrame _ => 0
  | .lineFlags _ => 0

/-- A list with the entry at `n` replaced; a list that is too short is filled with `d` first. -/
def putAt {α : Type} (d x : α) : Nat → List α → List α
  | 0, [] => [x]
  | 0, _ :: l => x :: l
  | n + 1, [] => d :: putAt d x n []
  | n + 1, y :: l => y :: putAt d x n l

/-- A command word loaded where the agent fetches its next one, the agent idle and its turn (log 7). -/
def loadWord (s : State) (w : CmdWord) : State :=
  let a := loadAgent s
  { s with
    progs := putAt [] (putAt 0 w (s.seq a).next (s.prog a)) a s.progs
    seqs := putAt Seq.reset { s.seq a with phase := .idle } a s.seqs
    turn := .seq a }

end Sys2Proof.Machine
end

