-- ==== Sys2Proof/Machine/Step.lean ====
section
/-! DEFINITION. One step of the block: the move of the agent whose turn it is, then the next turn
(00_scope R11, log 2). -/

namespace Sys2Proof.Machine

/-- One step. -/
def step (s : State) : Host.Outcome State Fault Refusal :=
  (runTurn s).andThen fun t => .next (nextTurn t)

/-- The state with a command word placed where the next step fetches it (log 7). A word of the table is one
16-bit word, so `nbits` adds nothing (30_encoding R80). -/
def State.withFetchWord (s : State) (_nbits w : Nat) : State := loadWord s (BitVec.ofNat 16 w)

end Sys2Proof.Machine
end

