-- ==== Sys2Proof/Safety.lean ====
section
/-! DEFINITION. Enabled moves, the ends of a run (70_reset_and_hazards R247), the well-formed states, and
the states a run reaches under every interleaving (00_scope R11). -/

namespace Sys2Proof.Machine

/-- A move is enabled: an agent of the block can take it (10_state R30, 42_transfer R161, R166, R180 to R182). -/
def enabled (s : State) : Move → Bool
  | .seq a => seqEnabled a s
  | .txLoad i => txLoadEnabled i s
  | .txFinish i => s.par.clocked i && decide ((s.uart i).sh ≠ .idle)
  | .rxFrame i => rxFrameEnabled i s
  | .lineFlags i => s.par.clocked i

/-- A move of a sequencer or peripheral agent, not of the environment (00_scope R11). -/
def agentMove : Move → Bool
  | .seq _ => true
  | .txLoad _ => true
  | .txFinish _ => true
  | .rxFrame _ => true
  | .lineFlags _ => false

/-- "A sequencer agent is done" (70_reset_and_hazards R247). -/
def Done (s : State) (a : Nat) : Prop := (s.seq a).phase = .idle ∧ (s.seq a).next = (s.prog a).length

/-- "Every instance is quiescent" (70_reset_and_hazards R247). -/
def Quiescent (s : State) (i : Nat) : Prop :=
  (s.uart i).sh = .idle ∧ ((s.uart i).rb.TXE = 1 ∨ (s.uart i).rb.UE = 0 ∨ (s.uart i).rb.TE = 0)

/-- "A normal end of the run" (70_reset_and_hazards R247). -/
def NormalEnd (s : State) : Prop :=
  (∀ a < s.seqs.length, Done s a ∧ (s.seq a).FAULT = .ok) ∧ ∀ i < s.par.nInst, Quiescent s i

/-- "A faulted end" (70_reset_and_hazards R247). -/
def FaultedEnd (s : State) : Prop := ∃ a < s.seqs.length, (s.seq a).phase = .faulted

/-- "Stuck" (70_reset_and_hazards R247). -/
def Stuck (s : State) : Prop :=
  (∀ m, agentMove m = true → enabled s m = false) ∧ ∃ a < s.seqs.length, ¬ Done s a

/-- The acceptance checks of 60_exceptions R201 as it writes them, on the bits of the word. -/
def acceptanceCode (p : Params) (w : CmdWord) : FaultCode :=
  let op := w.extractLsb' 0 2
  if (op = 0b00 ∨ op = 0b11) ∧ w &&& 0xFFF0 ≠ 0 then .reserved
  else if op = 0b01 ∧ w &&& 0xE000 ≠ 0 then .reserved
  else if op = 0b10 ∧ w &&& 0xF000 ≠ 0 then .reserved
  else if p.nInst ≤ (w.extractLsb' 2 2).toNat then .badHandle
  else if op = 0b01 ∧ w.extractLsb' 6 2 = 0b11 then .badParity
  else if op = 0b01 ∧ ¬ (16 ≤ divisor (p.fclk (w.extractLsb' 2 2).toNat) (w.extractLsb' 4 9) ∧
      divisor (p.fclk (w.extractLsb' 2 2).toNat) (w.extractLsb' 4 9) ≤ 0xFFFF) then .brrRange
  else .ok

/-- A command is in progress. -/
def Phase.busy : Phase → Bool
  | .idle => false
  | .init _ _ => true
  | .txHold => true
  | .txWrite => true
  | .rxHold => true
  | .rxRead => true
  | .faulted => false

/-- A state whose parts fit together: the parameters are in R8's domains, there is one agent for each stream
and one UART for each record of parameters (10_state R20, 60_exceptions R214), an agent with a command in
progress names a UART that exists, and `FAULT` is set exactly in phase `Faulted` (60_exceptions R202, R203). -/
structure State.Wf (s : State) : Prop where
  params : s.par.wf = true
  agents : s.seqs.length = s.par.nAgents
  streams : s.progs.length = s.par.nAgents
  uarts : s.uarts.length = s.par.nInst
  handles : ∀ a < s.seqs.length, (s.seq a).phase.busy = true → (s.seq a).H.toNat < s.par.nInst
  faults : ∀ a < s.seqs.length, ((s.seq a).FAULT = .ok ↔ (s.seq a).phase ≠ .faulted)

/-- The state with the turn given to a move. -/
def State.withTurn (s : State) (m : Move) : State := { s with turn := m }

/-- The state with a schedule: `m` moves next, then `ms` in order (log 2). -/
def State.withSchedule (s : State) (m : Move) (ms : List Move) : State := { s with turn := m, sched := ms }

/-- One transition of the block, whoever moves (00_scope R11), also a move that is not enabled and changes nothing
(log 6) or the environment's. Steps of agents alone are AgentMoves. -/
def Moves (s t : State) : Prop := ∃ m, step (s.withTurn m) = .next t

/-- An enabled step of a sequencer or peripheral agent, a step of the spec's machine (00_scope R11). -/
def AgentMoves (s t : State) : Prop :=
  ∃ m, agentMove m = true ∧ enabled s m = true ∧ step (s.withTurn m) = .next t

/-- The environment sets the flags that are left to it (10_state R22, log 8). -/
def EnvMoves (s t : State) : Prop :=
  ∃ i, enabled s (.lineFlags i) = true ∧ step (s.withTurn (.lineFlags i)) = .next t

/-- One step of a run: an agent's enabled step, after any number of moves of the environment (log 22). -/
def RunStep (s t : State) : Prop := ∃ u, Relation.ReflTransGen EnvMoves s u ∧ AgentMoves u t

/-- "An infinite run is a hang" (70_reset_and_hazards R247): from `s` agents can step forever (log 22).
DESIGN CHOICE: a run need not stop at a normal end, so RxFrames of an external receiver past one make a hang, and a
state can be both a normal end and a hang; the spec does not say whether a run stops there (log 23). -/
def Hang (s : State) : Prop := ∃ r : Nat → State, r 0 = s ∧ ∀ n, RunStep (r n) (r (n + 1))

/-- The states of all runs from a launch, under every interleaving (00_scope R11). -/
inductive Reachable (p : Params) (progs : List (List CmdWord)) : State → Prop where
  | launch : Reachable p progs (State.launch p progs)
  | move {s t : State} : Reachable p progs s → Moves s t → Reachable p progs t

/-- The fields of 10_state R22, which no command writes, without the four that are left to the environment. -/
def unusedFields : List Field :=
  [.SBK, .RWU, .IDLEIE, .RXNEIE, .TCIE, .TXEIE, .PEIE, .WAKE,
   .ADD, .LBDL, .LBDIE, .LBCL, .CPHA, .CPOL, .CLKEN, .LINEN,
   .EIE, .IREN, .IRLP, .HDSEL, .NACK, .SCEN, .DMAR, .DMAT, .CTSIE, .PSC, .GT]

/-- The unused fields are 0, and so are they in a word read that waits to be written back (10_state R22,
41_line_init R133). -/
def UnusedZero (s : State) : Prop :=
  (∀ i < s.uarts.length, ∀ f ∈ unusedFields, (s.uart i).rb.get f = 0) ∧
  ∀ a < s.seqs.length, ∀ k r, (s.seq a).phase = .init k (some r) →
    ∀ f ∈ unusedFields, f ∈ (initReg k).fields → extractField s.par.layout f r = 0

/-- RDR is written wherever it can be read (70_reset_and_hazards R231). -/
def RdrWritten (s : State) : Prop :=
  (∀ i < s.uarts.length, (s.uart i).rb.RXNE = 1 → (s.uart i).rb.RDR.isSome = true) ∧
  ∀ a < s.seqs.length, (s.seq a).phase = .rxRead → (s.uart (s.seq a).H.toNat).rb.RDR.isSome = true

/-- TDR is written wherever it can be loaded, and no shift logic holds an unspecified value
(70_reset_and_hazards R231). -/
def TdrWritten (s : State) : Prop :=
  ∀ i < s.uarts.length, ((s.uart i).rb.TXE = 0 → (s.uart i).rb.TDR.isSome = true) ∧
    ∀ fmt c, (s.uart i).sh ≠ .busy none fmt c

/-- A single agent about to write DR finds the holding register empty (42_transfer R163). -/
def SingleAgentTxEmpty (s : State) : Prop :=
  s.seqs.length = 1 ∧
    ((s.seq 0).phase = .txWrite → s.par.clocked (s.seq 0).H.toNat = true ∧ (s.uart (s.seq 0).H.toNat).rb.TXE = 1)

/-- The command in progress, or the one that faulted, is the one `next` names, and `next` never runs past the
stream (10_state R28 to R31, 60_exceptions R202). -/
def CommandInStream (s : State) : Prop :=
  ∀ a < s.seqs.length, (s.seq a).next ≤ (s.prog a).length ∧
    ((s.seq a).phase ≠ .idle → fetch a s = some (s.seq a).CMD)

/-- The register block with the image of an INITIALIZE (41_line_init R137). -/
def RegBlock.image (b : RegBlock) (e : Enc) : RegBlock :=
  { b with
    BRR := e.brr
    M := e.m
    PCE := e.pce
    PS := e.ps
    STOP := e.stop
    RTSE := e.rtse
    CTSE := e.ctse
    TE := 1
    RE := 1
    UE := 1 }

/-- The register block after an INITIALIZE under `OrOnly`: "bits are only ever set, never cleared", but for
BRR, which is always assigned (41_line_init R133). -/
def RegBlock.orImage (b : RegBlock) (e : Enc) : RegBlock :=
  { b with
    BRR := e.brr
    M := b.M ||| e.m
    PCE := b.PCE ||| e.pce
    PS := b.PS ||| e.ps
    STOP := b.STOP ||| e.stop
    RTSE := b.RTSE ||| e.rtse
    CTSE := b.CTSE ||| e.ctse
    TE := 1
    RE := 1
    UE := 1 }

/-- The register block after an INITIALIZE, under either `P_FIELD_WRITE`. -/
def RegBlock.initImage (p : Params) (b : RegBlock) (e : Enc) : RegBlock :=
  match p.fieldWrite with
  | .assign => b.image e
  | .orOnly => b.orImage e

end Sys2Proof.Machine
end

