-- ==== Sys2Proof/Certificates/Slice0/Obligations.lean ====
section
/-! DEFINITION. The statements about the block, one def per statement, from the spec's numbered rules. -/

open Sys2Proof Sys2Proof.Machine

/-! ## Encoding -/

/-- The worked encodings of 30_encoding R94, encoded and decoded. -/
def Obligations.WorkedEncodings : Prop :=
  encode (.resolve 1) = 0x0004 ∧
  (LineConfig.mk .off .off .b9600 .one .bits8).pack = 0x000 ∧ encode (.initLine 0 0x000) = 0x0001 ∧
  (LineConfig.mk .rtsCts .odd .b115200 .two .bits9).pack = 0x15B ∧ encode (.initLine 1 0x15B) = 0x15B5 ∧
  encode (.transmit 0 0x41) = 0x0412 ∧ encode (.receive 2) = 0x000B ∧
  decode 0x0004 = .ok (.resolve 1) ∧ decode 0x0001 = .ok (.initLine 0 0x000) ∧
  decode 0x15B5 = .ok (.initLine 1 0x15B) ∧ decode 0x0412 = .ok (.transmit 0 0x41) ∧
  decode 0x000B = .ok (.receive 2)

/-- Every command decodes from its own word with every operand (30_encoding R81, R82). -/
def Obligations.DecodeEncodeRoundTrip : Prop := ∀ i : Instr, decode (encode i) = .ok i

/-- A word that decodes is the word of what it decodes to (30_encoding R81, R88). -/
def Obligations.EncodeDecodeRoundTrip : Prop := ∀ (w : CmdWord) (i : Instr), decode w = .ok i → encode i = w

/-- The opcode map of 30_encoding R88, and that a word matches its op's row or has a reserved bit set. -/
def Obligations.OpcodeMapDecides : Prop :=
  ∀ w : CmdWord,
    (∀ sel, decode w = .ok (.resolve sel) ↔ w &&& 0xFFF3 = 0x0000 ∧ sel = w.extractLsb' 2 2) ∧
    (∀ h cfg, decode w = .ok (.initLine h cfg) ↔
      w &&& 0xE003 = 0x0001 ∧ h = w.extractLsb' 2 2 ∧ cfg = w.extractLsb' 4 9) ∧
    (∀ h byte, decode w = .ok (.transmit h byte) ↔
      w &&& 0xF003 = 0x0002 ∧ h = w.extractLsb' 2 2 ∧ byte = w.extractLsb' 4 8) ∧
    (∀ h, decode w = .ok (.receive h) ↔ w &&& 0xFFF3 = 0x0003 ∧ h = w.extractLsb' 2 2) ∧
    ((∃ i, decode w = .ok i) ∨
      (decode w = .error .reservedBit ∧ w &&& 0xFFF3 ≠ 0x0000 ∧ w &&& 0xE003 ≠ 0x0001 ∧ w &&& 0xF003 ≠ 0x0002 ∧
        w &&& 0xFFF3 ≠ 0x0003))

/-- The packed Line Configuration holds every configuration, and every word but those with `PAR = 3` is one
(30_encoding R84 to R86). -/
def Obligations.ConfigPackUnpack : Prop :=
  (∀ c : LineConfig, LineConfig.unpack c.pack = some c) ∧
  (∀ cfg : BitVec 9, LineConfig.unpack cfg = none ↔ cfg.extractLsb' 2 2 = 3#2) ∧
  (∀ (cfg : BitVec 9) (c : LineConfig), LineConfig.unpack cfg = some c → c.pack = cfg)

/-- 384 of the 512 configuration words are legal; the other 128 are illegal, and they are those with `PAR = 3`
(30_encoding R87). -/
def Obligations.LegalConfigCount : Prop :=
  (List.range 512).countP (fun n => (LineConfig.unpack (BitVec.ofNat 9 n)).isSome) = 384 ∧
  (List.range 512).countP (fun n => (LineConfig.unpack (BitVec.ofNat 9 n)).isNone) = 128 ∧
  (List.range 512).countP (fun n => decide ((BitVec.ofNat 9 n).extractLsb' 2 2 = 3#2)) = 128 ∧
  ∀ cfg : BitVec 9, LineConfig.unpack cfg = none ↔ cfg.extractLsb' 2 2 = 3#2

/-! ## Acceptance and faults -/

/-- The checks of 60_exceptions R201, in its order and on the bits of the word: the first that fails gives the
code, and a word that passes all is accepted without a fault, with `CMD` and `H` written (10_state R30, 30_encoding
R82). That RESOLVE writes `CMD` too is the model's reading (log 16). -/
def Obligations.AcceptanceChecksInOrder : Prop :=
  ∀ (s : State) (a : Nat) (w : CmdWord), s.turn = .seq a → a < s.seqs.length → (s.seq a).phase = .idle →
    (acceptanceCode s.par w ≠ .ok → ∃ t, acceptWord a w s = .next t ∧ (t.seq a).FAULT = acceptanceCode s.par w) ∧
    (acceptanceCode s.par w = .ok →
      ∃ t, acceptWord a w s = .next t ∧ (t.seq a).FAULT = (s.seq a).FAULT ∧ (t.seq a).phase ≠ .faulted ∧
        (t.seq a).CMD = w ∧ (t.seq a).H = w.extractLsb' 2 2)

/-- Fault entry writes `CMD`, `FAULT` and `phase` of the agent "and nothing else", and no step faults an agent
that is inside a command (60_exceptions R202). -/
def Obligations.FaultEntryIsPrecise : Prop :=
  (∀ (s : State) (a : Nat) (w : CmdWord), s.turn = .seq a → a < s.seqs.length → (s.seq a).phase = .idle →
    acceptanceCode s.par w ≠ .ok →
    acceptWord a w s = .next { s with
      seqs := s.seqs.set a { s.seq a with CMD := w, FAULT := acceptanceCode s.par w, phase := .faulted } }) ∧
  ∀ (s t : State) (a : Nat), step s = .next t → (s.seq a).phase ≠ .idle →
    (t.seq a).FAULT = (s.seq a).FAULT ∧ ((t.seq a).phase = .faulted → (s.seq a).phase = .faulted)

/-- A faulted agent has no step, no step clears its fault, other agents are enabled as before, and the state
is no normal end (60_exceptions R203). -/
def Obligations.FaultIsSticky : Prop :=
  (∀ (s : State) (a : Nat), (s.seq a).phase = .faulted → seqEnabled a s = false) ∧
  (∀ (s t : State) (a : Nat), (s.seq a).phase = .faulted → step s = .next t → t.seq a = s.seq a) ∧
  (∀ (s : State) (a b : Nat) (w : CmdWord) (c : FaultCode), b ≠ a →
    seqEnabled b (raiseFault a w c s) = seqEnabled b s) ∧
  (∀ (s : State) (a : Nat), a < s.seqs.length → (s.seq a).phase = .faulted → ¬ NormalEnd s)

/-- exec stops by name where no step calls it: without an agent to run the command, and in a phase of a
command of another kind. The model's choice (log 11). -/
def Obligations.ExecOutsideItsCommandStops : Prop :=
  (∀ (s : State) (i : Instr), activeSeq s = none → exec i s = .fault .noSequencerAgent) ∧
  ∀ (s : State) (a : Nat), s.turn = .seq a → a < s.seqs.length →
    (∀ sel, (s.seq a).phase.busy = true → exec (.resolve sel) s = .fault .phaseOfAnotherCommand) ∧
    (∀ h cfg, (s.seq a).phase ∈ [.txHold, .txWrite, .rxHold, .rxRead] →
      exec (.initLine h cfg) s = .fault .phaseOfAnotherCommand) ∧
    (∀ h byte, (s.seq a).phase ∈ [.rxHold, .rxRead] ∨ (∃ k r, (s.seq a).phase = .init k r) →
      exec (.transmit h byte) s = .fault .phaseOfAnotherCommand) ∧
    (∀ h, (s.seq a).phase ∈ [.txHold, .txWrite] ∨ (∃ k r, (s.seq a).phase = .init k r) →
      exec (.receive h) s = .fault .phaseOfAnotherCommand)

/-! ## RESOLVE -/

/-- RESOLVE of a UART that exists completes in its acceptance step; the word's reserved bits and then its
selector are checked (40_resolver R110, 10_state R30). That it writes `CMD`, as R30 says and R110's pseudocode and
R112 do not, is the model's reading (log 16). -/
def Obligations.ResolveEffect : Prop :=
  ∀ (s : State) (a : Nat), s.turn = .seq a → a < s.seqs.length → (s.seq a).phase = .idle →
    (∀ sel : BitVec 2, sel.toNat < s.par.nInst →
      exec (.resolve sel) s = .next { s with
        seqs := s.seqs.set a { s.seq a with
          CMD := encode (.resolve sel)
          H := sel
          RES := (s.seq a).RES ++ [.resolved sel (s.par.base sel.toNat)]
          phase := .idle
          next := (s.seq a).next + 1 } }) ∧
    (∀ w : CmdWord, w.extractLsb' 0 2 = 0b00#2 → w &&& 0xFFF0 ≠ 0 →
      acceptWord a w s = .next (raiseFault a w .reserved s)) ∧
    (∀ sel : BitVec 2, s.par.nInst ≤ sel.toNat →
      exec (.resolve sel) s = .next (raiseFault a (encode (.resolve sel)) .badHandle s))

/-! ## INITIALIZE -/

/-- The encoder's outputs by enumerator, for every Line Configuration: the word length bit under both policies,
parity, stop bits in the reference profile (no identity), flow control, and the four rates
(41_line_init R121 to R123, R127, R128). -/
def Obligations.EncoderFollowsEnumerators : Prop :=
  (∀ (p : Params) (c : LineConfig) (fclk : Nat),
    ((enc p c.pack fclk).m = 1 ↔
      c.word = .bits9 ∨ (p.wlPolicy = .autoExtend ∧ c.parity ≠ .off)) ∧
    ((enc p c.pack fclk).pce = 1 ↔ c.parity ≠ .off) ∧
    ((enc p c.pack fclk).ps = 1 ↔ c.parity = .odd) ∧
    ((enc p c.pack fclk).rtse = 1 ↔ c.flow = .rts ∨ c.flow = .rtsCts) ∧
    ((enc p c.pack fclk).ctse = 1 ↔ c.flow = .cts ∨ c.flow = .rtsCts) ∧
    (p.layout = Layout.reference → (enc p c.pack fclk).stop =
      match c.stop with
      | .one => 0b00
      | .two => 0b10
      | .half => 0b01
      | .oneAndHalf => 0b11)) ∧
  baudRate 0 = 9600 ∧ baudRate 1 = 115200 ∧ baudRate 2 = 57600 ∧ baudRate 3 = 38400 ∧
  (∀ c d : BitVec 9, encStop Layout.reference c = encStop Layout.reference d → cfgStop c = cfgStop d) ∧
  ∃ c : BitVec 9, encStop Layout.reference c ≠ cfgStop c

/-- The divisor is the nearest natural to `fclk / baud`, ties upward (41_line_init R124): within half a baud
below, and not quite half a baud above. -/
def Obligations.DivisorRoundsHalfUp : Prop :=
  ∀ (fclk : Nat) (cfg : BitVec 9),
    2 * divisor fclk cfg * baudRate (cfgBaud cfg) ≤ 2 * fclk + baudRate (cfgBaud cfg) ∧
    2 * fclk < (2 * divisor fclk cfg + 1) * baudRate (cfgBaud cfg)

/-- The baud error bound (41_line_init R126). -/
def Obligations.BaudErrorBound : Prop :=
  ∀ (fclk : Nat) (cfg : BitVec 9), 0 < divisor fclk cfg →
    let brr : ℚ := divisor fclk cfg
    let baud : ℚ := baudRate (cfgBaud cfg)
    |(fclk : ℚ) / brr - baud| / baud ≤ 1 / (2 * brr) ∧
    (25 ≤ divisor fclk cfg → |(fclk : ℚ) / brr - baud| / baud ≤ 2 / 100) ∧
    (16 ≤ divisor fclk cfg → |(fclk : ℚ) / brr - baud| / baud ≤ 3125 / 100000)

/-- Acceptance of a legal INITIALIZE latches `CFG` and `ENC`, computed for the instance's clock, and enters
`Init(0, none)` (41_line_init R130, R131, 10_state R30). -/
def Obligations.InitAcceptance : Prop :=
  ∀ (s : State) (a : Nat) (h : BitVec 2) (cfg : BitVec 9), s.turn = .seq a → a < s.seqs.length →
    (s.seq a).phase = .idle → h.toNat < s.par.nInst → cfgPar cfg ≠ 3 →
    16 ≤ divisor (s.par.fclk h.toNat) cfg → divisor (s.par.fclk h.toNat) cfg ≤ 0xFFFF →
    exec (.initLine h cfg) s = .next { s with
      seqs := s.seqs.set a { s.seq a with
        CMD := encode (.initLine h cfg)
        H := h
        CFG := cfg
        ENC := enc s.par cfg (s.par.fclk h.toNat)
        phase := .init 0 none } }

/-- Micro-step 0 is one write that assigns BRR, under either `P_FIELD_WRITE` (41_line_init R132, R133), and marks
a frame in flight whose format it changes (42_transfer R184). On an unclocked UART the write is lost
(20_memory R69). -/
def Obligations.InitWritesBaudRate : Prop :=
  ∀ (s : State) (a : Nat) (h : BitVec 2) (cfg : BitVec 9), s.par.wf = true → s.turn = .seq a → a < s.seqs.length →
    (s.seq a).phase = .init 0 none → (s.seq a).H.toNat < s.par.nInst →
    exec (.initLine h cfg) s = .next
      ((if s.par.clocked (s.seq a).H.toNat then
          s.modUart (s.seq a).H.toNat fun u =>
            ({ u with rb := { u.rb with BRR := (s.seq a).ENC.brr } } : Uart).markCorrupt
        else s).modSeq a fun q => { q with phase := .init 1 none })

/-- The read step of micro-steps 1 to 7 latches the word of the micro-step's register and changes nothing else
(41_line_init R133); an unclocked UART reads 0 (20_memory R69). -/
def Obligations.InitReadsRegister : Prop :=
  ∀ (s : State) (a : Nat) (k : Fin 8) (h : BitVec 2) (cfg : BitVec 9), s.par.wf = true → s.turn = .seq a →
    a < s.seqs.length → k ≠ 0 → (s.seq a).phase = .init k none → (s.seq a).H.toNat < s.par.nInst →
    ∃ v, exec (.initLine h cfg) s = .next (s.modSeq a fun q => { q with phase := .init k (some v) }) ∧
      (s.par.clocked (s.seq a).H.toNat = false → v = 0) ∧
      (s.par.clocked (s.seq a).H.toNat = true → ∀ f ∈ (initReg k).fields,
        extractField s.par.layout f v = (s.uart (s.seq a).H.toNat).rb.get f)

/-- The write step of micro-steps 1 to 7: each listed field takes the encoded value under `Assign` and the OR with
it under `OrOnly`, the register's other fields take what was read, no other field, data register, wire log or
UART changes; a write of CR1 or CR2 marks a frame in flight whose format then differs, a write of CR3 leaves the
shift logic (42_transfer R184); then the next micro-step, or completion (41_line_init R132 to R134). On an unclocked
UART only the agent changes (20_memory R69). -/
def Obligations.InitWritesRegister : Prop :=
  ∀ (s : State) (a : Nat) (k : Fin 8) (r : Word32) (h : BitVec 2) (cfg : BitVec 9), s.Wf → s.turn = .seq a →
    a < s.seqs.length → k ≠ 0 → (s.seq a).phase = .init k (some r) →
    (s.par.clocked (s.seq a).H.toNat = false → exec (.initLine h cfg) s = .next { s with
      seqs := s.seqs.set a (if k = 7 then { s.seq a with phase := .idle, next := (s.seq a).next + 1 }
        else { s.seq a with phase := .init (k + 1) none }) }) ∧
    (s.par.clocked (s.seq a).H.toNat = true → ∃ t, exec (.initLine h cfg) s = .next t ∧
      (∀ f v, (f, v) ∈ initFields k (s.seq a).ENC →
        (t.uart (s.seq a).H.toNat).rb.get f =
          match s.par.fieldWrite with
          | .assign => v
          | .orOnly => extractField s.par.layout f r ||| v) ∧
      (∀ f ∈ (initReg k).fields, (∀ v, (f, v) ∉ initFields k (s.seq a).ENC) →
        (t.uart (s.seq a).H.toNat).rb.get f = extractField s.par.layout f r) ∧
      (∀ f ∉ (initReg k).fields, (t.uart (s.seq a).H.toNat).rb.get f = (s.uart (s.seq a).H.toNat).rb.get f) ∧
      (t.uart (s.seq a).H.toNat).rb.TDR = (s.uart (s.seq a).H.toNat).rb.TDR ∧
      (t.uart (s.seq a).H.toNat).rb.RDR = (s.uart (s.seq a).H.toNat).rb.RDR ∧
      (initReg k = .cr3 → (t.uart (s.seq a).H.toNat).sh = (s.uart (s.seq a).H.toNat).sh) ∧
      (initReg k ≠ .cr3 → (s.uart (s.seq a).H.toNat).sh = .idle → (t.uart (s.seq a).H.toNat).sh = .idle) ∧
      (initReg k ≠ .cr3 → ∀ v fmt c, (s.uart (s.seq a).H.toNat).sh = .busy v fmt c →
        (t.uart (s.seq a).H.toNat).sh =
          .busy v fmt (c || decide ((t.uart (s.seq a).H.toNat).rb.format ≠ fmt))) ∧
      (t.uart (s.seq a).H.toNat).wire = (s.uart (s.seq a).H.toNat).wire ∧
      (t.uart (s.seq a).H.toNat).rxcur = (s.uart (s.seq a).H.toNat).rxcur ∧
      (∀ i, i ≠ (s.seq a).H.toNat → t.uart i = s.uart i) ∧
      t.seqs = s.seqs.set a (if k = 7 then { s.seq a with phase := .idle, next := (s.seq a).next + 1 }
        else { s.seq a with phase := .init (k + 1) none }) ∧
      t.par = s.par ∧ t.progs = s.progs ∧ t.turn = s.turn ∧ t.sched = s.sched ∧ t.clock = s.clock ∧ t.draws = s.draws)

/-- An INITIALIZE takes one acceptance step and exactly 15 more of its agent, on a clocked or an unclocked UART, and
never holds: after step `n + 1` the agent is in micro-step `(n + 1) / 2`, between its read and its write when `n` is
even and not 0, and has an enabled step (41_line_init R134). -/
def Obligations.InitTakesFifteenSteps : Prop :=
  ∀ (s : State) (a : Nat) (h : BitVec 2) (cfg : BitVec 9), s.Wf → a < s.seqs.length → (s.seq a).phase = .idle →
    fetch a s = some (encode (.initLine h cfg)) → acceptFault s.par (.initLine h cfg) = .ok →
    (∀ n < 15, ∃ t, Host.Core.run Sys2Proof.core (n + 1) (s.withSchedule (.seq a) (List.replicate 15 (.seq a))) = .next t ∧
      seqEnabled a t = true ∧
      ∃ k r, (t.seq a).phase = .init k r ∧ k.val = (n + 1) / 2 ∧ (r.isSome = true ↔ n ≠ 0 ∧ n % 2 = 0)) ∧
    ∃ t, Host.Core.run Sys2Proof.core 16 (s.withSchedule (.seq a) (List.replicate 15 (.seq a))) = .next t ∧
      (t.seq a).phase = .idle ∧ (t.seq a).next = (s.seq a).next + 1 ∧ (t.seq a).FAULT = (s.seq a).FAULT

/-- The register image: after an INITIALIZE under `Assign` that no other agent's step interrupts, the block holds
the encoded fields, TE = RE = UE = 1, "and every other field as before"; under the reference profile the register
words are R137's. A frame in flight is marked if, after one of the writes of BRR, M, PCE and PS, or STOP, the format
differs from the frame's (42_transfer R184). Nothing else has changed but the agent and the scheduler's fields
(41_line_init R137). -/
def Obligations.InitRegisterImage : Prop :=
  ∀ (s : State) (a : Nat) (h : BitVec 2) (cfg : BitVec 9), s.Wf → a < s.seqs.length → (s.seq a).phase = .idle →
    fetch a s = some (encode (.initLine h cfg)) → acceptFault s.par (.initLine h cfg) = .ok →
    s.par.clocked h.toNat = true → s.par.fieldWrite = .assign →
    ∃ t, Host.Core.run Sys2Proof.core 16 (s.withSchedule (.seq a) (List.replicate 15 (.seq a))) = .next t ∧
      (t.uart h.toNat).rb = (s.uart h.toNat).rb.image (enc s.par cfg (s.par.fclk h.toNat)) ∧
      (t.uart h.toNat).wire = (s.uart h.toNat).wire ∧ (t.uart h.toNat).rxcur = (s.uart h.toNat).rxcur ∧
      (let e := enc s.par cfg (s.par.fclk h.toNat)
        let b := (s.uart h.toNat).rb
        ((s.uart h.toNat).sh = .idle → (t.uart h.toNat).sh = .idle) ∧
        ∀ v fmt c, (s.uart h.toNat).sh = .busy v fmt c →
          (t.uart h.toNat).sh = .busy v fmt (c || decide (
            (⟨b.M, b.PCE, b.PS, b.STOP, e.brr⟩ : Format) ≠ fmt ∨ (⟨e.m, b.PCE, b.PS, b.STOP, e.brr⟩ : Format) ≠ fmt ∨
            (⟨e.m, e.pce, e.ps, b.STOP, e.brr⟩ : Format) ≠ fmt ∨ (⟨e.m, e.pce, e.ps, e.stop, e.brr⟩ : Format) ≠ fmt))) ∧
      (∀ i, i ≠ h.toNat → t.uart i = s.uart i) ∧ t.uarts.length = s.uarts.length ∧
      t.par = s.par ∧ t.progs = s.progs ∧ t.draws = s.draws ∧ t.sched = [] ∧ t.clock = s.clock + 16 ∧
      t.seqs = s.seqs.set a { s.seq a with
        CMD := encode (.initLine h cfg)
        H := h
        CFG := cfg
        ENC := enc s.par cfg (s.par.fclk h.toNat)
        phase := .idle
        next := (s.seq a).next + 1 } ∧
      (s.par.layout = Layout.reference →
        let e := enc s.par cfg (s.par.fclk h.toNat)
        peekWord t h.toNat .brr = some (e.brr.setWidth 32) ∧
        (∀ w, peekWord s h.toNat .cr1 = some w → peekWord t h.toNat .cr1 =
          some ((w &&& ~~~(0x00001600 : Word32)) ||| (e.m.setWidth 32 <<< 12) ||| (e.pce.setWidth 32 <<< 10) |||
            (e.ps.setWidth 32 <<< 9) ||| 0x0000200C)) ∧
        (∀ w, peekWord s h.toNat .cr2 = some w → peekWord t h.toNat .cr2 =
          some ((w &&& ~~~(0x00003000 : Word32)) ||| (e.stop.setWidth 32 <<< 12))) ∧
        (∀ w, peekWord s h.toNat .cr3 = some w → peekWord t h.toNat .cr3 =
          some ((w &&& ~~~(0x00000300 : Word32)) ||| (e.ctse.setWidth 32 <<< 9) ||| (e.rtse.setWidth 32 <<< 8))))

/-- Two INITIALIZEs of one configuration in a row leave the register block as the first left it, under `Assign`
and under `OrOnly` (41_line_init R138). -/
def Obligations.InitIsIdempotent : Prop :=
  ∀ (s t u : State) (a : Nat) (h : BitVec 2) (cfg : BitVec 9), s.Wf → a < s.seqs.length → (s.seq a).phase = .idle →
    fetch a s = some (encode (.initLine h cfg)) → fetch a t = some (encode (.initLine h cfg)) →
    acceptFault s.par (.initLine h cfg) = .ok →
    Host.Core.run Sys2Proof.core 16 (s.withSchedule (.seq a) (List.replicate 15 (.seq a))) = .next t →
    Host.Core.run Sys2Proof.core 16 (t.withSchedule (.seq a) (List.replicate 15 (.seq a))) = .next u →
    (u.uart h.toNat).rb = (t.uart h.toNat).rb

/-- Every field of the configuration can be recovered from the register image that an INITIALIZE leaves under
`Assign`, with the exception that DOC documents (41_line_init R139). -/
def Obligations.FieldRecovery : Prop :=
  ∀ (p : Params) (b : RegBlock) (cfg : BitVec 9) (fclk : Nat), p.layout.wf = true → cfgPar cfg ≠ 3 →
    divisorOk fclk cfg = true →
    let b' := b.image (enc p cfg fclk)
    cfgFlow cfg = b'.CTSE ++ b'.RTSE ∧
    cfgPar cfg = (if b'.PCE = 0 then 0 else if b'.PS = 0 then 1 else 2) ∧
    (∀ c, encStop p.layout c = b'.STOP → cfgStop c = cfgStop cfg) ∧
    ((∀ c d, divisor fclk c = divisor fclk d → cfgBaud c = cfgBaud d) →
      ∀ c, divisor fclk c = b'.BRR.toNat → cfgBaud c = cfgBaud cfg) ∧
    (p.wlPolicy = .literal → cfgWl cfg = b'.M) ∧
    (p.wlPolicy = .autoExtend → cfgPar cfg = 0 → cfgWl cfg = b'.M) ∧
    (p.wlPolicy = .autoExtend → cfgPar cfg ≠ 0 → b'.M = 1)

/-! ## TRANSMIT and RECEIVE -/

/-- Acceptance of a TRANSMIT and of a RECEIVE (42_transfer R160, R165, 10_state R30). -/
def Obligations.TransferAcceptance : Prop :=
  ∀ (s : State) (a : Nat) (h : BitVec 2), s.turn = .seq a → a < s.seqs.length →
    (s.seq a).phase = .idle → h.toNat < s.par.nInst →
    (∀ byte : Byte, exec (.transmit h byte) s = .next { s with
      seqs := s.seqs.set a { s.seq a with
        CMD := encode (.transmit h byte)
        H := h
        TXB := byte
        phase := .txHold } }) ∧
    exec (.receive h) s = .next { s with
      seqs := s.seqs.set a { s.seq a with CMD := encode (.receive h), H := h, phase := .rxHold } }

/-- TxHold goes on when the SR read returns TXE = 1, else the agent holds and changes nothing; only a TxLoad of
that UART can lift the hold (42_transfer R161). -/
def Obligations.TransmitHoldsUntilEmpty : Prop :=
  (∀ (s : State) (a : Nat) (h : BitVec 2) (byte : Byte), s.par.wf = true → s.turn = .seq a → a < s.seqs.length →
    (s.seq a).phase = .txHold → (s.seq a).H.toNat < s.par.nInst →
    (seqEnabled a s = true ↔
      s.par.clocked (s.seq a).H.toNat = true ∧ (s.uart (s.seq a).H.toNat).rb.TXE = 1) ∧
    (seqEnabled a s = true → exec (.transmit h byte) s = .next { s with
      seqs := s.seqs.set a { s.seq a with phase := .txWrite } }) ∧
    (seqEnabled a s = false → exec (.transmit h byte) s = .next s)) ∧
  ∀ (s t : State) (i : Nat), s.par.wf = true → step s = .next t → (s.uart i).rb.TXE = 0 → (t.uart i).rb.TXE = 1 →
    s.turn = .txLoad i

/-- TxWrite puts the byte into TDR with bit 8 zero, clears TXE and TC, and completes the command, whatever the
shift logic does (42_transfer R162, 20_memory R66); to an unclocked UART the write is lost (20_memory R69). -/
def Obligations.TransmitWritesDataRegister : Prop :=
  ∀ (s : State) (a : Nat) (h : BitVec 2) (byte : Byte), s.par.wf = true → s.turn = .seq a → a < s.seqs.length →
    (s.seq a).phase = .txWrite → (s.seq a).H.toNat < s.par.nInst →
    exec (.transmit h byte) s = .next
      ((if s.par.clocked (s.seq a).H.toNat then
          s.modRb (s.seq a).H.toNat fun b =>
            { b with TDR := some (0#1 ++ (s.seq a).TXB : BitVec 9), TXE := 0, TC := 0 }
        else s).modSeq a fun q => { q with phase := .idle, next := q.next + 1 })

/-- RxHold goes on when the SR read returns RXNE = 1, else the agent holds and changes nothing; only an RxFrame of
that UART can lift the hold (42_transfer R166). -/
def Obligations.ReceiveHoldsUntilFull : Prop :=
  (∀ (s : State) (a : Nat) (h : BitVec 2), s.par.wf = true → s.turn = .seq a → a < s.seqs.length →
    (s.seq a).phase = .rxHold → (s.seq a).H.toNat < s.par.nInst →
    (seqEnabled a s = true ↔
      s.par.clocked (s.seq a).H.toNat = true ∧ (s.uart (s.seq a).H.toNat).rb.RXNE = 1) ∧
    (seqEnabled a s = true → exec (.receive h) s = .next { s with
      seqs := s.seqs.set a { s.seq a with phase := .rxRead } }) ∧
    (seqEnabled a s = false → exec (.receive h) s = .next s)) ∧
  ∀ (s t : State) (i : Nat), s.par.wf = true → step s = .next t → (s.uart i).rb.RXNE = 0 → (t.uart i).rb.RXNE = 1 →
    s.turn = .rxFrame i

/-- RxRead appends the low 8 bits of RDR, clears RXNE, ORE, FE and PE, and completes the command
(42_transfer R167, 20_memory R67). An unwritten RDR gives some byte (log 5), an unclocked UART gives 0
(20_memory R69). -/
def Obligations.ReceiveReadsDataRegister : Prop :=
  ∀ (s : State) (a : Nat) (h : BitVec 2), s.par.wf = true → s.turn = .seq a → a < s.seqs.length →
    (s.seq a).phase = .rxRead → (s.seq a).H.toNat < s.par.nInst →
    (∀ v : BitVec 9, s.par.clocked (s.seq a).H.toNat = true → (s.uart (s.seq a).H.toNat).rb.RDR = some v →
      exec (.receive h) s = .next
        ((s.modRb (s.seq a).H.toNat fun b => { b with RXNE := 0, ORE := 0, FE := 0, PE := 0 }).modSeq a fun q =>
          { q with RES := q.RES ++ [.byte (v.extractLsb' 0 8)], phase := .idle, next := q.next + 1 })) ∧
    (s.par.clocked (s.seq a).H.toNat = true → (s.uart (s.seq a).H.toNat).rb.RDR = none →
      ∃ x n, exec (.receive h) s = .next
        { (s.modRb (s.seq a).H.toNat fun b => { b with RXNE := 0, ORE := 0, FE := 0, PE := 0 }).modSeq a fun q =>
            { q with RES := q.RES ++ [.byte x], phase := .idle, next := q.next + 1 } with draws := n }) ∧
    (s.par.clocked (s.seq a).H.toNat = false →
      exec (.receive h) s = .next (s.modSeq a fun q =>
        { q with RES := q.RES ++ [.byte 0], phase := .idle, next := q.next + 1 }))

/-! ## The peripheral agent -/

/-- TxLoad: when it is enabled and what it does; an unwritten TDR is loaded as Unspecified (42_transfer R180). -/
def Obligations.TxLoadEffect : Prop :=
  ∀ (s : State) (i : Nat),
    (enabled s (.txLoad i) = true ↔
      s.par.clocked i = true ∧ (s.uart i).rb.UE = 1 ∧ (s.uart i).rb.TE = 1 ∧ (s.uart i).rb.TXE = 0 ∧
      (s.uart i).sh = .idle) ∧
    (s.turn = .txLoad i → enabled s (.txLoad i) = true →
      step s = .next (nextTurn (s.modUart i fun u =>
        { u with
          sh := .busy u.rb.TDR ⟨u.rb.M, u.rb.PCE, u.rb.PS, u.rb.STOP, u.rb.BRR⟩ false
          rb := { u.rb with TXE := 1 } })))

/-- TxFinish is enabled exactly if the shift logic of a clocked UART is busy: the frame, or `Corrupt`, goes on the wire, the shift logic is
idle, and TC is set if TXE = 1 (42_transfer R181). The bits of an Unspecified value are free (R183). -/
def Obligations.TxFinishEffect : Prop :=
  (∀ (s : State) (i : Nat), enabled s (.txFinish i) = true ↔
    s.par.clocked i = true ∧ ∃ v fmt c, (s.uart i).sh = .busy v fmt c) ∧
  ∀ (s : State) (i : Nat) (v : Option (BitVec 9)) (fmt : Format) (c : Bool), s.turn = .txFinish i → s.Wf →
    s.par.clocked i = true → (s.uart i).sh = .busy v fmt c →
    ∃ t e, step s = .next t ∧ (t.uart i).wire = (s.uart i).wire ++ [e] ∧
      (c = true → e = .corrupt) ∧
      (c = false → ∀ x, v = some x → e = frame x fmt) ∧
      (c = false → ∃ x, e = frame x fmt) ∧
      (t.uart i).sh = .idle ∧ (t.uart i).rxcur = (s.uart i).rxcur ∧
      (t.uart i).rb = (if (s.uart i).rb.TXE = 1 then { (s.uart i).rb with TC := 1 } else (s.uart i).rb) ∧
      (∀ j, j ≠ i → t.uart j = s.uart j) ∧ t.seqs = s.seqs

/-- RxFrame: when it is enabled, and what it does (42_transfer R182). A looped-back frame of the receiver's format arrives as it is and without error
flags, any other frame arrives as some value with some flags; RDR, RXNE, FE and PE are set if RXNE = 0, else only
ORE is; the loopback cursor counts. -/
def Obligations.RxFrameEffect : Prop :=
  (∀ (s : State) (i : Nat), enabled s (.rxFrame i) = true ↔
    s.par.clocked i = true ∧ (s.uart i).rb.UE = 1 ∧ (s.uart i).rb.RE = 1 ∧
    (s.par.rxSource i = .external ∨
      ∃ j, s.par.rxSource i = .loopback j ∧ (s.uart i).rxcur < (s.uart j).wire.length)) ∧
  ∀ (s : State) (i : Nat), s.Wf → s.turn = .rxFrame i → enabled s (.rxFrame i) = true →
    ∃ t x fe pe, step s = .next t ∧
      (t.uart i).rb = (if (s.uart i).rb.RXNE = 0 then
          { (s.uart i).rb with RDR := some x, RXNE := 1, FE := fe, PE := pe }
        else { (s.uart i).rb with ORE := 1 }) ∧
      (∀ j, s.par.rxSource i = .loopback j →
        ∀ word, (s.uart j).wire[(s.uart i).rxcur]? = some (.frame word (8 + (s.uart i).rb.M.toNat)
            (parityOf (s.uart i).rb.PCE (s.uart i).rb.PS) (s.uart i).rb.STOP (s.uart i).rb.BRR) →
          x = word ∧ fe = 0 ∧ pe = 0) ∧
      (t.uart i).rxcur = (match s.par.rxSource i with
        | .external => (s.uart i).rxcur
        | .loopback _ => (s.uart i).rxcur + 1) ∧
      (t.uart i).sh = (s.uart i).sh ∧ (t.uart i).wire = (s.uart i).wire ∧
      (∀ j, j ≠ i → t.uart j = s.uart j) ∧ t.seqs = s.seqs

/-- What a frame holds (42_transfer R183): without parity the low `L = 8 + M` bits of the value; with parity the
low `L - 1` bits and, on top, the bit that makes the number of ones even (PS = 0) or odd (PS = 1). The frame carries
these bits, `L`, the parity mode (R182: off, even, odd), STOP and BRR. -/
def Obligations.FrameContents : Prop :=
  ∀ (v : BitVec 9) (fmt : Format),
    (fmt.PCE = 0 → ∀ b, (frameWord v fmt).getLsbD b = (v.getLsbD b && decide (b < 8 + fmt.M.toNat))) ∧
    (fmt.PCE = 1 →
      (∀ b < 7 + fmt.M.toNat, (frameWord v fmt).getLsbD b = v.getLsbD b) ∧
      (∀ b, 8 + fmt.M.toNat ≤ b → (frameWord v fmt).getLsbD b = false) ∧
      popcount 9 (frameWord v fmt).toNat % 2 = fmt.PS.toNat) ∧
    ∃ mode, frame v fmt = .frame (frameWord v fmt) (8 + fmt.M.toNat) mode fmt.STOP fmt.BRR ∧
      mode = parityOf fmt.PCE fmt.PS ∧ (mode = .off ↔ fmt.PCE = 0) ∧ (mode = .even ↔ fmt.PCE = 1 ∧ fmt.PS = 0) ∧
      (mode = .odd ↔ fmt.PCE = 1 ∧ fmt.PS = 1)

/-- A write of BRR, CR1 or CR2 of a UART with a frame in flight marks the frame corrupt exactly if a format field
then differs from the frame's; a write of CR3, GTPR or DR leaves the shift logic alone; no control write touches
TDR; a marked frame goes on the wire as `Corrupt` (42_transfer R184). -/
def Obligations.CorruptMark : Prop :=
  (∀ (s t : State) (h : BitVec 2) (r : Reg) (x : Word32) (v : Option (BitVec 9)) (fmt : Format) (c : Bool), s.Wf →
    h.toNat < s.par.nInst → s.par.clocked h.toNat = true → (s.uart h.toNat).sh = .busy v fmt c →
    regWrite h r x s = .next t →
    (r ∈ [Reg.brr, Reg.cr1, Reg.cr2] →
      (t.uart h.toNat).sh = .busy v fmt (c || decide (((t.uart h.toNat).rb.M, (t.uart h.toNat).rb.PCE,
        (t.uart h.toNat).rb.PS, (t.uart h.toNat).rb.STOP, (t.uart h.toNat).rb.BRR) ≠
          (fmt.M, fmt.PCE, fmt.PS, fmt.STOP, fmt.BRR)))) ∧
    (r ∈ [Reg.cr3, Reg.gtpr, Reg.dr] → (t.uart h.toNat).sh = (s.uart h.toNat).sh) ∧
    (r ≠ .dr → (t.uart h.toNat).rb.TDR = (s.uart h.toNat).rb.TDR)) ∧
  ∀ (s : State) (i : Nat) (v : Option (BitVec 9)) (fmt : Format), s.Wf → s.par.clocked i = true →
    (s.uart i).sh = .busy v fmt true →
    ((txFinish i s).uart i).wire = (s.uart i).wire ++ [.corrupt]

/-- A TRANSMIT and the RECEIVE after it, with the peripheral's three steps between them, return the low 8 bits of
the line word of the byte (42_transfer R188, one round). -/
def Obligations.TransmittedByteIsReceived : Prop :=
  ∀ (s : State) (a : Nat) (h g : BitVec 2) (byte : Byte), s.Wf → a < s.seqs.length → (s.seq a).phase = .idle →
    (s.prog a)[(s.seq a).next]? = some (encode (.transmit h byte)) →
    (s.prog a)[(s.seq a).next + 1]? = some (encode (.receive g)) →
    s.par.clocked h.toNat = true → s.par.clocked g.toNat = true → s.par.rxSource g.toNat = .loopback h.toNat →
    (s.uart h.toNat).rb.UE = 1 → (s.uart h.toNat).rb.TE = 1 → (s.uart h.toNat).rb.TXE = 1 →
    (s.uart h.toNat).sh = .idle → (s.uart g.toNat).rb.UE = 1 → (s.uart g.toNat).rb.RE = 1 →
    (s.uart g.toNat).rb.RXNE = 0 → (s.uart g.toNat).rxcur = (s.uart h.toNat).wire.length →
    (s.uart g.toNat).rb.format = (s.uart h.toNat).rb.format →
    ∃ t, Host.Core.run Sys2Proof.core 9 (s.withSchedule (.seq a) [.seq a, .seq a, .txLoad h.toNat,
        .txFinish h.toNat, .rxFrame g.toNat, .seq a, .seq a, .seq a]) = .next t ∧
      (t.seq a).RES = (s.seq a).RES ++
        [.byte ((frameWord (0#1 ++ byte : BitVec 9) (s.uart h.toNat).rb.format).extractLsb' 0 8)] ∧
      (t.seq a).next = (s.seq a).next + 2 ∧ (t.seq a).phase = .idle ∧ (t.seq a).FAULT = (s.seq a).FAULT ∧
      (t.uart g.toNat).rb.RXNE = 0

/-- A step at another's turn changes nothing of an agent, and the peripheral agent writes no control field
(10_state R21, R28). The environment's move sets NE, IDLE, LBD and CTS of a clocked UART to some values and changes
nothing else, and nothing at all of an unclocked UART: the model's form of R22 (log 8, log 6). -/
def Obligations.OtherMovesKeepControl : Prop :=
  (∀ (s : State) (i : Nat), s.turn = .lineFlags i →
    (s.par.clocked i = true → ∃ ne idle lbd cts, step s = .next (nextTurn
      { (s.modRb i fun b => { b with NE := ne, IDLE := idle, LBD := lbd, CTS := cts }) with draws := s.draws + 1 })) ∧
    (s.par.clocked i = false → step s = .next (nextTurn s))) ∧
  ∀ (s t : State) (a : Nat), step s = .next t → s.turn ≠ .seq a → (t.seq a) = (s.seq a) ∧
    ∀ i, (∀ b, s.turn ≠ .seq b) → ∀ f, f ∉ Reg.sr.fields → (t.uart i).rb.get f = (s.uart i).rb.get f

/-! ## The bus -/

/-- The address `P_BASE(i) + off` of a register is that register's and no other's (20_memory R60, R61). -/
def Obligations.AddressMapIsOneToOne : Prop :=
  ∀ (p : Params), p.wf = true →
    (∀ i r, i < p.nInst → locate p (regAddr p i r) = some (i, r)) ∧
    ∀ addr i r, locate p addr = some (i, r) → i < p.nInst ∧ addr = regAddr p i r

/-- An access that is not a 32-bit access to the aligned address of a register is refused (20_memory R70). -/
def Obligations.OddAccessesRefused : Prop :=
  ∀ (s : State) (addr v : Word32) (n : Nat),
    (n ≠ 4 → memRead addr n s = .refused .accessWidth ∧ memWrite addr n v s = .refused .accessWidth) ∧
    (addr.toNat % 4 ≠ 0 →
      memRead addr 4 s = .refused .accessMisaligned ∧ memWrite addr 4 v s = .refused .accessMisaligned) ∧
    (addr.toNat % 4 = 0 → locate s.par addr = none →
      memRead addr 4 s = .refused .accessOutsideWindows ∧ memWrite addr 4 v s = .refused .accessOutsideWindows)

/-- Accesses other than to DR (20_memory R68): a read has no side effect and returns the fields, reserved bits 0; a
write of BRR, CR1, CR2, CR3 or GTPR sets exactly the fields the written bits hold and has no other effect but the
corrupt mark; SR is never written. That a write of SR is refused is the model's choice (log 10). -/
def Obligations.ControlAccesses : Prop :=
  ∀ (s : State) (h : BitVec 2), s.Wf → h.toNat < s.par.nInst → s.par.clocked h.toNat = true →
    (∀ r, r ≠ .dr → ∃ v, regRead h r s = .next (v, s) ∧
      (∀ f ∈ r.fields, extractField s.par.layout f v = (s.uart h.toNat).rb.get f) ∧
      ∀ k, (∀ f ∈ r.fields, ¬ (s.par.layout.lo f ≤ k ∧ k < s.par.layout.lo f + f.width)) → v.getLsbD k = false) ∧
    (∀ r x, r ∈ [Reg.brr, Reg.cr1, Reg.cr2, Reg.cr3, Reg.gtpr] → ∃ t, regWrite h r x s = .next t ∧
      (∀ f ∈ r.fields, (t.uart h.toNat).rb.get f = extractField s.par.layout f x) ∧
      (∀ f ∉ r.fields, (t.uart h.toNat).rb.get f = (s.uart h.toNat).rb.get f) ∧
      (t.uart h.toNat).rb.TDR = (s.uart h.toNat).rb.TDR ∧ (t.uart h.toNat).rb.RDR = (s.uart h.toNat).rb.RDR ∧
      ((t.uart h.toNat).sh = (s.uart h.toNat).sh ∨
        ∃ v fmt c, (s.uart h.toNat).sh = .busy v fmt c ∧ (t.uart h.toNat).sh = .busy v fmt true) ∧
      (t.uart h.toNat).wire = (s.uart h.toNat).wire ∧ (t.uart h.toNat).rxcur = (s.uart h.toNat).rxcur ∧
      (∀ i, i ≠ h.toNat → t.uart i = s.uart i) ∧ t.seqs = s.seqs) ∧
    ∀ x, regWrite h .sr x s = .refused .statusWrite

/-- The data register (20_memory R66, R67): a write stores `v[8:0]` into TDR and clears TXE and TC, also when TXE = 0;
a read returns RDR and clears RXNE, ORE, FE and PE. -/
def Obligations.DataAccesses : Prop :=
  ∀ (s : State) (h : BitVec 2) (x : Word32), s.par.wf = true → s.par.layout = Layout.reference →
    h.toNat < s.par.nInst → s.par.clocked h.toNat = true →
    regWrite h .dr x s = .next (s.modRb h.toNat fun b =>
      { b with TDR := some (x.extractLsb' 0 9), TXE := 0, TC := 0 }) ∧
    ∀ v, (s.uart h.toNat).rb.RDR = some v →
      regRead h .dr s = .next (v.setWidth 32, s.modRb h.toNat fun b => { b with RXNE := 0, ORE := 0, FE := 0, PE := 0 })

/-- An unclocked UART (20_memory R69): reads return 0, writes are ignored, its peripheral agent has no step, and a
TRANSMIT or RECEIVE that waits on it waits forever. -/
def Obligations.UnclockedReadsZero : Prop :=
  (∀ (s : State) (h : BitVec 2) (r : Reg) (x : Word32), s.par.wf = true → h.toNat < s.par.nInst →
    s.par.clocked h.toNat = false → regRead h r s = .next (0, s) ∧ regWrite h r x s = .next s) ∧
  (∀ (s : State) (i : Nat), s.par.clocked i = false →
    enabled s (.txLoad i) = false ∧ enabled s (.txFinish i) = false ∧ enabled s (.rxFrame i) = false) ∧
  ∀ (n : Nat) (s t : State) (a : Nat), s.Wf → a < s.seqs.length → s.par.clocked (s.seq a).H.toNat = false →
    ((s.seq a).phase = .txHold ∨ (s.seq a).phase = .rxHold) → Host.Core.run Sys2Proof.core n s = .next t →
    t.seq a = s.seq a

/-- A step of a command that stores nothing, or that reads a register other than DR, leaves every byte of the
address space as it was, and every UART (20_memory R68). -/
def Obligations.NonStoringStepsKeepEveryByte : Prop :=
  ∀ (s t : State) (a : Nat) (i : Instr), s.par.wf = true → s.turn = .seq a → a < s.seqs.length →
    ((s.seq a).phase = .idle ∨ (s.seq a).phase = .txHold ∨ (s.seq a).phase = .rxHold ∨ (s.seq a).phase = .faulted ∨
      ∃ k, k ≠ 0 ∧ (s.seq a).phase = .init k none) →
    exec i s = .next t → t.uarts = s.uarts ∧ ∀ addr, peekByte t addr = peekByte s addr

/-- A step of a command that writes a register leaves every byte outside that register as it was; a DR access also
changes the flags in SR (20_memory R66 to R68). -/
def Obligations.StoringStepsKeepOtherBytes : Prop :=
  ∀ (s t : State) (a : Nat) (i : Instr), s.Wf → s.turn = .seq a → a < s.seqs.length → exec i s = .next t →
    (∀ k r, (s.seq a).phase = .init k r → (k = 0 ∨ r ≠ none) →
      ∀ addr : Word32,
        ¬ ((regAddr s.par (s.seq a).H.toNat (initReg k)).toNat ≤ addr.toNat ∧
          addr.toNat < (regAddr s.par (s.seq a).H.toNat (initReg k)).toNat + 4) →
        peekByte t addr = peekByte s addr) ∧
    (((s.seq a).phase = .txWrite ∨ (s.seq a).phase = .rxRead) →
      ∀ addr : Word32,
        ¬ ((regAddr s.par (s.seq a).H.toNat .dr).toNat ≤ addr.toNat ∧
          addr.toNat < (regAddr s.par (s.seq a).H.toNat .dr).toNat + 4) →
        ¬ ((regAddr s.par (s.seq a).H.toNat .sr).toNat ≤ addr.toNat ∧
          addr.toNat < (regAddr s.par (s.seq a).H.toNat .sr).toNat + 4) →
        peekByte t addr = peekByte s addr)

/-! ## The step -/

/-- A step at an idle agent's turn is exec of the command that the fetched word decodes to, then the next turn; a
word with a reserved bit faults (10_state R30, 60_exceptions R201). -/
def Obligations.StepRunsDecodedCommand : Prop :=
  (∀ (s : State) (a : Nat) (w : CmdWord) (i : Instr), s.turn = .seq a → a < s.seqs.length → (s.seq a).phase = .idle →
    (s.prog a)[(s.seq a).next]? = some w → decode w = .ok i →
    step s = Out.andThen (exec i s) fun t => .next (nextTurn t)) ∧
  (∀ (s : State) (a : Nat) (w : CmdWord), s.turn = .seq a → a < s.seqs.length → (s.seq a).phase = .idle →
    (s.prog a)[(s.seq a).next]? = some w → decode w = .error .reservedBit →
    step s = .next (nextTurn (raiseFault a w .reserved s))) ∧
  (∀ (t : State) (m : Move) (ms : List Move), t.sched = m :: ms →
    nextTurn t = { t with turn := m, sched := ms, clock := t.clock + 1 }) ∧
  (∀ t : State, t.sched = [] → ∃ m, nextTurn t = { t with turn := m, clock := t.clock + 1 })

/-- A step at the turn of an agent inside a command is exec of any command of that kind, which reads the agent's
latches, then the next turn (10_state R28). -/
def Obligations.StepContinuesCommand : Prop :=
  ∀ (s : State) (a : Nat), s.turn = .seq a → a < s.seqs.length →
    (∀ k r h cfg, (s.seq a).phase = .init k r →
      step s = Out.andThen (exec (.initLine h cfg) s) fun t => .next (nextTurn t)) ∧
    (∀ h byte, (s.seq a).phase = .txHold ∨ (s.seq a).phase = .txWrite →
      step s = Out.andThen (exec (.transmit h byte) s) fun t => .next (nextTurn t)) ∧
    (∀ h, (s.seq a).phase = .rxHold ∨ (s.seq a).phase = .rxRead →
      step s = Out.andThen (exec (.receive h) s) fun t => .next (nextTurn t))

/-- A move that is not enabled changes nothing but the turn: the model's choice (log 6). -/
def Obligations.DisabledMovesChangeNothing : Prop :=
  ∀ s : State, s.Wf → enabled s s.turn = false → step s = .next (nextTurn s)

/-- No step changes a parameter or a command stream (10_state R29). -/
def Obligations.StreamsAreConfiguration : Prop :=
  ∀ s t : State, step s = .next t → t.progs = s.progs ∧ t.par = s.par

/-- `next` advances by exactly 1, in the step that ends a command and leaves the agent idle, and never else; a
command that ends in a fault leaves it (10_state R31). -/
def Obligations.NextAdvancesAtCompletion : Prop :=
  ∀ (s t : State) (a : Nat), s.Wf → step s = .next t →
    ((t.seq a).next = (s.seq a).next ∨
      ((t.seq a).next = (s.seq a).next + 1 ∧ (t.seq a).phase = .idle ∧ s.turn = .seq a)) ∧
    (t.seq a ≠ s.seq a → (t.seq a).phase = .idle → (t.seq a).next = (s.seq a).next + 1) ∧
    ((t.seq a).phase = .faulted → (t.seq a).next = (s.seq a).next)

/-- Result logs and wire logs only grow, a result log by one entry at the agent's own step (10_state R26, R28). -/
def Obligations.LogsOnlyGrow : Prop :=
  ∀ s t : State, step s = .next t →
    (∀ a, (t.seq a).RES = (s.seq a).RES ∨ ∃ x, s.turn = .seq a ∧ (t.seq a).RES = (s.seq a).RES ++ [x]) ∧
    (∀ i, (t.uart i).wire = (s.uart i).wire ∨ ∃ e, s.turn = .txFinish i ∧ (t.uart i).wire = (s.uart i).wire ++ [e])

/-! ## Reset and invariants -/

/-- What reset leaves, for every launch, and the register words in the reference profile (70_reset_and_hazards R230, but
for the latches that it leaves unwritten, whose value is the model's choice, log 4; 20_memory R61). -/
def Obligations.ResetState : Prop :=
  ∀ (p : Params) (progs : List (List CmdWord)),
    (∀ i < p.nInst,
      (∀ f, ((State.launch p progs).uart i).rb.get f =
        if f = .TXE then p.txeReset.setWidth 32 else if f = .TC then 1 else 0) ∧
      ((State.launch p progs).uart i).rb.TDR = none ∧ ((State.launch p progs).uart i).rb.RDR = none ∧
      ((State.launch p progs).uart i).sh = .idle ∧ ((State.launch p progs).uart i).wire = [] ∧
      ((State.launch p progs).uart i).rxcur = 0) ∧
    (∀ a < p.nAgents,
      ((State.launch p progs).seq a).phase = .idle ∧ ((State.launch p progs).seq a).FAULT = .ok ∧
      ((State.launch p progs).seq a).next = 0 ∧ ((State.launch p progs).seq a).RES = []) ∧
    (State.launch p progs).seqs.length = p.nAgents ∧ (State.launch p progs).uarts.length = p.nInst ∧
    ∀ i, p.layout = Layout.reference → p.clocked i = true →
      peekWord (State.launch p progs) i .sr = some (if p.txeReset = 1 then 0xC0 else 0x40) ∧
      peekWord (State.launch p progs) i .dr = none ∧
      ∀ r ∈ [Reg.brr, Reg.cr1, Reg.cr2, Reg.cr3, Reg.gtpr], peekWord (State.launch p progs) i r = some 0

/-- Every launch in R8's domains starts in the invariants below. -/
def Obligations.LaunchMeetsInvariants : Prop :=
  ∀ (p : Params) (progs : List (List CmdWord)), p.wf = true → progs.length = p.nAgents →
    (State.launch p progs).Wf ∧ UnusedZero (State.launch p progs) ∧ RdrWritten (State.launch p progs) ∧
    CommandInStream (State.launch p progs) ∧
    (p.txeReset = 1 → TdrWritten (State.launch p progs)) ∧
    (p.nAgents = 1 → SingleAgentTxEmpty (State.launch p progs))

/-- A step keeps the state well formed: the parts fit together, a command in progress names a UART that exists,
and `FAULT` is set exactly in phase `Faulted` (10_state R20, 60_exceptions R202, R203, R214). -/
def Obligations.StepKeepsWellFormed : Prop := ∀ s t : State, s.Wf → step s = .next t → t.Wf

/-- The block never stops: from every well-formed state, whoever's turn it is, the step has a next state
(60_exceptions R202, 20_memory R70). -/
def Obligations.WellFormedNeverStops : Prop := ∀ (s : State) (m : Move), s.Wf → ∃ t, step (s.withTurn m) = .next t

/-- The fields that no command writes stay 0 (10_state R22), also through a read-modify-write that other agents
interrupt. -/
def Obligations.UnusedFieldsStayZero : Prop :=
  ∀ s t : State, s.Wf → UnusedZero s → step s = .next t → UnusedZero t

/-- RDR is never read unwritten (70_reset_and_hazards R231). -/
def Obligations.RdrIsWrittenWhenRead : Prop :=
  ∀ s t : State, s.Wf → RdrWritten s → step s = .next t → RdrWritten t

/-- With `P_TXE_RESET = 1` no unwritten TDR is loaded (70_reset_and_hazards R231): the invariant that launch meets
then is kept by every step. -/
def Obligations.TdrIsWrittenWhenLoaded : Prop :=
  ∀ s t : State, s.Wf → TdrWritten s → step s = .next t → TdrWritten t

/-- A single agent never writes DR while TXE = 0 (42_transfer R163, 20_memory R66). -/
def Obligations.SingleAgentNeverOverwrites : Prop :=
  ∀ s t : State, s.Wf → SingleAgentTxEmpty s → step s = .next t → SingleAgentTxEmpty t

/-- The command in progress or faulted is the one that `next` indexes (10_state R28 to R31, 60_exceptions R202). -/
def Obligations.CommandStaysInStream : Prop :=
  ∀ s t : State, s.Wf → CommandInStream s → step s = .next t → CommandInStream t

/-- Every state of every run, under every interleaving, is well formed, reads no unwritten RDR and has its unused
fields 0. -/
def Obligations.ReachableStatesAreSafe : Prop :=
  ∀ (p : Params) (progs : List (List CmdWord)) (s : State), p.wf = true → progs.length = p.nAgents →
    Reachable p progs s → s.Wf ∧ RdrWritten s ∧ UnusedZero s ∧ s.par = p ∧ s.progs = progs

/-! ## Ends of a run and races -/

/-- The ends of a run (70_reset_and_hazards R247). At a normal end no sequencer agent and no transmitter has an
enabled step, and it is neither a faulted end nor stuck; a stuck state has no infinite run; a receiver that is enabled
on an external line (42_transfer R182) gives an infinite run, a hang; and a hang goes on through a hang. Moves of the
environment between the steps of a run are the model's (log 22), and so is that a run may go on past a normal end, so
that the receiver's hang counts there too (log 23). -/
def Obligations.EndsOfARun : Prop :=
  (∀ s : State, NormalEnd s →
    (∀ a, enabled s (.seq a) = false) ∧
    (∀ i, enabled s (.txLoad i) = false ∧ (i < s.par.nInst → enabled s (.txFinish i) = false)) ∧
    ¬ FaultedEnd s ∧ ¬ Stuck s) ∧
  (∀ s : State, s.Wf → Stuck s → ¬ Hang s) ∧
  (∀ (s : State) (i : Nat), s.par.clocked i = true → s.par.rxSource i = .external → (s.uart i).rb.UE = 1 →
    (s.uart i).rb.RE = 1 → Hang s) ∧
  ∀ s : State, Hang s → ∃ t, RunStep s t ∧ Hang t

/-- Two TRANSMITs that both passed TxHold: the second DR write overwrites the first, both complete, nothing faults
(60_exceptions R215). -/
def Obligations.RacingTransmitsLoseAByte : Prop :=
  ∀ (s : State) (a b : Nat), s.Wf → a < s.seqs.length → b < s.seqs.length → a ≠ b → (s.seq a).phase = .txWrite →
    (s.seq b).phase = .txWrite → (s.seq a).H = (s.seq b).H → s.par.clocked (s.seq a).H.toNat = true →
    ∃ t, Host.Core.run Sys2Proof.core 2 (s.withSchedule (.seq a) [.seq b]) = .next t ∧
      (t.uart (s.seq a).H.toNat).rb.TDR = some (0#1 ++ (s.seq b).TXB : BitVec 9) ∧
      (t.seq a).phase = .idle ∧ (t.seq b).phase = .idle ∧
      (t.seq a).FAULT = (s.seq a).FAULT ∧ (t.seq b).FAULT = (s.seq b).FAULT

/-- Two INITIALIZEs that interleave the read and write steps of a read-modify-write of CR1: the first one's M is
lost (60_exceptions R215, 20_memory R72). -/
def Obligations.RacingInitializesLoseAnUpdate : Prop :=
  ∀ (s : State) (a b : Nat), s.Wf → a < s.seqs.length → b < s.seqs.length → a ≠ b →
    (s.seq a).phase = .init 1 none → (s.seq b).phase = .init 5 none → (s.seq a).H = (s.seq b).H →
    s.par.clocked (s.seq a).H.toNat = true →
    ∃ t, Host.Core.run Sys2Proof.core 4 (s.withSchedule (.seq a) [.seq b, .seq a, .seq b]) = .next t ∧
      (t.uart (s.seq a).H.toNat).rb.M = (s.uart (s.seq a).H.toNat).rb.M ∧
      (t.uart (s.seq a).H.toNat).rb.TE = 1 ∧
      (t.seq a).phase = .init 2 none ∧ (t.seq b).phase = .init 6 none
end

