-- ==== Sys2Proof/Laws/State.lean ====
section
/-! SUPPORT. The small lemmas of the state's updates: one per field and update, and what the accessors
give after an update. -/

namespace Sys2Proof.Machine

@[simp] theorem State.modSeq_par (s : State) (a : Nat) (f : Seq → Seq) : (s.modSeq a f).par = s.par := rfl
@[simp] theorem State.modSeq_progs (s : State) (a : Nat) (f : Seq → Seq) : (s.modSeq a f).progs = s.progs := rfl
@[simp] theorem State.modSeq_uarts (s : State) (a : Nat) (f : Seq → Seq) : (s.modSeq a f).uarts = s.uarts := rfl
@[simp] theorem State.modSeq_turn (s : State) (a : Nat) (f : Seq → Seq) : (s.modSeq a f).turn = s.turn := rfl
@[simp] theorem State.modSeq_sched (s : State) (a : Nat) (f : Seq → Seq) : (s.modSeq a f).sched = s.sched := rfl
@[simp] theorem State.modSeq_clock (s : State) (a : Nat) (f : Seq → Seq) : (s.modSeq a f).clock = s.clock := rfl
@[simp] theorem State.modSeq_draws (s : State) (a : Nat) (f : Seq → Seq) : (s.modSeq a f).draws = s.draws := rfl

@[simp] theorem State.modUart_par (s : State) (i : Nat) (f : Uart → Uart) : (s.modUart i f).par = s.par := rfl
@[simp] theorem State.modUart_progs (s : State) (i : Nat) (f : Uart → Uart) : (s.modUart i f).progs = s.progs := rfl
@[simp] theorem State.modUart_seqs (s : State) (i : Nat) (f : Uart → Uart) : (s.modUart i f).seqs = s.seqs := rfl
@[simp] theorem State.modUart_turn (s : State) (i : Nat) (f : Uart → Uart) : (s.modUart i f).turn = s.turn := rfl
@[simp] theorem State.modUart_sched (s : State) (i : Nat) (f : Uart → Uart) : (s.modUart i f).sched = s.sched := rfl
@[simp] theorem State.modUart_clock (s : State) (i : Nat) (f : Uart → Uart) : (s.modUart i f).clock = s.clock := rfl
@[simp] theorem State.modUart_draws (s : State) (i : Nat) (f : Uart → Uart) : (s.modUart i f).draws = s.draws := rfl

@[simp] theorem State.modRb_par (s : State) (i : Nat) (f : RegBlock → RegBlock) : (s.modRb i f).par = s.par := rfl
@[simp] theorem State.modRb_progs (s : State) (i : Nat) (f : RegBlock → RegBlock) : (s.modRb i f).progs = s.progs := rfl
@[simp] theorem State.modRb_seqs (s : State) (i : Nat) (f : RegBlock → RegBlock) : (s.modRb i f).seqs = s.seqs := rfl
@[simp] theorem State.modRb_turn (s : State) (i : Nat) (f : RegBlock → RegBlock) : (s.modRb i f).turn = s.turn := rfl
@[simp] theorem State.modRb_sched (s : State) (i : Nat) (f : RegBlock → RegBlock) : (s.modRb i f).sched = s.sched := rfl
@[simp] theorem State.modRb_clock (s : State) (i : Nat) (f : RegBlock → RegBlock) : (s.modRb i f).clock = s.clock := rfl
@[simp] theorem State.modRb_draws (s : State) (i : Nat) (f : RegBlock → RegBlock) : (s.modRb i f).draws = s.draws := rfl

@[simp] theorem State.useDraw_par (s : State)  : (s.useDraw).par = s.par := rfl
@[simp] theorem State.useDraw_progs (s : State)  : (s.useDraw).progs = s.progs := rfl
@[simp] theorem State.useDraw_uarts (s : State)  : (s.useDraw).uarts = s.uarts := rfl
@[simp] theorem State.useDraw_seqs (s : State)  : (s.useDraw).seqs = s.seqs := rfl
@[simp] theorem State.useDraw_turn (s : State)  : (s.useDraw).turn = s.turn := rfl
@[simp] theorem State.useDraw_sched (s : State)  : (s.useDraw).sched = s.sched := rfl
@[simp] theorem State.useDraw_clock (s : State)  : (s.useDraw).clock = s.clock := rfl

@[simp] theorem State.withTurn_par (s : State) (m : Move) : (s.withTurn m).par = s.par := rfl
@[simp] theorem State.withTurn_progs (s : State) (m : Move) : (s.withTurn m).progs = s.progs := rfl
@[simp] theorem State.withTurn_uarts (s : State) (m : Move) : (s.withTurn m).uarts = s.uarts := rfl
@[simp] theorem State.withTurn_seqs (s : State) (m : Move) : (s.withTurn m).seqs = s.seqs := rfl
@[simp] theorem State.withTurn_sched (s : State) (m : Move) : (s.withTurn m).sched = s.sched := rfl
@[simp] theorem State.withTurn_clock (s : State) (m : Move) : (s.withTurn m).clock = s.clock := rfl
@[simp] theorem State.withTurn_draws (s : State) (m : Move) : (s.withTurn m).draws = s.draws := rfl

@[simp] theorem State.withTurn_turn (s : State) (m : Move) : (s.withTurn m).turn = m := rfl

@[simp] theorem State.withSchedule_par (s : State) (m : Move) (ms : List Move) : (s.withSchedule m ms).par = s.par := rfl
@[simp] theorem State.withSchedule_progs (s : State) (m : Move) (ms : List Move) : (s.withSchedule m ms).progs = s.progs := rfl
@[simp] theorem State.withSchedule_uarts (s : State) (m : Move) (ms : List Move) : (s.withSchedule m ms).uarts = s.uarts := rfl
@[simp] theorem State.withSchedule_seqs (s : State) (m : Move) (ms : List Move) : (s.withSchedule m ms).seqs = s.seqs := rfl
@[simp] theorem State.withSchedule_clock (s : State) (m : Move) (ms : List Move) : (s.withSchedule m ms).clock = s.clock := rfl
@[simp] theorem State.withSchedule_draws (s : State) (m : Move) (ms : List Move) : (s.withSchedule m ms).draws = s.draws := rfl

@[simp] theorem State.withSchedule_turn (s : State) (m : Move) (ms : List Move) : (s.withSchedule m ms).turn = m := rfl
@[simp] theorem State.withSchedule_sched (s : State) (m : Move) (ms : List Move) : (s.withSchedule m ms).sched = ms := rfl

@[simp] theorem State.raiseFault_par (s : State) (a : Nat) (w : CmdWord) (c : FaultCode) : (raiseFault a w c s).par = s.par := rfl
@[simp] theorem State.raiseFault_progs (s : State) (a : Nat) (w : CmdWord) (c : FaultCode) : (raiseFault a w c s).progs = s.progs := rfl
@[simp] theorem State.raiseFault_uarts (s : State) (a : Nat) (w : CmdWord) (c : FaultCode) : (raiseFault a w c s).uarts = s.uarts := rfl
@[simp] theorem State.raiseFault_turn (s : State) (a : Nat) (w : CmdWord) (c : FaultCode) : (raiseFault a w c s).turn = s.turn := rfl
@[simp] theorem State.raiseFault_sched (s : State) (a : Nat) (w : CmdWord) (c : FaultCode) : (raiseFault a w c s).sched = s.sched := rfl
@[simp] theorem State.raiseFault_clock (s : State) (a : Nat) (w : CmdWord) (c : FaultCode) : (raiseFault a w c s).clock = s.clock := rfl
@[simp] theorem State.raiseFault_draws (s : State) (a : Nat) (w : CmdWord) (c : FaultCode) : (raiseFault a w c s).draws = s.draws := rfl

@[simp] theorem nextTurn_par (s : State) : (nextTurn s).par = s.par := by
  unfold nextTurn; split <;> rfl
@[simp] theorem nextTurn_progs (s : State) : (nextTurn s).progs = s.progs := by
  unfold nextTurn; split <;> rfl
@[simp] theorem nextTurn_uarts (s : State) : (nextTurn s).uarts = s.uarts := by
  unfold nextTurn; split <;> rfl
@[simp] theorem nextTurn_seqs (s : State) : (nextTurn s).seqs = s.seqs := by
  unfold nextTurn; split <;> rfl
@[simp] theorem nextTurn_draws (s : State) : (nextTurn s).draws = s.draws := by
  unfold nextTurn; split <;> rfl
@[simp] theorem nextTurn_clock (s : State) : (nextTurn s).clock = s.clock + 1 := by
  unfold nextTurn; split <;> rfl

theorem nextTurn_of_sched {s : State} {m : Move} {ms : List Move} (h : s.sched = m :: ms) :
    (nextTurn s).turn = m ∧ (nextTurn s).sched = ms := by
  unfold nextTurn; rw [h]; exact ⟨rfl, rfl⟩

/-! What an accessor gives after an update. -/

@[simp] theorem State.seq_modUart (s : State) (j : Nat) (f : Uart → Uart) (a : Nat) : (s.modUart j f).seq a = s.seq a := rfl
@[simp] theorem State.seq_modRb (s : State) (j : Nat) (f : RegBlock → RegBlock) (a : Nat) : (s.modRb j f).seq a = s.seq a := rfl
@[simp] theorem State.seq_useDraw (s : State)  (a : Nat) : (s.useDraw).seq a = s.seq a := rfl
@[simp] theorem State.seq_withTurn (s : State) (m : Move) (a : Nat) : (s.withTurn m).seq a = s.seq a := rfl
@[simp] theorem State.seq_withSchedule (s : State) (m : Move) (ms : List Move) (a : Nat) : (s.withSchedule m ms).seq a = s.seq a := rfl
@[simp] theorem seq_nextTurn (s : State) (a : Nat) : (nextTurn s).seq a = s.seq a := by
  simp [State.seq]
@[simp] theorem State.uart_modSeq (s : State) (b : Nat) (f : Seq → Seq) (i : Nat) : (s.modSeq b f).uart i = s.uart i := rfl
@[simp] theorem State.uart_useDraw (s : State)  (i : Nat) : (s.useDraw).uart i = s.uart i := rfl
@[simp] theorem State.uart_withTurn (s : State) (m : Move) (i : Nat) : (s.withTurn m).uart i = s.uart i := rfl
@[simp] theorem State.uart_withSchedule (s : State) (m : Move) (ms : List Move) (i : Nat) : (s.withSchedule m ms).uart i = s.uart i := rfl
@[simp] theorem State.uart_raiseFault (s : State) (b : Nat) (w : CmdWord) (c : FaultCode) (i : Nat) : (raiseFault b w c s).uart i = s.uart i := rfl
@[simp] theorem uart_nextTurn (s : State) (i : Nat) : (nextTurn s).uart i = s.uart i := by
  simp [State.uart]

@[simp] theorem State.modSeq_length (s : State) (a : Nat) (f : Seq → Seq) :
    (s.modSeq a f).seqs.length = s.seqs.length := by simp [State.modSeq]

@[simp] theorem State.modUart_length (s : State) (i : Nat) (f : Uart → Uart) :
    (s.modUart i f).uarts.length = s.uarts.length := by simp [State.modUart]

@[simp] theorem State.modRb_length (s : State) (i : Nat) (f : RegBlock → RegBlock) :
    (s.modRb i f).uarts.length = s.uarts.length := by simp [State.modRb]

@[simp] theorem State.raiseFault_length (s : State) (a : Nat) (w : CmdWord) (c : FaultCode) :
    (raiseFault a w c s).seqs.length = s.seqs.length := by simp [raiseFault]

theorem State.seq_modSeq_self {s : State} {a : Nat} (h : a < s.seqs.length) (f : Seq → Seq) :
    (s.modSeq a f).seq a = f (s.seq a) := by
  simp [State.modSeq, State.seq, h]

theorem State.seq_modSeq_ne {s : State} {a b : Nat} (h : b ≠ a) (f : Seq → Seq) :
    (s.modSeq a f).seq b = s.seq b := by
  simp [State.modSeq, State.seq, List.getElem?_set_ne h.symm]

/-- One agent's update, read at any agent. -/
theorem State.seq_modSeq_eq (s : State) (a b : Nat) (f : Seq → Seq) :
    (s.modSeq a f).seq b = if b = a ∧ a < s.seqs.length then f (s.seq a) else s.seq b := by
  by_cases hb : b = a
  · subst hb
    by_cases hl : b < s.seqs.length
    · simp [State.seq_modSeq_self hl, hl]
    · simp [State.modSeq, State.seq, hl]
  · simp [State.seq_modSeq_ne hb, hb]

theorem State.uart_modUart_self {s : State} {i : Nat} (h : i < s.uarts.length) (f : Uart → Uart) :
    (s.modUart i f).uart i = f (s.uart i) := by
  simp [State.modUart, State.uart, h]

theorem State.uart_modUart_ne {s : State} {i j : Nat} (h : j ≠ i) (f : Uart → Uart) :
    (s.modUart i f).uart j = s.uart j := by
  simp [State.modUart, State.uart, List.getElem?_set_ne h.symm]

/-- One UART's update, read at any UART. -/
theorem State.uart_modUart_eq (s : State) (i j : Nat) (f : Uart → Uart) :
    (s.modUart i f).uart j = if j = i ∧ i < s.uarts.length then f (s.uart i) else s.uart j := by
  by_cases hj : j = i
  · subst hj
    by_cases hl : j < s.uarts.length
    · simp [State.uart_modUart_self hl, hl]
    · simp [State.modUart, State.uart, hl]
  · simp [State.uart_modUart_ne hj, hj]

/-- One register block's update, read at any UART. -/
theorem State.uart_modRb_eq (s : State) (i j : Nat) (f : RegBlock → RegBlock) :
    (s.modRb i f).uart j =
      if j = i ∧ i < s.uarts.length then { s.uart i with rb := f (s.uart i).rb } else s.uart j :=
  State.uart_modUart_eq s i j _

/-- A state is its parts. -/
theorem State.ext_parts {s t : State} (h1 : s.par = t.par) (h2 : s.progs = t.progs) (h3 : s.uarts = t.uarts)
    (h4 : s.seqs = t.seqs) (h5 : s.turn = t.turn) (h6 : s.sched = t.sched) (h7 : s.clock = t.clock)
    (h8 : s.draws = t.draws) : s = t := by
  cases s; cases t; simp_all

@[simp] theorem Seq.complete_CMD (q : Seq) : q.complete.CMD = q.CMD := rfl
@[simp] theorem Seq.complete_H (q : Seq) : q.complete.H = q.H := rfl
@[simp] theorem Seq.complete_CFG (q : Seq) : q.complete.CFG = q.CFG := rfl
@[simp] theorem Seq.complete_ENC (q : Seq) : q.complete.ENC = q.ENC := rfl
@[simp] theorem Seq.complete_TXB (q : Seq) : q.complete.TXB = q.TXB := rfl
@[simp] theorem Seq.complete_RES (q : Seq) : q.complete.RES = q.RES := rfl
@[simp] theorem Seq.complete_FAULT (q : Seq) : q.complete.FAULT = q.FAULT := rfl
@[simp] theorem Seq.complete_phase (q : Seq) : q.complete.phase = .idle := rfl
@[simp] theorem Seq.complete_next (q : Seq) : q.complete.next = q.next + 1 := rfl

@[simp] theorem Seq.append_phase (q : Seq) (x : Result) : (q.append x).phase = q.phase := rfl
@[simp] theorem Seq.append_CMD (q : Seq) (x : Result) : (q.append x).CMD = q.CMD := rfl
@[simp] theorem Seq.append_H (q : Seq) (x : Result) : (q.append x).H = q.H := rfl
@[simp] theorem Seq.append_CFG (q : Seq) (x : Result) : (q.append x).CFG = q.CFG := rfl
@[simp] theorem Seq.append_ENC (q : Seq) (x : Result) : (q.append x).ENC = q.ENC := rfl
@[simp] theorem Seq.append_TXB (q : Seq) (x : Result) : (q.append x).TXB = q.TXB := rfl
@[simp] theorem Seq.append_FAULT (q : Seq) (x : Result) : (q.append x).FAULT = q.FAULT := rfl
@[simp] theorem Seq.append_next (q : Seq) (x : Result) : (q.append x).next = q.next := rfl
@[simp] theorem Seq.append_RES (q : Seq) (x : Result) : (q.append x).RES = q.RES ++ [x] := rfl

@[simp] theorem Seq.initAdvance_CMD (k : Fin 8) (q : Seq) : (q.initAdvance k).CMD = q.CMD := by
  unfold Seq.initAdvance; split <;> rfl
@[simp] theorem Seq.initAdvance_H (k : Fin 8) (q : Seq) : (q.initAdvance k).H = q.H := by
  unfold Seq.initAdvance; split <;> rfl
@[simp] theorem Seq.initAdvance_CFG (k : Fin 8) (q : Seq) : (q.initAdvance k).CFG = q.CFG := by
  unfold Seq.initAdvance; split <;> rfl
@[simp] theorem Seq.initAdvance_ENC (k : Fin 8) (q : Seq) : (q.initAdvance k).ENC = q.ENC := by
  unfold Seq.initAdvance; split <;> rfl
@[simp] theorem Seq.initAdvance_TXB (k : Fin 8) (q : Seq) : (q.initAdvance k).TXB = q.TXB := by
  unfold Seq.initAdvance; split <;> rfl
@[simp] theorem Seq.initAdvance_RES (k : Fin 8) (q : Seq) : (q.initAdvance k).RES = q.RES := by
  unfold Seq.initAdvance; split <;> rfl
@[simp] theorem Seq.initAdvance_FAULT (k : Fin 8) (q : Seq) : (q.initAdvance k).FAULT = q.FAULT := by
  unfold Seq.initAdvance; split <;> rfl

@[simp] theorem Out.andThen_next {α β : Type} (a : α) (f : α → Out β) :
    Out.andThen (Host.Outcome.next a : Out α) f = f a := rfl

/-- A computation that goes on went on before. -/
theorem Out.andThen_eq_next {α β : Type} {o : Out α} {f : α → Out β} {b : β} :
    o.andThen f = .next b ↔ ∃ a, o = .next a ∧ f a = .next b := by
  cases o <;> simp [Out.andThen]

end Sys2Proof.Machine
end

