-- ==== Sys2Proof/Laws/Registers.lean ====
section
/-! SUPPORT. Register words: what a field reads as after a field is set, a word is read, one field of a
word is replaced, and a word is written. -/

namespace Sys2Proof.Machine

/-! Fields and their registers. -/

/-- The register that holds a field. -/
def regOf (f : Field) : Reg := (Reg.all.find? fun r => f ∈ r.fields).getD .dr

theorem width_pos (f : Field) : 0 < f.width := by cases f <;> decide

theorem width_le (f : Field) : f.width ≤ 16 := by cases f <;> decide

theorem mem_fields_regOf (f : Field) : f ∈ (regOf f).fields := by cases f <;> decide

theorem mem_fields_iff (f : Field) (r : Reg) : f ∈ r.fields ↔ regOf f = r := by
  cases r <;> cases f <;> decide

theorem mem_all (f : Field) : f ∈ Field.all := by cases f <;> decide

theorem reg_mem_all (r : Reg) : r ∈ Reg.all := by cases r <;> decide

/-! Bits. -/

theorem getLsbD_mask (f : Field) (k : Nat) : f.mask.getLsbD k = decide (k < f.width) := by
  have := width_le f
  simp only [Field.mask, BitVec.getLsbD_ofNat, Nat.testBit_two_pow_sub_one]
  by_cases h : k < f.width <;> simp [h]
  omega

theorem getLsbD_extractField (L : Layout) (f : Field) (v : Word32) (k : Nat) :
    (extractField L f v).getLsbD k = (v.getLsbD (L.lo f + k) && decide (k < f.width)) := by
  simp [extractField, getLsbD_mask]

theorem getLsbD_placeField (L : Layout) (f : Field) (v : Word32) (k : Nat) :
    (placeField L f v).getLsbD k =
      (decide (k < 32) && decide (L.lo f ≤ k) && v.getLsbD (k - L.lo f) && decide (k - L.lo f < f.width)) := by
  simp only [placeField, BitVec.getLsbD_shiftLeft, BitVec.getLsbD_and, getLsbD_mask]
  by_cases h : k < L.lo f
  · simp [h, Nat.not_le.mpr h]
  · simp [h, Nat.not_lt.mp h, Bool.and_assoc]

theorem getLsbD_insertField (L : Layout) (f : Field) (v r : Word32) (k : Nat) (hk : k < 32) :
    (insertField L f v r).getLsbD k =
      if L.lo f ≤ k ∧ k < L.lo f + f.width then v.getLsbD (k - L.lo f) else r.getLsbD k := by
  simp only [insertField, BitVec.getLsbD_or, BitVec.getLsbD_and, BitVec.getLsbD_not, BitVec.getLsbD_shiftLeft,
    getLsbD_mask, getLsbD_placeField]
  by_cases h1 : L.lo f ≤ k
  · by_cases h2 : k - L.lo f < f.width
    · have h3 : k < L.lo f + f.width := by omega
      simp [hk, h1, h2, h3, Nat.not_lt.mpr h1]
    · have h3 : ¬ k < L.lo f + f.width := by omega
      simp [hk, h2, h3, Nat.not_lt.mpr h1]
  · simp [hk, h1, Nat.not_le.mp h1]

/-- Two words with the same bits below a field's width have the same field. -/
theorem and_mask_ext {f : Field} {v w : Word32} (h : ∀ k < f.width, v.getLsbD k = w.getLsbD k) :
    v &&& f.mask = w &&& f.mask := by
  apply BitVec.eq_of_getLsbD_eq
  intro k _
  by_cases hk : k < f.width <;> simp [getLsbD_mask, hk, h k]

theorem extractField_and_mask (L : Layout) (f : Field) (v : Word32) :
    extractField L f v &&& f.mask = extractField L f v := by
  simp [extractField, BitVec.and_assoc]

/-! Fields of a register block. -/

theorem getLsbD_lowMask {w : Nat} (k : Nat) :
    (BitVec.ofNat 32 (2 ^ w - 1)).getLsbD k = (decide (k < 32) && decide (k < w)) := by
  rw [BitVec.getLsbD_ofNat, Nat.testBit_two_pow_sub_one]

theorem setWidth_setWidth_mask (w : Nat) (v : Word32) :
    (v.setWidth w).setWidth 32 = v &&& BitVec.ofNat 32 (2 ^ w - 1) := by
  apply BitVec.eq_of_getLsbD_eq
  intro k hk
  rw [BitVec.getLsbD_setWidth, BitVec.getLsbD_setWidth, BitVec.getLsbD_and, getLsbD_lowMask]
  by_cases h : k < w
  · simp only [hk, h, decide_true, Bool.true_and, Bool.and_true]
  · simp only [hk, h, decide_true, decide_false, Bool.false_and, Bool.and_false]

theorem setWidth_mask {w : Nat} (x : BitVec w) : x.setWidth 32 &&& BitVec.ofNat 32 (2 ^ w - 1) = x.setWidth 32 := by
  apply BitVec.eq_of_getLsbD_eq
  intro k hk
  rw [BitVec.getLsbD_and, BitVec.getLsbD_setWidth, getLsbD_lowMask]
  by_cases h : k < w
  · simp only [hk, h, decide_true, Bool.true_and, Bool.and_true]
  · simp only [BitVec.getLsbD_of_ge x k (by omega), Bool.and_false, Bool.false_and]

@[simp] theorem get_and_mask (b : RegBlock) (f : Field) : b.get f &&& f.mask = b.get f := by
  cases f <;> exact setWidth_mask _

@[simp] theorem get_set_self (b : RegBlock) (f : Field) (v : Word32) : (b.set f v).get f = v &&& f.mask := by
  cases f <;> exact setWidth_setWidth_mask _ v

theorem get_set_ne {f g : Field} (h : g ≠ f) (b : RegBlock) (v : Word32) : (b.set f v).get g = b.get g := by
  cases f <;> cases g <;> first | rfl | exact absurd rfl h

@[simp] theorem set_TDR (b : RegBlock) (f : Field) (v : Word32) : (b.set f v).TDR = b.TDR := by
  cases f <;> rfl

@[simp] theorem set_RDR (b : RegBlock) (f : Field) (v : Word32) : (b.set f v).RDR = b.RDR := by
  cases f <;> rfl

theorem setWidth_inj {w : Nat} (hw : w ≤ 32) {x y : BitVec w} (h : x.setWidth 32 = y.setWidth 32) : x = y := by
  have h2 := congrArg BitVec.toNat h
  have hx := x.isLt
  have hy := y.isLt
  have hp : 2 ^ w ≤ 2 ^ 32 := Nat.pow_le_pow_right (by decide) hw
  simp only [BitVec.toNat_setWidth] at h2
  rw [Nat.mod_eq_of_lt (by omega), Nat.mod_eq_of_lt (by omega)] at h2
  exact BitVec.eq_of_toNat_eq h2

/-- A register block is its fields and its two data registers. -/
theorem RegBlock.ext_get {a b : RegBlock} (h : ∀ f, a.get f = b.get f) (ht : a.TDR = b.TDR) (hr : a.RDR = b.RDR) :
    a = b := by
  have hf : ∀ {w : Nat} {x y : BitVec w}, w ≤ 32 → x.setWidth 32 = y.setWidth 32 → x = y :=
    fun hw h => setWidth_inj hw h
  cases a; cases b
  simp only at ht hr
  subst ht hr
  congr 1
  · exact hf (by decide) (h .BRR)
  · exact hf (by decide) (h .M)
  · exact hf (by decide) (h .PCE)
  · exact hf (by decide) (h .PS)
  · exact hf (by decide) (h .STOP)
  · exact hf (by decide) (h .RTSE)
  · exact hf (by decide) (h .CTSE)
  · exact hf (by decide) (h .TE)
  · exact hf (by decide) (h .RE)
  · exact hf (by decide) (h .UE)
  · exact hf (by decide) (h .TXE)
  · exact hf (by decide) (h .TC)
  · exact hf (by decide) (h .RXNE)
  · exact hf (by decide) (h .ORE)
  · exact hf (by decide) (h .FE)
  · exact hf (by decide) (h .PE)
  all_goals first
    | exact hf (by decide) (h .SBK) | exact hf (by decide) (h .RWU) | exact hf (by decide) (h .IDLEIE)
    | exact hf (by decide) (h .RXNEIE) | exact hf (by decide) (h .TCIE) | exact hf (by decide) (h .TXEIE)
    | exact hf (by decide) (h .PEIE) | exact hf (by decide) (h .WAKE) | exact hf (by decide) (h .ADD)
    | exact hf (by decide) (h .LBDL) | exact hf (by decide) (h .LBDIE) | exact hf (by decide) (h .LBCL)
    | exact hf (by decide) (h .CPHA) | exact hf (by decide) (h .CPOL) | exact hf (by decide) (h .CLKEN)
    | exact hf (by decide) (h .LINEN) | exact hf (by decide) (h .EIE) | exact hf (by decide) (h .IREN)
    | exact hf (by decide) (h .IRLP) | exact hf (by decide) (h .HDSEL) | exact hf (by decide) (h .NACK)
    | exact hf (by decide) (h .SCEN) | exact hf (by decide) (h .DMAR) | exact hf (by decide) (h .DMAT)
    | exact hf (by decide) (h .CTSIE) | exact hf (by decide) (h .PSC) | exact hf (by decide) (h .GT)
    | exact hf (by decide) (h .NE) | exact hf (by decide) (h .IDLE) | exact hf (by decide) (h .LBD)
    | exact hf (by decide) (h .CTS)

/-! Writing a word. -/

theorem get_foldl_set (val : Field → Word32) (f : Field) (l : List Field) (b : RegBlock) :
    (l.foldl (fun b g => b.set g (val g)) b).get f = if f ∈ l then val f &&& f.mask else b.get f := by
  induction l generalizing b with
  | nil => simp
  | cons g l ih =>
    rw [List.foldl_cons, ih]
    by_cases hl : f ∈ l
    · simp [hl]
    · by_cases hg : f = g
      · subst hg; simp [hl]
      · simp [hl, hg, get_set_ne hg]

/-- A control write sets exactly the fields that the register holds (20_memory R68). -/
theorem get_writeFields (L : Layout) (b : RegBlock) (r : Reg) (v : Word32) (f : Field) :
    (writeFields L b r v).get f = if f ∈ r.fields then extractField L f v else b.get f := by
  unfold writeFields
  rw [get_foldl_set (fun g => extractField L g v)]
  simp [extractField_and_mask]

theorem foldl_set_data (val : Field → Word32) (l : List Field) (b : RegBlock) :
    (l.foldl (fun b g => b.set g (val g)) b).TDR = b.TDR ∧ (l.foldl (fun b g => b.set g (val g)) b).RDR = b.RDR := by
  induction l generalizing b with
  | nil => exact ⟨rfl, rfl⟩
  | cons g l ih => simpa using ih (b.set g (val g))

@[simp] theorem writeFields_TDR (L : Layout) (b : RegBlock) (r : Reg) (v : Word32) :
    (writeFields L b r v).TDR = b.TDR := (foldl_set_data _ _ _).1

@[simp] theorem writeFields_RDR (L : Layout) (b : RegBlock) (r : Reg) (v : Word32) :
    (writeFields L b r v).RDR = b.RDR := (foldl_set_data _ _ _).2

/-! Reading a word, under a layout whose fields fit and do not overlap. -/

theorem Layout.fits {L : Layout} (hL : L.wf = true) (f : Field) : L.lo f + f.width ≤ 32 := by
  simp only [Layout.wf, Layout.fieldsFit, Bool.and_eq_true, List.all_eq_true, decide_eq_true_eq] at hL
  exact hL.1.1.1.1 f (mem_all f)

theorem Layout.dr_fits {L : Layout} (hL : L.wf = true) : L.drPos + 9 ≤ 32 := by
  simp only [Layout.wf, Layout.fieldsFit, Bool.and_eq_true, List.all_eq_true, decide_eq_true_eq] at hL
  exact hL.1.1.1.2

theorem Layout.apart_of_wf {L : Layout} (hL : L.wf = true) {r : Reg} {f g : Field} (hf : f ∈ r.fields)
    (hg : g ∈ r.fields) (hfg : f ≠ g) : L.lo f + f.width ≤ L.lo g ∨ L.lo g + g.width ≤ L.lo f := by
  simp only [Layout.wf, Layout.fieldsApart, Bool.and_eq_true, List.all_eq_true] at hL
  have := hL.1.1.2 r (reg_mem_all r) f hf g hg
  simpa [Layout.apart, hfg] using this

theorem extractField_insertField_self {L : Layout} (hL : L.wf = true) (f : Field) (v r : Word32) :
    extractField L f (insertField L f v r) = v &&& f.mask := by
  have hfit := Layout.fits hL f
  apply BitVec.eq_of_getLsbD_eq
  intro k _
  rw [getLsbD_extractField, BitVec.getLsbD_and, getLsbD_mask]
  by_cases hk : k < f.width
  · rw [getLsbD_insertField _ _ _ _ _ (by omega)]
    simp [hk]
  · simp [hk]

theorem extractField_insertField_ne {L : Layout} (hL : L.wf = true) {r : Reg} {f g : Field} (hf : f ∈ r.fields)
    (hg : g ∈ r.fields) (hfg : g ≠ f) (v x : Word32) :
    extractField L g (insertField L f v x) = extractField L g x := by
  have hfit := Layout.fits hL g
  have hap := Layout.apart_of_wf hL hg hf hfg
  apply BitVec.eq_of_getLsbD_eq
  intro k _
  rw [getLsbD_extractField, getLsbD_extractField]
  by_cases hk : k < g.width
  · rw [getLsbD_insertField _ _ _ _ _ (by omega), if_neg (by omega)]
  · simp [hk]

theorem getLsbD_foldl_place (L : Layout) (b : RegBlock) (k : Nat) (l : List Field) (acc : Word32) :
    (l.foldl (fun acc f => acc ||| placeField L f (b.get f)) acc).getLsbD k =
      (acc.getLsbD k || l.any fun f => (placeField L f (b.get f)).getLsbD k) := by
  induction l generalizing acc with
  | nil => simp
  | cons f l ih => simp [ih, Bool.or_assoc]

/-- A field of a register's word is the block's field (20_memory R62 to R65). -/
theorem extractField_readWord {L : Layout} (hL : L.wf = true) (b : RegBlock) (u : BitVec 9) {r : Reg} {f : Field}
    (hf : f ∈ r.fields) : extractField L f (readWord L b u r) = b.get f := by
  have hfit := Layout.fits hL f
  have hr : readWord L b u r = r.fields.foldl (fun acc f => acc ||| placeField L f (b.get f)) 0 := by
    cases r <;> first | rfl | simp [Reg.fields] at hf
  rw [hr]
  apply BitVec.eq_of_getLsbD_eq
  intro k hk32
  rw [getLsbD_extractField, getLsbD_foldl_place]
  by_cases hk : k < f.width
  · rw [Bool.eq_iff_iff]
    simp only [BitVec.ofNat_eq_ofNat, BitVec.getLsbD_zero, Bool.false_or, hk, decide_true, Bool.and_true,
      List.any_eq_true]
    constructor
    · rintro ⟨g, hg, hb⟩
      rw [getLsbD_placeField] at hb
      simp only [Bool.and_eq_true, decide_eq_true_eq] at hb
      by_cases hgf : g = f
      · subst hgf
        simpa [show L.lo g + k - L.lo g = k by omega] using hb.1.2
      · have := Layout.apart_of_wf hL hg hf hgf
        omega
    · intro hb
      refine ⟨f, hf, ?_⟩
      rw [getLsbD_placeField]
      simp [hb, hk]
      omega
  · have hg : (b.get f).getLsbD k = false := by
      rw [← get_and_mask b f, BitVec.getLsbD_and, getLsbD_mask]
      simp [hk]
    simp [hk, hg]

/-- Reserved bits read 0 (20_memory R62 to R65). -/
theorem readWord_reserved (L : Layout) (b : RegBlock) (u : BitVec 9) {r : Reg} (hr : r ≠ .dr) (k : Nat)
    (h : ∀ f ∈ r.fields, ¬ (L.lo f ≤ k ∧ k < L.lo f + f.width)) : (readWord L b u r).getLsbD k = false := by
  have hw : readWord L b u r = r.fields.foldl (fun acc f => acc ||| placeField L f (b.get f)) 0 := by
    cases r <;> first | rfl | exact absurd rfl hr
  rw [hw, getLsbD_foldl_place]
  simp only [BitVec.ofNat_eq_ofNat, BitVec.getLsbD_zero, Bool.false_or, List.any_eq_false]
  intro f hf
  have := h f hf
  rw [getLsbD_placeField]
  simp only [Bool.and_eq_true, decide_eq_true_eq]
  omega

/-- A block read as a word and written back with one field replaced is the block with the field set
(41_line_init R133, R137). -/
theorem writeFields_insert_readWord {L : Layout} (hL : L.wf = true) (b : RegBlock) (u : BitVec 9) {r : Reg}
    {f : Field} (hf : f ∈ r.fields) (v : Word32) :
    writeFields L b r (insertField L f v (readWord L b u r)) = b.set f v := by
  apply RegBlock.ext_get
  · intro g
    rw [get_writeFields]
    by_cases hgf : g = f
    · subst hgf
      simp [hf, extractField_insertField_self hL]
    · rw [get_set_ne hgf]
      by_cases hg : g ∈ r.fields
      · rw [if_pos hg, extractField_insertField_ne hL hf hg hgf, extractField_readWord hL b u hg]
      · rw [if_neg hg]
  · simp
  · simp

end Sys2Proof.Machine
end

