-- ==== Sys2Proof/Laws/Bus.lean ====
section
/-! SUPPORT. The bus: the register at an address, and what a register access of the block does when the
parameters are in their domains (20_memory R60, R61, R69). -/

namespace Sys2Proof.Machine

theorem Params.layout_wf {p : Params} (hp : p.wf = true) : p.layout.wf = true := by
  simp only [Params.wf, Bool.and_eq_true] at hp
  exact hp.1.1.2

theorem Params.nInst_le {p : Params} (hp : p.wf = true) : p.nInst ≤ 4 := by
  simp only [Params.wf, Bool.and_eq_true, decide_eq_true_eq] at hp
  exact hp.1.1.1.1.2

theorem Params.inst_wf {p : Params} (hp : p.wf = true) {c : InstParams} (hc : c ∈ p.insts) : c.wf p = true := by
  simp only [Params.wf, Bool.and_eq_true, List.all_eq_true] at hp
  exact hp.1.2 c hc

theorem Params.apart {p : Params} (hp : p.wf = true) : p.insts.Pairwise fun c d =>
    c.base.toNat + p.layout.window ≤ d.base.toNat ∨ d.base.toNat + p.layout.window ≤ c.base.toNat := by
  simp only [Params.wf, Params.windowsApart, Bool.and_eq_true, decide_eq_true_eq] at hp
  exact hp.2

/-- Only a UART that exists has a clock. -/
theorem Params.lt_of_clocked {p : Params} {i : Nat} (h : p.clocked i = true) : i < p.nInst := by
  simp only [Params.clocked] at h
  by_contra hn
  rw [List.getElem?_eq_none (by simpa [Params.nInst] using hn)] at h
  simp at h

theorem Params.base_of_lt {p : Params} {i : Nat} (h : i < p.insts.length) : p.base i = p.insts[i].base := by
  simp [Params.base, List.getElem?_eq_getElem h]

theorem Layout.off_lt {L : Layout} (hL : L.wf = true) (r : Reg) : L.off r % 4 = 0 ∧ L.off r + 4 ≤ L.window := by
  simp only [Layout.wf, Layout.offsetsOk, Bool.and_eq_true, List.all_eq_true, decide_eq_true_eq] at hL
  exact hL.1.2.1 r (reg_mem_all r)

theorem regAt_off {L : Layout} (hL : L.wf = true) (r : Reg) : regAt L (L.off r) = some r := by
  simp only [Layout.wf, Layout.offsetsOk, Bool.and_eq_true, decide_eq_true_eq] at hL
  have h := hL.1.2.2
  simp only [Reg.all, List.map_cons, List.map_nil, List.nodup_cons, List.mem_cons, List.not_mem_nil, or_false, not_or] at h
  obtain ⟨⟨h1, h2, h3, h4, h5, h6⟩, ⟨h7, h8, h9, h10, h11⟩, ⟨h12, h13, h14, h15⟩, ⟨h16, h17, h18⟩, ⟨h19, h20⟩, h21, -⟩ := h
  cases r <;> simp [regAt, Reg.all, *]

/-- The address of a register of a UART that exists. -/
theorem regAddr_toNat {p : Params} (hp : p.wf = true) {i : Nat} (hi : i < p.nInst) (r : Reg) :
    (regAddr p i r).toNat = (p.base i).toNat + p.layout.off r := by
  have hw := Params.inst_wf hp (List.getElem_mem hi)
  simp only [InstParams.wf, Bool.and_eq_true, decide_eq_true_eq] at hw
  have ho := (Layout.off_lt (Params.layout_wf hp) r).2
  rw [regAddr, Params.base_of_lt hi, BitVec.toNat_add, BitVec.toNat_ofNat]
  omega

theorem regAddr_aligned {p : Params} (hp : p.wf = true) {i : Nat} (hi : i < p.nInst) (r : Reg) :
    (regAddr p i r).toNat % 4 = 0 := by
  have hw := Params.inst_wf hp (List.getElem_mem hi)
  simp only [InstParams.wf, Bool.and_eq_true, decide_eq_true_eq] at hw
  have ho := (Layout.off_lt (Params.layout_wf hp) r).1
  rw [regAddr_toNat hp hi, Params.base_of_lt hi]
  omega

/-- The address `P_BASE(i) + off` is that register of that UART, and of no other. -/
theorem locate_regAddr {p : Params} (hp : p.wf = true) {i : Nat} (hi : i < p.nInst) (r : Reg) :
    locate p (regAddr p i r) = some (i, r) := by
  have ho := (Layout.off_lt (Params.layout_wf hp) r).2
  have hn := regAddr_toNat hp hi r
  have hb := Params.base_of_lt hi
  have hfind : p.insts.findIdx? (inWindow p.layout (regAddr p i r)) = some i := by
    rw [List.findIdx?_eq_some_iff_getElem]
    refine ⟨hi, ?_, ?_⟩
    · simp only [inWindow, Bool.and_eq_true, decide_eq_true_eq]
      rw [hn, hb]
      omega
    · intro j hj
      have := List.pairwise_iff_getElem.mp (Params.apart hp) j i (hj.trans hi) hi hj
      simp only [inWindow, Bool.and_eq_true, decide_eq_true_eq]
      rw [hn, hb]
      omega
  simp only [locate, hfind]
  rw [hn, Nat.add_sub_cancel_left, regAt_off (Params.layout_wf hp)]
  rfl

/-- A register read of the block: it never stops (20_memory R66 to R69). -/
theorem regRead_eq {s : State} (hp : s.par.wf = true) {h : BitVec 2} (hh : h.toNat < s.par.nInst) (r : Reg) :
    regRead h r s = .next (if s.par.clocked h.toNat then readReg h.toNat r s else (0, s)) := by
  simp only [regRead, hh, if_true, memRead, regAddr_aligned hp hh, locate_regAddr hp hh]
  simp only [ne_eq, not_true, if_false]
  split <;> rfl

/-- A register write of the block (20_memory R66 to R69). -/
theorem regWrite_eq {s : State} (hp : s.par.wf = true) {h : BitVec 2} (hh : h.toNat < s.par.nInst) (r : Reg)
    (v : Word32) :
    regWrite h r v s = if s.par.clocked h.toNat then writeReg h.toNat r v s else .next s := by
  simp only [regWrite, hh, if_true, memWrite, regAddr_aligned hp hh, locate_regAddr hp hh]
  simp only [ne_eq, not_true, if_false]

/-- A poll of a status flag: what it returns, and that it changes nothing (20_memory R68, R69). -/
theorem pollFlag_eq {s : State} (hp : s.par.wf = true) {h : BitVec 2} (hh : h.toNat < s.par.nInst) {f : Field}
    (hf : f ∈ Reg.sr.fields) :
    pollFlag h f s = .next (s.par.clocked h.toNat && decide ((s.uart h.toNat).rb.get f = 1), s) := by
  rw [pollFlag, regRead_eq hp hh]
  by_cases hc : s.par.clocked h.toNat = true
  · simp [hc, readReg, extractField_readWord (Params.layout_wf hp) _ _ hf]
  · simp [hc, extractField]

end Sys2Proof.Machine
end

