-- ==== Sys2Proof/Laws/Ops.lean ====
section
/-! SUPPORT. What each shared operation, each agent's step and a step of the block can do: one lemma per
operation, "if it answers next, then". -/

namespace Sys2Proof.Machine

/-- What every register access keeps: all but the UARTs and the count of draws. -/
structure BusFrame (s t : State) : Prop where
  par : t.par = s.par
  progs : t.progs = s.progs
  seqs : t.seqs = s.seqs
  turn : t.turn = s.turn
  sched : t.sched = s.sched
  clock : t.clock = s.clock
  uarts : t.uarts.length = s.uarts.length

theorem BusFrame.rfl {s : State} : BusFrame s s := ⟨.refl _, .refl _, .refl _, .refl _, .refl _, .refl _, .refl _⟩

/-- What every step of agent `a` keeps: the parameters, the streams, the turn and the other agents. -/
structure SeqFrame (a : Nat) (s t : State) : Prop where
  par : t.par = s.par
  progs : t.progs = s.progs
  turn : t.turn = s.turn
  sched : t.sched = s.sched
  clock : t.clock = s.clock
  agents : t.seqs.length = s.seqs.length
  uarts : t.uarts.length = s.uarts.length
  others : ∀ b, b ≠ a → t.seq b = s.seq b

theorem SeqFrame.rfl {a : Nat} {s : State} : SeqFrame a s s :=
  ⟨.refl _, .refl _, .refl _, .refl _, .refl _, .refl _, .refl _, fun _ _ => .refl _⟩

theorem SeqFrame.modSeq (a : Nat) (s : State) (f : Seq → Seq) : SeqFrame a s (s.modSeq a f) :=
  ⟨.refl _, .refl _, .refl _, .refl _, .refl _, by simp, .refl _, fun _ hb => State.seq_modSeq_ne hb f⟩

theorem BusFrame.seq_eq {s t : State} (h : BusFrame s t) (a : Nat) : t.seq a = s.seq a := by
  simp [State.seq, h.seqs]

theorem BusFrame.then_modSeq {s t : State} (h : BusFrame s t) (a : Nat) (f : Seq → Seq) :
    SeqFrame a s (t.modSeq a f) where
  par := h.par
  progs := h.progs
  turn := h.turn
  sched := h.sched
  clock := h.clock
  agents := by simp [h.seqs]
  uarts := h.uarts
  others b hb := by rw [State.seq_modSeq_ne hb, h.seq_eq]

/-! Register accesses. -/

/-- A register read changes the state only where it reads DR (20_memory R67, R68). -/
theorem readReg_cases (i : Nat) (r : Reg) (s : State) :
    (r ≠ .dr ∧ (readReg i r s).2 = s) ∨
    (r = .dr ∧ (readReg i r s).2 =
      if (s.uart i).rb.RDR.isSome then s.modRb i RegBlock.dataRead else (s.modRb i RegBlock.dataRead).useDraw) := by
  cases r <;> simp [readReg]

/-- A register write that goes on writes TDR or one control register (20_memory R66, R68). -/
theorem writeReg_cases {i : Nat} {r : Reg} {v : Word32} {s t : State} (h : writeReg i r v s = .next t) :
    (r = .dr ∧ t = s.modRb i fun b => b.dataWrite ((v >>> s.par.layout.drPos).setWidth 9)) ∨
    (r ≠ .dr ∧ r ≠ .sr ∧ t = writeControl i r (decide (r = .brr ∨ r = .cr1 ∨ r = .cr2)) v s) := by
  cases r <;> simp [writeReg] at h ⊢ <;> exact h.symm

theorem readReg_frame (i : Nat) (r : Reg) (s : State) : BusFrame s (readReg i r s).2 := by
  obtain ⟨-, h⟩ | ⟨-, h⟩ := readReg_cases i r s
  · rw [h]; exact .rfl
  · rw [h]; split <;> exact ⟨rfl, rfl, rfl, rfl, rfl, rfl, by simp⟩

theorem writeReg_frame {i : Nat} {r : Reg} {v : Word32} {s t : State} (h : writeReg i r v s = .next t) :
    BusFrame s t := by
  obtain ⟨-, rfl⟩ | ⟨-, -, rfl⟩ := writeReg_cases h
  · exact ⟨rfl, rfl, rfl, rfl, rfl, rfl, by simp⟩
  · exact ⟨rfl, rfl, rfl, rfl, rfl, rfl, by simp [writeControl]⟩

/-- A bus read that goes on reads one register of a clocked UART, or reads 0 (20_memory R69). -/
theorem memRead_cases {addr : Word32} {n : Nat} {s t : State} {v : Word32} (h : memRead addr n s = .next (v, t)) :
    (v = 0 ∧ t = s) ∨ ∃ i r, s.par.clocked i = true ∧ locate s.par addr = some (i, r) ∧ readReg i r s = (v, t) := by
  unfold memRead at h
  split at h
  · cases h
  split at h
  · cases h
  split at h
  · cases h
  rename_i i r hl
  split at h
  · rename_i hc
    injection h with h
    exact .inr ⟨i, r, hc, hl, h⟩
  · cases h
    exact .inl ⟨rfl, rfl⟩

/-- A bus write that goes on writes one register of a clocked UART, or nothing (20_memory R69). -/
theorem memWrite_cases {addr : Word32} {n : Nat} {v : Word32} {s t : State} (h : memWrite addr n v s = .next t) :
    t = s ∨ ∃ i r, s.par.clocked i = true ∧ locate s.par addr = some (i, r) ∧ writeReg i r v s = .next t := by
  unfold memWrite at h
  split at h
  · cases h
  split at h
  · cases h
  split at h
  · cases h
  rename_i i r hl
  split at h
  · rename_i hc
    exact .inr ⟨i, r, hc, hl, h⟩
  · cases h
    exact .inl rfl

theorem regRead_frame {h : BitVec 2} {r : Reg} {s t : State} {v : Word32} (hr : regRead h r s = .next (v, t)) :
    BusFrame s t := by
  unfold regRead at hr
  split at hr
  · obtain ⟨-, rfl⟩ | ⟨i, r', -, -, he⟩ := memRead_cases hr
    · exact .rfl
    · have := readReg_frame i r' s
      rwa [he] at this
  · cases hr

theorem regWrite_frame {h : BitVec 2} {r : Reg} {v : Word32} {s t : State} (hw : regWrite h r v s = .next t) :
    BusFrame s t := by
  unfold regWrite at hw
  split at hw
  · obtain rfl | ⟨i, r', -, -, he⟩ := memWrite_cases hw
    · exact .rfl
    · exact writeReg_frame he
  · cases hw

/-! The steps of the commands. -/

/-- A hold changes at most the agent's phase (42_transfer R161, R166). -/
theorem holdUntil_cases {a : Nat} {f : Field} {ph : Phase} {s t : State} (h : holdUntil a f ph s = .next t) :
    t = s ∨ ∃ u, pollFlag (s.seq a).H f s = .next (true, u) ∧ t = u.modSeq a fun q => { q with phase := ph } := by
  unfold holdUntil at h
  obtain ⟨⟨set, u⟩, hp, he⟩ := Out.andThen_eq_next.mp h
  cases set
  · left; simpa using he.symm
  · right; exact ⟨u, hp, by simpa using he.symm⟩

theorem pollFlag_frame {h : BitVec 2} {f : Field} {s t : State} {x : Bool} (hp : pollFlag h f s = .next (x, t)) :
    BusFrame s t := by
  unfold pollFlag at hp
  obtain ⟨⟨v, u⟩, hr, he⟩ := Out.andThen_eq_next.mp hp
  cases he
  exact regRead_frame hr

theorem txWrite_cases {a : Nat} {s t : State} (h : txWrite a s = .next t) :
    ∃ u, regWrite (s.seq a).H .dr ((s.seq a).TXB.setWidth 32 <<< s.par.layout.drPos) s = .next u ∧
      t = u.modSeq a Seq.complete := by
  unfold txWrite at h
  obtain ⟨u, hw, he⟩ := Out.andThen_eq_next.mp h
  cases he
  exact ⟨u, hw, rfl⟩

theorem rxRead_cases {a : Nat} {s t : State} (h : rxRead a s = .next t) :
    ∃ v u, regRead (s.seq a).H .dr s = .next (v, u) ∧
      t = u.modSeq a fun q => (q.append (.byte ((v >>> s.par.layout.drPos).setWidth 8))).complete := by
  unfold rxRead at h
  obtain ⟨⟨v, u⟩, hw, he⟩ := Out.andThen_eq_next.mp h
  cases he
  exact ⟨v, u, hw, rfl⟩

/-- A step of INITIALIZE reads the register of its micro-step, or writes it and goes on (41_line_init R133, R134). -/
theorem initMicro_cases {a : Nat} {k : Fin 8} {r : Option Word32} {s t : State} (h : initMicro a k r s = .next t) :
    (k ≠ 0 ∧ r = none ∧ ∃ v u, regRead (s.seq a).H (initReg k) s = .next (v, u) ∧
      t = u.modSeq a fun q => { q with phase := .init k (some v) }) ∨
    (∃ v u, regWrite (s.seq a).H (initReg k) v s = .next u ∧ t = u.modSeq a (Seq.initAdvance k)) := by
  unfold initMicro at h
  split at h
  · rename_i hk
    subst hk
    obtain ⟨u, hw, he⟩ := Out.andThen_eq_next.mp h
    cases he
    exact .inr ⟨_, u, hw, rfl⟩
  · rename_i hk
    cases r with
    | none =>
      obtain ⟨⟨v, u⟩, hr, he⟩ := Out.andThen_eq_next.mp h
      cases he
      exact .inl ⟨hk, rfl, v, u, hr, rfl⟩
    | some r =>
      obtain ⟨u, hw, he⟩ := Out.andThen_eq_next.mp h
      cases he
      exact .inr ⟨_, u, hw, rfl⟩

/-- Accepting a command latches it or faults (10_state R30, 60_exceptions R202). -/
theorem acceptCommand_cases (a : Nat) (i : Instr) (enter : Seq → Seq) (s : State) :
    (acceptFault s.par i = .ok ∧ acceptCommand a i enter s =
      s.modSeq a fun q => enter { q with CMD := encode i, H := i.handle }) ∨
    (acceptFault s.par i ≠ .ok ∧ acceptCommand a i enter s = raiseFault a (encode i) (acceptFault s.par i) s) := by
  unfold acceptCommand
  split
  · exact .inl ⟨‹_›, rfl⟩
  · exact .inr ⟨‹_›, rfl⟩

/-- What acceptance of a command does to the agent beyond `CMD` and `H`. -/
def enterOf (p : Params) (i : Instr) (q : Seq) : Seq :=
  match i with
  | .resolve sel => (q.append (.resolved sel (p.base sel.toNat))).complete
  | .initLine h cfg => { q with CFG := cfg, ENC := enc p cfg (p.fclk h.toNat), phase := .init 0 none }
  | .transmit _ byte => { q with TXB := byte, phase := .txHold }
  | .receive _ => { q with phase := .rxHold }

/-- Executing a command at an idle agent is accepting it (10_state R30). -/
theorem exec_idle {s : State} {a : Nat} (ha : activeSeq s = some a) (hp : (s.seq a).phase = .idle) (i : Instr) :
    exec i s = .next (acceptCommand a i (enterOf s.par i) s) := by
  cases i <;> simp only [exec, execResolve, execInitLine, execTransmit, execReceive, ha, hp] <;> rfl

theorem activeSeq_eq_some {s : State} {a : Nat} : activeSeq s = some a ↔ s.turn = .seq a ∧ a < s.seqs.length := by
  unfold activeSeq
  constructor
  · intro h
    split at h
    · split at h
      · cases h; exact ⟨‹_›, ‹_›⟩
      · cases h
    all_goals cases h
  · rintro ⟨h1, h2⟩
    simp [h1, h2]

theorem acceptCommand_frame (a : Nat) (i : Instr) (enter : Seq → Seq) (s : State) :
    SeqFrame a s (acceptCommand a i enter s) := by
  obtain ⟨-, h⟩ | ⟨-, h⟩ := acceptCommand_cases a i enter s
  · rw [h]; exact .modSeq a s _
  · rw [h]; exact .modSeq a s _

/-- What an idle agent's step is: nothing when its stream is done, a reserved-bit fault, or the acceptance of
the command that the word decodes to. -/
theorem seqStep_idle {s t : State} {a : Nat} (ha : activeSeq s = some a) (hp : (s.seq a).phase = .idle)
    (h : seqStep a s = .next t) :
    (fetch a s = none ∧ t = s) ∨ ∃ w, fetch a s = some w ∧
      ((decode w = .error .reservedBit ∧ t = raiseFault a w .reserved s) ∨
        ∃ i, decode w = .ok i ∧ t = acceptCommand a i (enterOf s.par i) s) := by
  simp only [seqStep, hp] at h
  split at h
  · cases h; exact .inl ⟨‹_›, rfl⟩
  · rename_i w hw
    refine .inr ⟨w, hw, ?_⟩
    unfold acceptWord at h
    split at h
    · cases h; exact .inl ⟨‹_›, rfl⟩
    · rename_i i hd
      rw [exec_idle ha hp] at h
      cases h
      exact .inr ⟨i, hd, rfl⟩

/-- What an agent's step keeps (00_scope R11). -/
theorem seqStep_frame {s t : State} {a : Nat} (ha : activeSeq s = some a) (h : seqStep a s = .next t) :
    SeqFrame a s t := by
  cases hp : (s.seq a).phase with
  | idle =>
    obtain ⟨-, rfl⟩ | ⟨w, -, ⟨-, rfl⟩ | ⟨i, -, rfl⟩⟩ := seqStep_idle ha hp h
    · exact .rfl
    · exact .modSeq a s _
    · exact acceptCommand_frame a i _ s
  | init k r =>
    simp only [seqStep, hp] at h
    obtain ⟨-, -, v, u, hr, rfl⟩ | ⟨v, u, hw, rfl⟩ := initMicro_cases h
    · exact (regRead_frame hr).then_modSeq a _
    · exact (regWrite_frame hw).then_modSeq a _
  | txHold =>
    simp only [seqStep, hp] at h
    obtain rfl | ⟨u, hu, rfl⟩ := holdUntil_cases h
    · exact .rfl
    · exact (pollFlag_frame hu).then_modSeq a _
  | txWrite =>
    simp only [seqStep, hp] at h
    obtain ⟨u, hw, rfl⟩ := txWrite_cases h
    exact (regWrite_frame hw).then_modSeq a _
  | rxHold =>
    simp only [seqStep, hp] at h
    obtain rfl | ⟨u, hu, rfl⟩ := holdUntil_cases h
    · exact .rfl
    · exact (pollFlag_frame hu).then_modSeq a _
  | rxRead =>
    simp only [seqStep, hp] at h
    obtain ⟨v, u, hr, rfl⟩ := rxRead_cases h
    exact (regRead_frame hr).then_modSeq a _
  | faulted =>
    simp only [seqStep, hp] at h
    cases h
    exact .rfl

/-! The peripheral agent's steps. -/

/-- What every step of UART `i`'s peripheral agent keeps: all but that UART and the count of draws. -/
structure PerFrame (i : Nat) (s t : State) : Prop where
  par : t.par = s.par
  progs : t.progs = s.progs
  seqs : t.seqs = s.seqs
  turn : t.turn = s.turn
  sched : t.sched = s.sched
  clock : t.clock = s.clock
  uarts : t.uarts.length = s.uarts.length
  others : ∀ j, j ≠ i → t.uart j = s.uart j

theorem PerFrame.rfl {i : Nat} {s : State} : PerFrame i s s :=
  ⟨.refl _, .refl _, .refl _, .refl _, .refl _, .refl _, .refl _, fun _ _ => .refl _⟩

theorem PerFrame.modUart (i : Nat) (s : State) (f : Uart → Uart) : PerFrame i s (s.modUart i f) :=
  ⟨.refl _, .refl _, .refl _, .refl _, .refl _, .refl _, by simp, fun _ hj => State.uart_modUart_ne hj f⟩

theorem PerFrame.modUart_useDraw (i : Nat) (s : State) (f : Uart → Uart) : PerFrame i s (s.modUart i f).useDraw :=
  ⟨.refl _, .refl _, .refl _, .refl _, .refl _, .refl _, by simp, fun _ hj => State.uart_modUart_ne hj f⟩

theorem txLoad_frame (i : Nat) (s : State) : PerFrame i s (txLoad i s) := by
  unfold txLoad; split
  · exact .modUart i s _
  · exact .rfl

theorem txFinish_frame (i : Nat) (s : State) : PerFrame i s (txFinish i s) := by
  unfold txFinish; split
  · split
    · exact .rfl
    · exact .modUart_useDraw i s _
  · exact .rfl

theorem rxFrame_frame (i : Nat) (s : State) : PerFrame i s (rxFrame i s) := by
  unfold rxFrame; split
  · exact .modUart_useDraw i s _
  · exact .rfl

theorem lineFlags_frame (i : Nat) (s : State) : PerFrame i s (lineFlags i s) := by
  unfold lineFlags; split
  · exact .modUart_useDraw i s _
  · exact .rfl

/-! A step of the block. -/

/-- A step is the move of the agent whose turn it is, then the next turn. -/
theorem step_eq_next {s t : State} : step s = .next t ↔ ∃ u, runTurn s = .next u ∧ t = nextTurn u := by
  unfold step
  rw [Out.andThen_eq_next]
  constructor
  · rintro ⟨u, h1, h2⟩; cases h2; exact ⟨u, h1, rfl⟩
  · rintro ⟨u, h1, rfl⟩; exact ⟨u, h1, rfl⟩

/-- Everything a move can be (00_scope R11). -/
theorem runTurn_cases {s t : State} (h : runTurn s = .next t) :
    (∃ a, activeSeq s = some a ∧ seqStep a s = .next t) ∨
    (∃ a, s.turn = .seq a ∧ s.seqs.length ≤ a ∧ t = s) ∨
    (∃ i, s.turn = .txLoad i ∧ t = txLoad i s) ∨
    (∃ i, s.turn = .txFinish i ∧ t = txFinish i s) ∨
    (∃ i, s.turn = .rxFrame i ∧ t = rxFrame i s) ∨
    (∃ i, s.turn = .lineFlags i ∧ t = lineFlags i s) := by
  unfold runTurn at h
  split at h
  · rename_i a ht
    split at h
    · exact .inl ⟨a, activeSeq_eq_some.mpr ⟨ht, ‹_›⟩, h⟩
    · cases h; exact .inr (.inl ⟨a, ht, Nat.not_lt.mp ‹_›, rfl⟩)
  · cases h; exact .inr (.inr (.inl ⟨_, ‹_›, rfl⟩))
  · cases h; exact .inr (.inr (.inr (.inl ⟨_, ‹_›, rfl⟩)))
  · cases h; exact .inr (.inr (.inr (.inr (.inl ⟨_, ‹_›, rfl⟩))))
  · cases h; exact .inr (.inr (.inr (.inr (.inr ⟨_, ‹_›, rfl⟩))))

end Sys2Proof.Machine
end

