-- ==== Sys2Proof/Laws/Agents.lean ====
section
/-! SUPPORT. What an agent's step does to the register blocks, and that register accesses of a UART that
exists do not stop. -/

namespace Sys2Proof.Machine

/-- A command that passes the checks names a UART that exists (60_exceptions R201 check 2). -/
theorem handle_lt_of_acceptFault {p : Params} {i : Instr} (h : acceptFault p i = .ok) : i.handle.toNat < p.nInst := by
  unfold acceptFault at h
  split at h
  · cases h
  · rename_i hn
    simpa [Instr.handleOk] using hn

/-- What acceptance of a command leaves of the agent. -/
theorem enterOf_keeps (p : Params) (i : Instr) (q : Seq) :
    (enterOf p i q).CMD = q.CMD ∧ (enterOf p i q).H = q.H ∧ (enterOf p i q).FAULT = q.FAULT ∧
      (enterOf p i q).phase ≠ .faulted := by
  cases i <;> simp [enterOf]

theorem initReg_ne (k : Fin 8) : initReg k ≠ .sr ∧ initReg k ≠ .dr := by
  fin_cases k <;> simp [initReg]

/-- A register read of a UART that exists goes on (20_memory R66 to R69). -/
theorem regRead_next {s : State} (hp : s.par.wf = true) {h : BitVec 2} (hh : h.toNat < s.par.nInst) (r : Reg) :
    ∃ v t, regRead h r s = .next (v, t) := by
  rw [regRead_eq hp hh]; exact ⟨_, _, rfl⟩

/-- A register write of a UART that exists goes on, but for SR (20_memory R66 to R69). -/
theorem regWrite_next {s : State} (hp : s.par.wf = true) {h : BitVec 2} (hh : h.toNat < s.par.nInst) {r : Reg}
    (hr : r ≠ .sr) (v : Word32) : ∃ t, regWrite h r v s = .next t := by
  rw [regWrite_eq hp hh]; split
  · cases r <;> simp [writeReg] at hr ⊢
  · exact ⟨_, rfl⟩

/-- Everything a register write of the block does to the state (20_memory R66, R68, R69). -/
theorem regWrite_cases {s t : State} (hp : s.par.wf = true) {h : BitVec 2} (hh : h.toNat < s.par.nInst) {r : Reg}
    {v : Word32} (hw : regWrite h r v s = .next t) :
    t = s ∨
    (s.par.clocked h.toNat = true ∧ r = .dr ∧
      t = s.modRb h.toNat fun b => b.dataWrite ((v >>> s.par.layout.drPos).setWidth 9)) ∨
    (s.par.clocked h.toNat = true ∧ r ≠ .dr ∧ r ≠ .sr ∧
      t = writeControl h.toNat r (decide (r = .brr ∨ r = .cr1 ∨ r = .cr2)) v s) := by
  rw [regWrite_eq hp hh] at hw
  split at hw
  · rename_i hc
    obtain ⟨h1, h2⟩ | ⟨h1, h2, h3⟩ := writeReg_cases hw
    · exact .inr (.inl ⟨hc, h1, h2⟩)
    · exact .inr (.inr ⟨hc, h1, h2, h3⟩)
  · cases hw; exact .inl rfl

/-- Everything a register read of the block does to the UARTs (20_memory R67 to R69). -/
theorem regRead_cases {s t : State} (hp : s.par.wf = true) {h : BitVec 2} (hh : h.toNat < s.par.nInst) {r : Reg}
    {v : Word32} (hw : regRead h r s = .next (v, t)) :
    t.uarts = s.uarts ∨
    (s.par.clocked h.toNat = true ∧ r = .dr ∧ t.uarts = (s.modRb h.toNat RegBlock.dataRead).uarts) := by
  rw [regRead_eq hp hh] at hw
  split at hw
  · rename_i hc
    injection hw with hw
    obtain ⟨h1, h2⟩ | ⟨h1, h2⟩ := readReg_cases h.toNat r s
    · rw [hw] at h2; simp at h2; subst h2; exact .inl rfl
    · rw [hw] at h2; right; refine ⟨hc, h1, ?_⟩
      simp at h2; subst h2; split <;> rfl
  · injection hw with hw; injection hw with h1 h2; subst h2; exact .inl rfl

/-- The register blocks after a control write (20_memory R68). -/
theorem writeControl_rb (s : State) (i j : Nat) (r : Reg) (m : Bool) (v : Word32) :
    ((writeControl i r m v s).uart j).rb =
      if j = i ∧ i < s.uarts.length then writeFields s.par.layout (s.uart i).rb r v else (s.uart j).rb := by
  unfold writeControl
  rw [State.uart_modUart_eq]
  split
  · cases m <;> simp [Uart.markCorrupt]
    split <;> rfl
  · rfl

/-- Everything a sequencer agent's step can do to a register block (20_memory R66 to R68). -/
inductive RbStep (L : Layout) (b : RegBlock) : RegBlock → Prop
  | same : RbStep L b b
  | dataWrite (v : BitVec 9) : RbStep L b (b.dataWrite v)
  | dataRead : RbStep L b b.dataRead
  | control (r : Reg) (v : Word32) : r ≠ .sr → r ≠ .dr → RbStep L b (writeFields L b r v)

theorem RbStep.modRb (s : State) (i j : Nat) (f : RegBlock → RegBlock)
    (hf : RbStep s.par.layout (s.uart i).rb (f (s.uart i).rb)) :
    RbStep s.par.layout (s.uart j).rb ((s.modRb i f).uart j).rb := by
  rw [State.uart_modRb_eq]; split
  · rename_i h; obtain ⟨rfl, -⟩ := h; exact hf
  · exact .same

theorem RbStep.writeControl (s : State) (i j : Nat) (r : Reg) (m : Bool) (v : Word32) (h1 : r ≠ .sr) (h2 : r ≠ .dr) :
    RbStep s.par.layout (s.uart j).rb ((Machine.writeControl i r m v s).uart j).rb := by
  rw [writeControl_rb]; split
  · rename_i h; obtain ⟨rfl, -⟩ := h; exact .control r v h1 h2
  · exact .same

theorem regWrite_rb {s t : State} (hp : s.par.wf = true) {h : BitVec 2} (hh : h.toNat < s.par.nInst) {r : Reg}
    {v : Word32} (hw : regWrite h r v s = .next t) (j : Nat) : RbStep s.par.layout (s.uart j).rb (t.uart j).rb := by
  obtain rfl | ⟨-, -, rfl⟩ | ⟨-, h1, h2, rfl⟩ := regWrite_cases hp hh hw
  · exact .same
  · exact .modRb _ _ _ _ (.dataWrite _)
  · exact .writeControl _ _ _ _ _ _ h2 h1

theorem regRead_rb {s t : State} (hp : s.par.wf = true) {h : BitVec 2} (hh : h.toNat < s.par.nInst) {r : Reg}
    {v : Word32} (hw : regRead h r s = .next (v, t)) (j : Nat) :
    RbStep s.par.layout (s.uart j).rb (t.uart j).rb := by
  obtain hu | ⟨-, -, hu⟩ := regRead_cases hp hh hw
  · simp only [State.uart, hu]; exact .same
  · have hj : t.uart j = (s.modRb h.toNat RegBlock.dataRead).uart j := by simp [State.uart, hu]
    rw [hj]; exact .modRb _ _ _ _ .dataRead

/-- A poll changes nothing, and returns a flag of a clocked UART (20_memory R68, R69). -/
theorem pollFlag_cases {s t : State} (hp : s.par.wf = true) {h : BitVec 2} (hh : h.toNat < s.par.nInst) {f : Field}
    {x : Bool} (hf : f ∈ Reg.sr.fields) (hx : pollFlag h f s = .next (x, t)) :
    t = s ∧ (x = true → s.par.clocked h.toNat = true ∧ (s.uart h.toNat).rb.get f = 1) := by
  rw [pollFlag_eq hp hh hf] at hx
  injection hx with hx; injection hx with h1 h2
  subst h1 h2
  simp

/-- What a sequencer agent's step does to each register block. -/
theorem seqStep_rb {s t : State} {a : Nat} (hw : s.Wf) (ha : activeSeq s = some a) (h : seqStep a s = .next t)
    (j : Nat) : RbStep s.par.layout (s.uart j).rb (t.uart j).rb := by
  obtain ⟨hta, hal⟩ := activeSeq_eq_some.mp ha
  have hh := hw.handles a hal
  cases hp : (s.seq a).phase with
  | idle =>
    obtain ⟨-, rfl⟩ | ⟨w, -, ⟨-, rfl⟩ | ⟨i, -, rfl⟩⟩ := seqStep_idle ha hp h
    · exact .same
    · exact .same
    · obtain ⟨-, h1⟩ | ⟨-, h1⟩ := acceptCommand_cases a i (enterOf s.par i) s <;> rw [h1] <;> exact .same
  | init k r =>
    have hh := hh (by rw [hp]; rfl)
    simp only [seqStep, hp] at h
    obtain ⟨-, -, v, u, hr, rfl⟩ | ⟨v, u, hwr, rfl⟩ := initMicro_cases h
    · exact regRead_rb hw.params hh hr j
    · exact regWrite_rb hw.params hh hwr j
  | txHold =>
    have hh := hh (by rw [hp]; rfl)
    simp only [seqStep, hp] at h
    obtain rfl | ⟨u, hu, rfl⟩ := holdUntil_cases h
    · exact .same
    · obtain ⟨rfl, -⟩ := pollFlag_cases hw.params hh (by decide) hu; exact .same
  | txWrite =>
    have hh := hh (by rw [hp]; rfl)
    simp only [seqStep, hp] at h
    obtain ⟨u, hwr, rfl⟩ := txWrite_cases h
    exact regWrite_rb hw.params hh hwr j
  | rxHold =>
    have hh := hh (by rw [hp]; rfl)
    simp only [seqStep, hp] at h
    obtain rfl | ⟨u, hu, rfl⟩ := holdUntil_cases h
    · exact .same
    · obtain ⟨rfl, -⟩ := pollFlag_cases hw.params hh (by decide) hu; exact .same
  | rxRead =>
    have hh := hh (by rw [hp]; rfl)
    simp only [seqStep, hp] at h
    obtain ⟨v, u, hwr, rfl⟩ := rxRead_cases h
    exact regRead_rb hw.params hh hwr j
  | faulted =>
    simp only [seqStep, hp] at h; cases h; exact .same

/-- A data-register write changes no field but TXE and TC (20_memory R66). -/
theorem get_dataWrite (b : RegBlock) (v : BitVec 9) {f : Field} (h1 : f ≠ .TXE) (h2 : f ≠ .TC) :
    (b.dataWrite v).get f = b.get f := by
  cases f <;> first | rfl | contradiction

/-- A data-register read changes no field outside SR (20_memory R67). -/
theorem get_dataRead (b : RegBlock) {f : Field} (h : f ∉ Reg.sr.fields) : b.dataRead.get f = b.get f := by
  cases f <;> first | rfl | (exfalso; revert h; decide)

/-- A sequencer agent's step sets no TXE and no RXNE, and clears TXE only with a byte for TDR; RDR stays
(20_memory R66 to R68, 10_state R23). -/
theorem RbStep.flags {L : Layout} {b b' : RegBlock} (h : RbStep L b b') :
    (b'.TXE = b.TXE ∨ (b'.TXE = 0 ∧ b'.TDR.isSome = true)) ∧ (b'.RXNE = b.RXNE ∨ b'.RXNE = 0) ∧
      (b'.TDR = b.TDR ∨ b'.TDR.isSome = true) ∧ b'.RDR = b.RDR := by
  cases h with
  | same => simp
  | dataWrite v => simp [RegBlock.dataWrite]
  | dataRead => simp [RegBlock.dataRead]
  | control r v h1 h2 =>
    have k : ∀ f ∈ Reg.sr.fields, (writeFields L b r v).get f = b.get f := by
      intro f hf
      rw [get_writeFields, if_neg]
      rw [mem_fields_iff] at hf ⊢
      rw [hf]; exact fun h => h1 h.symm
    have k1 := setWidth_inj (by decide) (k .TXE (by decide))
    have k2 := setWidth_inj (by decide) (k .RXNE (by decide))
    simp [k1, k2]

/-- What the environment's move does to a register block. -/
theorem lineFlags_cases (i : Nat) (s : State) :
    (s.par.clocked i = false ∧ lineFlags i s = s) ∨
    (s.par.clocked i = true ∧ ∃ v, lineFlags i s = (s.modRb i fun b => b.lineFlags v).useDraw) := by
  unfold lineFlags; split
  · exact .inr ⟨‹_›, _, rfl⟩
  · exact .inl ⟨Bool.eq_false_iff.mpr ‹_›, rfl⟩

/-- The environment's move changes only NE, IDLE, LBD and CTS (10_state R22). -/
theorem lineFlags_uart (i j : Nat) (s : State) :
    ∃ ne idle lbd cts, (lineFlags i s).uart j =
      { s.uart j with rb := { (s.uart j).rb with NE := ne, IDLE := idle, LBD := lbd, CTS := cts } } := by
  have keep : ∃ ne idle lbd cts, s.uart j =
      { s.uart j with rb := { (s.uart j).rb with NE := ne, IDLE := idle, LBD := lbd, CTS := cts } } :=
    ⟨(s.uart j).rb.NE, (s.uart j).rb.IDLE, (s.uart j).rb.LBD, (s.uart j).rb.CTS, rfl⟩
  obtain ⟨-, h⟩ | ⟨-, v, h⟩ := lineFlags_cases i s
  · rw [h]; exact keep
  · rw [h, State.uart_useDraw, State.modRb, State.uart_modUart_eq]
    split
    · rename_i hj; obtain ⟨rfl, -⟩ := hj
      exact ⟨_, _, _, _, rfl⟩
    · exact keep

end Sys2Proof.Machine
end

