-- ==== Sys2Proof/Laws/PerInstr.lean ====
section
/-! SUPPORT. Statements about every command as syntax, one lemma per constructor. -/

namespace Sys2Proof.Laws.TableRow

/-- The mask of a command's row in the opcode map (30_encoding R88). -/
def mask : Instr → CmdWord
  | .resolve _ => 0xFFF3
  | .initLine _ _ => 0xE003
  | .transmit _ _ => 0xF003
  | .receive _ => 0xFFF3

/-- The match value of a command's row in the opcode map (30_encoding R88). -/
def value : Instr → CmdWord
  | .resolve _ => 0x0000
  | .initLine _ _ => 0x0001
  | .transmit _ _ => 0x0002
  | .receive _ => 0x0003

/-- The word of a command matches the command's row of the opcode map (30_encoding R88). -/
def Statement (i : Instr) : Prop := encode i &&& mask i = value i

theorem resolve (sel : BitVec 2) : Statement (.resolve sel) := by
  revert sel; unfold Statement; decide

theorem initLine (h : BitVec 2) (cfg : BitVec 9) : Statement (.initLine h cfg) := by
  show (0#3 ++ cfg ++ h ++ 0b01#2 : BitVec 16) &&& 0xE003 = 0x0001
  ext k hk
  simp only [BitVec.getElem_and, BitVec.getElem_append]
  interval_cases k <;> simp

theorem transmit (h : BitVec 2) (byte : Byte) : Statement (.transmit h byte) := by
  show (0#4 ++ byte ++ h ++ 0b10#2 : BitVec 16) &&& 0xF003 = 0x0002
  ext k hk
  simp only [BitVec.getElem_and, BitVec.getElem_append]
  interval_cases k <;> simp

theorem receive (h : BitVec 2) : Statement (.receive h) := by
  revert h; unfold Statement; decide

end Sys2Proof.Laws.TableRow
end

