-- ==== Sys2Proof/Tests/Slice0.lean ====
section
/-! SUPPORT. The model's own tests: the checks of WellFormed on ill-formed terms, words written out from the
patterns of 30_encoding R81, the spec's test vectors, and a witness for the hypotheses of every statement.
A test's comment names where its expected value comes from. -/

namespace Sys2Proof.Tests

open Sys2Proof.Machine

/-! ## Small states -/

/-- Two agents; UART 0 external at 8 MHz, UART 1 unclocked, UART 2 looped back from UART 0. -/
def par : Params :=
  { Params.default with
    insts := [.atBase 0x40013800, { InstParams.atBase 0x40004400 with clocked := false },
      { InstParams.atBase 0x40004800 with rxSource := .loopback 0 }]
    nAgents := 2 }

/-- Agent 0 in phase `p` and agent 1 in phase `q`, both with handle `h`; agent 0's stream is `ws`; UARTs 0 and 2
are as `u`; agent 0 moves. -/
def st (p q : Phase) (h : BitVec 2) (u : Uart) (ws : List CmdWord) : State :=
  { State.launch par [ws, []] with
    uarts := [u, Uart.reset 1, u]
    seqs := [{ Seq.reset with phase := p, H := h, FAULT := if p = .faulted then .badHandle else .ok },
      { Seq.reset with phase := q, H := h, FAULT := if q = .faulted then .badHandle else .ok }] }

/-- A UART as reset leaves it. -/
def u0 : Uart := Uart.reset 1

/-- A UART enabled at 8N1 9600 (95_test_vectors L2.4 A). -/
def on : Uart := { u0 with rb := { u0.rb with BRR := 0x341, TE := 1, RE := 1, UE := 1 } }

/-- That UART with 0x41 in TDR. -/
def full : Uart := { on with rb := { on.rb with TDR := some 0x41, TXE := 0, TC := 0 } }

/-- That UART with 0x41 received. -/
def got : Uart := { on with rb := { on.rb with RDR := some 0x41, RXNE := 1 } }

/-- That UART with the frame of 0x41 in the shift logic. -/
def busy : Uart := { on with sh := .busy (some 0x41) ⟨0, 0, 0, 0, 0x341⟩ false }

/-- That UART with a corrupt frame in the shift logic. -/
def bad : Uart := { on with sh := .busy (some 0x41) ⟨0, 1, 0, 0, 0x341⟩ true }

theorem par_wf : par.wf = true := by decide

/-- The states above are well formed when their handle is. -/
theorem st_wf (p q : Phase) (h : BitVec 2) (u : Uart) (ws : List CmdWord) (hh : h.toNat < 3) : (st p q h u ws).Wf where
  params := par_wf
  agents := rfl
  streams := rfl
  uarts := rfl
  handles
    | 0, _, _ => hh
    | 1, _, _ => hh
  faults
    | 0, _ => by show (if p = .faulted then FaultCode.badHandle else .ok) = .ok ↔ p ≠ .faulted; split <;> simp [*]
    | 1, _ => by show (if q = .faulted then FaultCode.badHandle else .ok) = .ok ↔ q ≠ .faulted; split <;> simp [*]

/-- One step of agent 0, by the phase and fault code it leaves. -/
def after (s : State) : Option (Phase × FaultCode) :=
  (Out.value (step s)).map fun t => ((t.seq 0).phase, (t.seq 0).FAULT)

/-! ## Well-formedness: ill-formed terms are refused -/

theorem test_wf_handle : Instr.wf 3 (.receive 3) = false ∧ Instr.wf 3 (.receive 2) = true := by decide

theorem test_wf_parity : Instr.wf 3 (.initLine 0 0x00C) = false ∧ Instr.wf 3 (.initLine 0 0x008) = true := by decide

theorem test_wf_layout_fit : Layout.wf { Layout.reference with drPos := 24 } = false := by decide

theorem test_wf_layout_apart :
    Layout.wf { Layout.reference with pos := (.UE, 12) :: Layout.reference.pos } = false := by decide

theorem test_wf_layout_offsets :
    Layout.wf { Layout.reference with offDR := 0x06 } = false ∧
      Layout.wf { Layout.reference with offDR := 0x00 } = false ∧
      Layout.wf { Layout.reference with window := 0x18 } = false := by decide

theorem test_wf_layout_stops : Layout.wf { Layout.reference with stopTwo := 0b00 } = false := by decide

theorem test_wf_instance :
    Params.wf { par with insts := [.atBase 0x40013802] } = false ∧
      Params.wf { par with insts := [.atBase 0xFFFFFFF0] } = false ∧
      Params.wf { par with insts := [{ InstParams.atBase 0x40013800 with fclk := 0 }] } = false ∧
      Params.wf { par with insts := [{ InstParams.atBase 0x40013800 with rxSource := .loopback 1 }] } = false := by
  decide

theorem test_wf_windows : Params.wf { par with insts := [.atBase 0x40013800, .atBase 0x40013818] } = false := by decide

theorem test_wf_counts :
    Params.wf { par with insts := [] } = false ∧ Params.wf { par with nAgents := 0 } = false := by decide

theorem test_wf_default : Params.wf Params.default = true := by decide

/-! ## Decoding: words written out bit by bit from 30_encoding R81 -/

/-- Patterns `000000000000ss00`, `000ccccccccchh01`, `0000bbbbbbbbhh10`, `000000000000hh11`. -/
theorem test_decode_patterns :
    decode 0b0000000000001000 = .ok (.resolve 0b10) ∧
      decode 0b0001010110110101 = .ok (.initLine 0b01 0b101011011) ∧
      decode 0b0000100000001010 = .ok (.transmit 0b10 0b10000000) ∧
      decode 0b0000000000000111 = .ok (.receive 0b01) := ⟨rfl, rfl, rfl, rfl⟩

/-- 95_test_vectors L2.1, the words with a reserved bit set. -/
theorem test_decode_reserved :
    [0x0010, 0x8000, 0x2001, 0xE001, 0x1002, 0x1FF2, 0x0013, 0xFFFF].all
      (fun w => decodeTableWord 16 w = none) = true := by decide

/-- 95_test_vectors L2.1, the fault of each word at acceptance. -/
theorem test_acceptance_codes :
    [0x000C, 0x0010, 0x000D, 0x1001, 0x00C1, 0x00CD, 0x080A, 0x1FF2, 0x000F, 0xFFFF].map
      (fun w => (acceptanceCode Params.default (BitVec.ofNat 16 w)).num) = [2, 1, 2, 0, 3, 2, 0, 1, 2, 1] := by decide

/-- The assembler's configuration form (30_encoding R92, R94). -/
theorem test_config_pack :
    (LineConfig.mk .rtsCts .odd .b115200 .two .bits9).pack = 0x15B ∧
      LineConfig.unpack 0x0A6 = some ⟨.cts, .even, .b57600, .half, .bits8⟩ ∧ LineConfig.unpack 0x00C = none := by
  decide

/-! ## One step each -/

/-- 95_test_vectors L2.2. -/
theorem test_resolve :
    (Out.value (step (State.reset.withFetchWord 16 0x0008))).map (fun t => ((t.seq 0).RES, (t.seq 0).next)) =
      some ([.resolved 2 0x40004800], 1) := by decide

/-- 95_test_vectors L2.1 and 60_exceptions R202. -/
theorem test_resolve_bad_handle :
    after (State.reset.withFetchWord 16 0x000C) = some (.faulted, .badHandle) := by decide

/-- 95_test_vectors L2.3, configuration C, under both policies. -/
theorem test_encoder :
    enc Params.default 0x0A6 8000000 = ⟨0x08B, 0, 1, 0, 0b01, 0, 1⟩ ∧
      (enc { Params.default with wlPolicy := .autoExtend } 0x0A6 8000000).m = 1 := by decide

/-- 95_test_vectors L2.3, the divisor range and its ties. -/
theorem test_divisor_range :
    divisorOk 1785599 0x010 = false ∧ divisorOk 1785600 0x010 = true ∧ divisorOk 629140799 0x000 = true ∧
      divisorOk 629140800 0x000 = false := by decide

/-- 95_test_vectors L2.4, the trace of 0x15B1, step 8: CR2 read as 0 is written 0x2000. -/
theorem test_init_micro_step :
    (Out.value (step ((st (.init 3 (some 0)) .idle 0 u0 []).modSeq 0 fun q => { q with ENC := enc par 0x15B 8000000 }))).map
      (fun t => (peekWord t 0 .cr2, (t.seq 0).phase)) = some (some 0x2000, .init 4 none) := by decide

/-- 95_test_vectors L2.4, the last step of the same trace: CR1 ends as 0x360C and the command completes. -/
theorem test_init_last_step :
    (Out.value (step (st (.init 7 (some 0x160C)) .idle 0 u0 []))).map
      (fun t => (peekWord t 0 .cr1, (t.seq 0).phase, (t.seq 0).next)) = some (some 0x360C, .idle, 1) := by decide

/-- 42_transfer R160, its example. -/
theorem test_transmit_write :
    (Out.value (step ((st .txWrite .idle 0 on []).modSeq 0 fun q => { q with TXB := 0x41 }))).map
      (fun t => ((t.uart 0).rb.TDR, (t.uart 0).rb.TXE, (t.uart 0).rb.TC, (t.seq 0).phase)) =
      some (some 0x041, 0, 0, .idle) := by decide

/-- 42_transfer R161: with TXE = 0 the agent holds. -/
theorem test_transmit_holds : after (st .txHold .idle 0 full []) = some (.txHold, .ok) := by decide

/-- 42_transfer R165, its example. -/
theorem test_receive_read :
    (Out.value (step (st .rxRead .idle 0 got []))).map (fun t => ((t.seq 0).RES, (t.uart 0).rb.RXNE)) =
      some ([.byte 0x41], 0) := by decide

/-- 42_transfer R168: a never-initialized UART lets RECEIVE hold. -/
theorem test_receive_holds : after (st .rxHold .idle 0 u0 []) = some (.rxHold, .ok) := by decide

/-- 42_transfer R180. -/
theorem test_tx_load :
    (Out.value (step ((st .idle .idle 0 full []).withTurn (.txLoad 0)))).map
      (fun t => ((t.uart 0).sh, (t.uart 0).rb.TXE, (t.uart 0).rb.TC)) =
      some (.busy (some 0x41) ⟨0, 0, 0, 0, 0x341⟩ false, 1, 0) := by decide

/-- 42_transfer R160's example and R181. -/
theorem test_tx_finish :
    (Out.value (step ((st .idle .idle 0 busy []).withTurn (.txFinish 0)))).map
      (fun t => ((t.uart 0).wire, (t.uart 0).rb.TC)) = some ([.frame 0x41 8 .off 0b00 0x341], 1) := by decide

/-- 95_test_vectors L1.2: 9E1, the byte 0xFF has parity bit 0. By hand: 8E1, 0x43 has three ones in seven bits. -/
theorem test_frame_parity :
    frame 0x0FF ⟨1, 1, 0, 0, 0x341⟩ = .frame 0x0FF 9 .even 0 0x341 ∧
      frame 0x043 ⟨0, 1, 0, 0, 0x341⟩ = .frame 0x0C3 8 .even 0 0x341 := by decide

/-- 42_transfer R182: the second frame while RXNE = 1 is lost and sets ORE. -/
theorem test_rx_overrun :
    (Out.value (step ((st .idle .idle 0 got []).withTurn (.rxFrame 0)))).map
      (fun t => ((t.uart 0).rb.RDR, (t.uart 0).rb.ORE)) = some (some 0x41, 1) := by decide

/-- 42_transfer R184: writing M = 1 while an 8-bit frame is in flight marks it. -/
theorem test_corrupt_mark :
    (Out.value (regWrite 0 .cr1 0x300C (st .idle .idle 0 busy []))).map (fun t => (t.uart 0).sh) =
      some (.busy (some 0x41) ⟨0, 0, 0, 0, 0x341⟩ true) := by decide

/-- The model's own conditions on parameters that R8 and R60 leave open (log 21): a window up to the last address. -/
theorem test_wf_last_window :
    Params.wf { par with insts := [.atBase 0xFFFFFFE4] } = true ∧
      Params.wf { par with insts := [.atBase 0xFFFFFFE8] } = false := by decide

/-- 20_memory R71 on 70_reset_and_hazards R230's word of SR. -/
theorem test_byte_order :
    peekByte State.reset 0x40013800 = some 0xC0 ∧ peekByte State.reset 0x40013801 = some 0 ∧
      peekByte State.reset 0x40013804 = none ∧ peekByte State.reset 0x40013820 = none := by decide

/-! ## Witnesses: the hypotheses of each statement hold together in a concrete state -/

/-- EncodeDecodeRoundTrip. -/
theorem wit_EncodeDecodeRoundTrip : decode 0x15B5 = .ok (.initLine 1 0x15B) := rfl

/-- OpcodeMapDecides: each row, and a word of no row. -/
theorem wit_OpcodeMapDecides :
    (0x000C : CmdWord) &&& 0xFFF3 = 0 ∧ (0x1FFD : CmdWord) &&& 0xE003 = 1 ∧ (0x0FFE : CmdWord) &&& 0xF003 = 2 ∧
      (0x000F : CmdWord) &&& 0xFFF3 = 3 ∧ decode 0x1002 = .error .reservedBit := ⟨rfl, rfl, rfl, rfl, rfl⟩

/-- ConfigPackUnpack. -/
theorem wit_ConfigPackUnpack :
    LineConfig.unpack 0x1FB = some ⟨.rtsCts, .odd, .b38400, .oneAndHalf, .bits9⟩ ∧
      (0x00C : BitVec 9).extractLsb' 2 2 = 3#2 := by decide

/-- AcceptanceChecksInOrder and FaultEntryIsPrecise: an idle agent, and words that meet each check alone and that
meet several. -/
theorem wit_AcceptanceChecksInOrder :
    (st .idle .idle 0 u0 []).turn = .seq 0 ∧ 0 < (st .idle .idle 0 u0 []).seqs.length ∧
      ((st .idle .idle 0 u0 []).seq 0).phase = .idle ∧
      [0x0010, 0xFFFF, 0x000C, 0x00CD, 0x00C1, 0x0008, 0x1FB9, 0x0FFA, 0x000B].map
        (fun w => acceptanceCode par (BitVec.ofNat 16 w)) =
        [.reserved, .reserved, .badHandle, .badHandle, .badParity, .ok, .ok, .ok, .ok] ∧
      acceptanceCode { par with insts := [{ InstParams.atBase 0x40013800 with fclk := 1785599 }] } 0x0101 = .brrRange := by
  decide

/-- FaultEntryIsPrecise, the second part: a step of an agent inside a command. -/
theorem wit_FaultEntryIsPrecise :
    (∃ t, step (st .rxRead .idle 0 got []) = .next t) ∧ ((st .rxRead .idle 0 got []).seq 0).phase ≠ .idle :=
  ⟨⟨_, rfl⟩, by decide⟩

/-- FaultIsSticky: a faulted agent, its step, another agent. -/
theorem wit_FaultIsSticky :
    ((st .faulted .idle 0 u0 []).seq 0).phase = .faulted ∧ 0 < (st .faulted .idle 0 u0 []).seqs.length ∧
      (∃ t, step (st .faulted .idle 0 u0 []) = .next t) ∧ (1 : Nat) ≠ 0 :=
  ⟨rfl, by decide, ⟨_, rfl⟩, by decide⟩

/-- ExecOutsideItsCommandStops: a turn of no agent of the list, and an agent in each kind of phase. -/
theorem wit_ExecOutsideItsCommandStops :
    activeSeq ((st .idle .idle 0 u0 []).withTurn (.seq 2)) = none ∧
      activeSeq ((st .idle .idle 0 u0 []).withTurn (.txLoad 0)) = none ∧
      (st .txHold .idle 0 u0 []).turn = .seq 0 ∧ ((st .txHold .idle 0 u0 []).seq 0).phase.busy = true ∧
      ((st .rxRead .idle 0 u0 []).seq 0).phase ∈ [Phase.txHold, .txWrite, .rxHold, .rxRead] ∧
      ((st (.init 7 none) .idle 0 u0 []).seq 0).phase = .init 7 none := by decide

/-- ResolveEffect: the largest legal selector, the smallest illegal one, and a reserved word. -/
theorem wit_ResolveEffect :
    (st .idle .idle 0 u0 []).turn = .seq 0 ∧ 0 < (st .idle .idle 0 u0 []).seqs.length ∧
      ((st .idle .idle 0 u0 []).seq 0).phase = .idle ∧ (2 : BitVec 2).toNat < par.nInst ∧
      par.nInst ≤ (3 : BitVec 2).toNat ∧ (0x001C : CmdWord).extractLsb' 0 2 = 0b00#2 ∧
      (0x001C : CmdWord) &&& 0xFFF0 ≠ 0 := by decide

/-- EncoderFollowsEnumerators. -/
theorem wit_EncoderFollowsEnumerators :
    par.layout = Layout.reference ∧ encStop Layout.reference 0x040 = encStop Layout.reference 0x140 := by decide

/-- BaudErrorBound: a divisor of 15 (only the first bound), of 16 and of 25. -/
theorem wit_BaudErrorBound :
    divisor 1785599 0x010 = 15 ∧ divisor 1785600 0x010 = 16 ∧ divisor 240000 0x000 = 25 := by decide

/-- InitAcceptance at the smallest and the largest legal divisor (95_test_vectors L2.3). -/
theorem wit_InitAcceptance :
    (st .idle .idle 0 u0 []).turn = .seq 0 ∧ 0 < (st .idle .idle 0 u0 []).seqs.length ∧
      ((st .idle .idle 0 u0 []).seq 0).phase = .idle ∧ (2 : BitVec 2).toNat < par.nInst ∧ cfgPar 0x1FB ≠ 3 ∧
      16 ≤ divisor (par.fclk 2) 0x1FB ∧ divisor (par.fclk 2) 0x1FB ≤ 0xFFFF ∧
      divisor 1785600 0x010 = 16 ∧ divisor 629140799 0x000 = 0xFFFF := by decide

/-- InitWritesBaudRate, on a clocked and an unclocked UART. -/
theorem wit_InitWritesBaudRate :
    par.wf = true ∧ (st (.init 0 none) .idle 0 busy []).turn = .seq 0 ∧
      0 < (st (.init 0 none) .idle 0 busy []).seqs.length ∧
      ((st (.init 0 none) .idle 0 busy []).seq 0).phase = .init 0 none ∧
      ((st (.init 0 none) .idle 0 busy []).seq 0).H.toNat < par.nInst ∧ par.clocked 0 = true ∧
      ((st (.init 0 none) .idle 1 u0 []).seq 0).H.toNat = 1 ∧ par.clocked 1 = false := by decide

/-- InitReadsRegister, the first and the last micro-step with a read, on a clocked and an unclocked UART. -/
theorem wit_InitReadsRegister :
    par.wf = true ∧ (st (.init 7 none) .idle 1 u0 []).turn = .seq 0 ∧
      0 < (st (.init 7 none) .idle 1 u0 []).seqs.length ∧ (7 : Fin 8) ≠ 0 ∧ (1 : Fin 8) ≠ 0 ∧
      ((st (.init 7 none) .idle 1 u0 []).seq 0).phase = .init 7 none ∧
      ((st (.init 1 none) .idle 0 on []).seq 0).phase = .init 1 none ∧
      ((st (.init 7 none) .idle 1 u0 []).seq 0).H.toNat < par.nInst ∧ par.clocked 1 = false ∧
      par.clocked 0 = true := by decide

/-- InitWritesRegister, the first and the last micro-step with a read, that of CR3, and an unclocked UART. -/
theorem wit_InitWritesRegister :
    (st (.init 1 (some 0x200C)) .idle 2 busy []).Wf ∧ (st (.init 7 (some 0x160C)) .idle 2 on []).Wf ∧
      (st (.init 1 (some 0x200C)) .idle 2 busy []).turn = .seq 0 ∧ par.clocked 2 = true ∧
      ((st (.init 1 (some 0x200C)) .idle 2 busy []).seq 0).phase = .init 1 (some 0x200C) ∧
      ((st (.init 7 (some 0x160C)) .idle 2 on []).seq 0).phase = .init 7 (some 0x160C) ∧
      (Field.M, (1 : Word32)) ∈ initFields 1 (enc par 0x15B 8000000) ∧
      Field.TE ∈ (initReg 1).fields ∧ Field.STOP ∉ (initReg 1).fields ∧ initReg 4 = .cr3 ∧ initReg 1 ≠ .cr3 ∧
      busy.sh = .busy (some 0x41) ⟨0, 0, 0, 0, 0x341⟩ false ∧ on.sh = .idle ∧ par.clocked 1 = false ∧
      ((st (.init 7 (some 0)) .idle 1 u0 []).seq 0).phase = .init 7 (some 0) :=
  ⟨st_wf _ _ _ _ _ (by decide), st_wf _ _ _ _ _ (by decide), by decide⟩

/-- InitTakesFifteenSteps and, on a clocked UART, InitRegisterImage. -/
theorem wit_InitRegisterImage :
    (st .idle .idle 0 on [0x15B1]).Wf ∧ 0 < (st .idle .idle 0 on [0x15B1]).seqs.length ∧
      ((st .idle .idle 0 on [0x15B1]).seq 0).phase = .idle ∧
      fetch 0 (st .idle .idle 0 on [0x15B1]) = some (encode (.initLine 0 0x15B)) ∧
      acceptFault par (.initLine 0 0x15B) = .ok ∧ par.clocked 0 = true ∧ par.fieldWrite = .assign ∧
      par.layout = Layout.reference ∧ (peekWord (st .idle .idle 0 on [0x15B1]) 0 .cr1).isSome = true :=
  ⟨st_wf _ _ _ _ _ (by decide), by decide⟩

/-- InitIsIdempotent, on a clocked UART. -/
theorem wit_InitIsIdempotent :
    (st .idle .idle 0 on [0x15B1, 0x15B1]).Wf ∧ par.clocked 0 = true ∧
      fetch 0 (st .idle .idle 0 on [0x15B1, 0x15B1]) = some (encode (.initLine 0 0x15B)) ∧
      acceptFault par (.initLine 0 0x15B) = .ok ∧
      ∃ t u, fetch 0 t = some (encode (.initLine 0 0x15B)) ∧
        Host.Core.run core 16 ((st .idle .idle 0 on [0x15B1, 0x15B1]).withSchedule (.seq 0)
          (List.replicate 15 (.seq 0))) = .next t ∧
        Host.Core.run core 16 (t.withSchedule (.seq 0) (List.replicate 15 (.seq 0))) = .next u :=
  ⟨st_wf _ _ _ _ _ (by decide), by decide, by decide, by decide, _, _, rfl, rfl, rfl⟩

/-- FieldRecovery: parity off and on, and a clock whose four divisors are distinct. -/
theorem wit_FieldRecovery :
    Layout.reference.wf = true ∧ cfgPar 0x15B ≠ 3 ∧ divisorOk 8000000 0x15B = true ∧ cfgPar 0x000 = 0 ∧
      (List.map (fun b : Nat => divisor 8000000 (BitVec.ofNat 9 (16 * b))) [0, 1, 2, 3]).Nodup := by decide

/-- TransferAcceptance. -/
theorem wit_TransferAcceptance :
    (st .idle .idle 0 u0 []).turn = .seq 0 ∧ 0 < (st .idle .idle 0 u0 []).seqs.length ∧
      ((st .idle .idle 0 u0 []).seq 0).phase = .idle ∧ (2 : BitVec 2).toNat < par.nInst := by decide

/-- TransmitHoldsUntilEmpty: an enabled hold, one that is not, and the step that lifts it. -/
theorem wit_TransmitHoldsUntilEmpty :
    (st .txHold .idle 0 on []).turn = .seq 0 ∧ 0 < (st .txHold .idle 0 on []).seqs.length ∧
      ((st .txHold .idle 0 on []).seq 0).phase = .txHold ∧ ((st .txHold .idle 0 on []).seq 0).H.toNat < par.nInst ∧
      seqEnabled 0 (st .txHold .idle 0 on []) = true ∧ seqEnabled 0 (st .txHold .idle 0 full []) = false ∧
      ((st .txHold .idle 0 full []).uart 0).rb.TXE = 0 ∧
      (Out.value (step ((st .txHold .idle 0 full []).withTurn (.txLoad 0)))).map (fun t => (t.uart 0).rb.TXE) =
        some 1 := by decide

/-- TransmitWritesDataRegister, on a clocked and an unclocked UART. -/
theorem wit_TransmitWritesDataRegister :
    (st .txWrite .idle 2 busy []).turn = .seq 0 ∧ 0 < (st .txWrite .idle 2 busy []).seqs.length ∧
      ((st .txWrite .idle 2 busy []).seq 0).phase = .txWrite ∧ ((st .txWrite .idle 2 busy []).seq 0).H.toNat < par.nInst ∧
      par.clocked 2 = true ∧ ((st .txWrite .idle 1 u0 []).seq 0).H.toNat = 1 ∧ par.clocked 1 = false := by decide

/-- ReceiveHoldsUntilFull: an enabled hold, one that is not, and the step that lifts it. -/
theorem wit_ReceiveHoldsUntilFull :
    (st .rxHold .idle 0 got []).turn = .seq 0 ∧ 0 < (st .rxHold .idle 0 got []).seqs.length ∧
      ((st .rxHold .idle 0 got []).seq 0).phase = .rxHold ∧ ((st .rxHold .idle 0 got []).seq 0).H.toNat < par.nInst ∧
      seqEnabled 0 (st .rxHold .idle 0 got []) = true ∧ seqEnabled 0 (st .rxHold .idle 0 on []) = false ∧
      ((st .rxHold .idle 0 on []).uart 0).rb.RXNE = 0 ∧
      (Out.value (step ((st .rxHold .idle 0 on []).withTurn (.rxFrame 0)))).map (fun t => (t.uart 0).rb.RXNE) =
        some 1 := by decide

/-- ReceiveReadsDataRegister: a written RDR, an unwritten one, an unclocked UART. -/
theorem wit_ReceiveReadsDataRegister :
    (st .rxRead .idle 0 got []).turn = .seq 0 ∧ 0 < (st .rxRead .idle 0 got []).seqs.length ∧
      ((st .rxRead .idle 0 got []).seq 0).phase = .rxRead ∧ ((st .rxRead .idle 0 got []).seq 0).H.toNat < par.nInst ∧
      par.clocked 0 = true ∧ ((st .rxRead .idle 0 got []).uart 0).rb.RDR = some 0x41 ∧
      ((st .rxRead .idle 0 u0 []).uart 0).rb.RDR = none ∧ par.clocked 1 = false := by decide

/-- TxLoadEffect. -/
theorem wit_TxLoadEffect :
    ((st .idle .idle 0 full []).withTurn (.txLoad 0)).turn = .txLoad 0 ∧
      enabled ((st .idle .idle 0 full []).withTurn (.txLoad 0)) (.txLoad 0) = true := by decide

/-- TxFinishEffect: a frame that goes out whole and one that is corrupt. -/
theorem wit_TxFinishEffect :
    ((st .idle .idle 0 busy []).withTurn (.txFinish 0)).Wf ∧ par.clocked 0 = true ∧
      ((st .idle .idle 0 busy []).uart 0).sh = .busy (some 0x41) ⟨0, 0, 0, 0, 0x341⟩ false ∧
      ((st .idle .idle 0 bad []).uart 0).sh = .busy (some 0x41) ⟨0, 1, 0, 0, 0x341⟩ true :=
  ⟨⟨par_wf, rfl, rfl, rfl, (st_wf .idle .idle 0 busy [] (by decide)).handles,
    (st_wf .idle .idle 0 busy [] (by decide)).faults⟩, by decide⟩

/-- A UART with the frame of 0x41 on its wire. -/
def sent : Uart := { on with wire := [.frame 0x41 8 .off 0 0x341] }

/-- RxFrameEffect: an external source, and a looped-back frame of the receiver's format. -/
theorem wit_RxFrameEffect :
    ((st .idle .idle 0 on []).withTurn (.rxFrame 0)).turn = .rxFrame 0 ∧ par.rxSource 0 = .external ∧
      enabled (st .idle .idle 0 on []) (.rxFrame 0) = true ∧
      par.rxSource 2 = .loopback 0 ∧ enabled (st .idle .idle 0 sent []) (.rxFrame 2) = true ∧
      ((st .idle .idle 0 sent []).uart 0).wire[((st .idle .idle 0 sent []).uart 2).rxcur]? =
        some (.frame 0x41 (8 + (on.rb.M).toNat) (parityOf on.rb.PCE on.rb.PS) on.rb.STOP on.rb.BRR) := by decide

/-- FrameContents: formats without parity, with even and with odd parity. -/
theorem wit_FrameContents :
    (⟨1, 1, 0, 0, 0⟩ : Format).PS = 0 ∧ (⟨1, 0, 0, 0, 0⟩ : Format).PCE = 0 ∧ (⟨1, 1, 1, 0, 0⟩ : Format).PCE = 1 ∧ (7 : Nat) < 7 + (1#1).toNat := by decide

/-- CorruptMark: a write while a frame is in flight, and a marked frame. -/
theorem wit_CorruptMark :
    (st .idle .idle 0 busy []).Wf ∧ (0 : BitVec 2).toNat < par.nInst ∧ par.clocked 0 = true ∧
      ((st .idle .idle 0 busy []).uart 0).sh = .busy (some 0x41) ⟨0, 0, 0, 0, 0x341⟩ false ∧
      (∃ t, regWrite 0 .cr2 0x2000 (st .idle .idle 0 busy []) = .next t) ∧
      ((st .idle .idle 0 bad []).uart 0).sh = .busy (some 0x41) ⟨0, 1, 0, 0, 0x341⟩ true :=
  ⟨st_wf _ _ _ _ _ (by decide), by decide, by decide, by decide, ⟨_, rfl⟩, by decide⟩

/-- TransmittedByteIsReceived. -/
theorem wit_TransmittedByteIsReceived :
    (st .idle .idle 0 on [0x0412, 0x000B]).Wf ∧ ((st .idle .idle 0 on [0x0412, 0x000B]).seq 0).phase = .idle ∧
      ((st .idle .idle 0 on [0x0412, 0x000B]).prog 0)[0]? = some (encode (.transmit 0 0x41)) ∧
      ((st .idle .idle 0 on [0x0412, 0x000B]).prog 0)[1]? = some (encode (.receive 2)) ∧
      par.clocked 0 = true ∧ par.clocked 2 = true ∧ par.rxSource 2 = .loopback 0 ∧
      on.rb.UE = 1 ∧ on.rb.TE = 1 ∧ on.rb.RE = 1 ∧ on.rb.TXE = 1 ∧ on.rb.RXNE = 0 ∧ on.sh = .idle ∧
      on.rxcur = on.wire.length :=
  ⟨st_wf _ _ _ _ _ (by decide), by decide⟩

/-- OtherMovesKeepControl: a step at the peripheral's turn, and the environment's turn on a clocked and an unclocked
UART. -/
theorem wit_OtherMovesKeepControl :
    (∃ t, step ((st .rxRead .idle 0 full []).withTurn (.txLoad 0)) = .next t) ∧
      (∀ b, ((st .rxRead .idle 0 full []).withTurn (.txLoad 0)).turn ≠ .seq b) ∧ Field.M ∉ Reg.sr.fields ∧
      ((st .idle .idle 0 on []).withTurn (.lineFlags 0)).turn = .lineFlags 0 ∧ par.clocked 0 = true ∧
      par.clocked 1 = false :=
  ⟨⟨_, rfl⟩, ⟨fun _ => Move.noConfusion, by decide⟩⟩

/-- AddressMapIsOneToOne: the last register of the last window. -/
theorem wit_AddressMapIsOneToOne :
    par.wf = true ∧ 2 < par.nInst ∧ regAddr par 2 .gtpr = 0x40004818 ∧ locate par 0x40004818 = some (2, .gtpr) := by
  decide

/-- OddAccessesRefused: each clause, the last at the first address after a window. -/
theorem wit_OddAccessesRefused :
    (2 : Nat) ≠ 4 ∧ (0x40013801 : Word32).toNat % 4 ≠ 0 ∧ (0x4001381C : Word32).toNat % 4 = 0 ∧
      locate par 0x4001381C = none := by decide

/-- ControlAccesses. -/
theorem wit_ControlAccesses :
    (st .idle .idle 0 busy []).Wf ∧ (2 : BitVec 2).toNat < par.nInst ∧ par.clocked 2 = true ∧ Reg.sr ≠ Reg.dr ∧
      Reg.gtpr ∈ [Reg.brr, Reg.cr1, Reg.cr2, Reg.cr3, Reg.gtpr] ∧
      ∀ f ∈ Reg.cr2.fields, ¬ (par.layout.lo f ≤ 4 ∧ 4 < par.layout.lo f + f.width) :=
  ⟨st_wf _ _ _ _ _ (by decide), by decide⟩

/-- DataAccesses. -/
theorem wit_DataAccesses :
    par.wf = true ∧ par.layout = Layout.reference ∧ (2 : BitVec 2).toNat < par.nInst ∧ par.clocked 2 = true ∧
      ((st .idle .idle 0 got []).uart 2).rb.RDR = some 0x41 := by decide

/-- UnclockedReadsZero: an unclocked UART, an agent that waits on it, and a run. -/
theorem wit_UnclockedReadsZero :
    (st .txHold .rxHold 1 u0 []).Wf ∧ (1 : BitVec 2).toNat < par.nInst ∧ par.clocked 1 = false ∧
      ((st .txHold .rxHold 1 u0 []).seq 0).phase = .txHold ∧ ((st .txHold .rxHold 1 u0 []).seq 1).phase = .rxHold ∧
      ∃ t, Host.Core.run core 1 (st .txHold .rxHold 1 u0 []) = .next t :=
  ⟨st_wf _ _ _ _ _ (by decide), by decide, by decide, rfl, rfl, _, rfl⟩

/-- NonStoringStepsKeepEveryByte: an acceptance, a hold, and the first and last read step. -/
theorem wit_NonStoringStepsKeepEveryByte :
    par.wf = true ∧ (st .idle .idle 0 on []).turn = .seq 0 ∧
      (∃ t, exec (.resolve 2) (st .idle .idle 0 on []) = .next t) ∧
      (∃ t, exec (.transmit 0 0) (st .txHold .idle 0 on []) = .next t) ∧
      (∃ t, exec (.receive 0) (st .rxHold .idle 0 on []) = .next t) ∧
      (∃ t, exec (.initLine 0 0) (st (.init 1 none) .idle 0 on []) = .next t) ∧
      ∃ t, exec (.initLine 0 0) (st (.init 7 none) .idle 0 on []) = .next t :=
  ⟨par_wf, rfl, ⟨_, rfl⟩, ⟨_, rfl⟩, ⟨_, rfl⟩, ⟨_, rfl⟩, _, rfl⟩

/-- StoringStepsKeepOtherBytes: a BRR write, a control write, a DR write and a DR read; an address outside. -/
theorem wit_StoringStepsKeepOtherBytes :
    (st (.init 0 none) .idle 0 on []).Wf ∧ (st (.init 0 none) .idle 0 on []).turn = .seq 0 ∧
      (∃ t, exec (.initLine 0 0) (st (.init 0 none) .idle 0 on []) = .next t) ∧
      (∃ t, exec (.initLine 0 0) (st (.init 7 (some 0)) .idle 0 on []) = .next t) ∧
      (∃ t, exec (.transmit 0 0) (st .txWrite .idle 0 on []) = .next t) ∧
      (∃ t, exec (.receive 0) (st .rxRead .idle 0 got []) = .next t) ∧
      ¬ ((regAddr par 0 .brr).toNat ≤ (0x4001380C : Word32).toNat ∧
        (0x4001380C : Word32).toNat < (regAddr par 0 .brr).toNat + 4) :=
  ⟨st_wf _ _ _ _ _ (by decide), rfl, ⟨_, rfl⟩, ⟨_, rfl⟩, ⟨_, rfl⟩, ⟨_, rfl⟩, by decide⟩

/-- StepRunsDecodedCommand: a command word, a reserved word, a schedule and none. -/
theorem wit_StepRunsDecodedCommand :
    (st .idle .idle 0 on [0x0412]).turn = .seq 0 ∧ 0 < (st .idle .idle 0 on [0x0412]).seqs.length ∧
      ((st .idle .idle 0 on [0x0412]).seq 0).phase = .idle ∧
      ((st .idle .idle 0 on [0x0412]).prog 0)[0]? = some 0x0412 ∧ decode 0x0412 = .ok (.transmit 0 0x41) ∧
      decode 0x1FF2 = .error .reservedBit ∧ (st .idle .idle 0 on [0x0412]).sched = [] ∧
      ((st .idle .idle 0 on []).withSchedule (.seq 0) [.seq 1]).sched = [.seq 1] :=
  ⟨rfl, by decide, rfl, rfl, rfl, rfl, rfl, rfl⟩

/-- StepContinuesCommand. -/
theorem wit_StepContinuesCommand :
    (st (.init 7 none) .idle 0 on []).turn = .seq 0 ∧ 0 < (st (.init 7 none) .idle 0 on []).seqs.length ∧
      ((st (.init 7 none) .idle 0 on []).seq 0).phase = .init 7 none ∧
      ((st .txWrite .idle 0 on []).seq 0).phase = .txWrite ∧ ((st .rxRead .idle 0 on []).seq 0).phase = .rxRead := by
  decide

/-- DisabledMovesChangeNothing: a hold and a peripheral move that are not enabled. -/
theorem wit_DisabledMovesChangeNothing :
    (st .txHold .idle 0 full []).Wf ∧ enabled (st .txHold .idle 0 full []) (st .txHold .idle 0 full []).turn = false ∧
      enabled (st .idle .idle 0 on []) (.txLoad 0) = false :=
  ⟨st_wf _ _ _ _ _ (by decide), by decide⟩

/-- StreamsAreConfiguration and LogsOnlyGrow: a step that receives a byte. -/
theorem wit_LogsOnlyGrow : ∃ t, step (st .rxRead .idle 0 got []) = .next t := ⟨_, rfl⟩

/-- NextAdvancesAtCompletion: a step that completes a command, and one that faults. -/
theorem wit_NextAdvancesAtCompletion :
    (st .rxRead .idle 0 got []).Wf ∧
      (Out.value (step (st .rxRead .idle 0 got []))).map (fun t => (t.seq 0).phase) = some .idle ∧
      after (st .idle .idle 0 on [0x000F]) = some (.faulted, .badHandle) :=
  ⟨st_wf _ _ _ _ _ (by decide), by decide⟩

/-- ResetState and LaunchMeetsInvariants: a launch of one agent with the reference profile. -/
theorem wit_LaunchMeetsInvariants :
    Params.default.wf = true ∧ [[(0x0001 : CmdWord)]].length = Params.default.nAgents ∧ Params.default.txeReset = 1 ∧
      Params.default.nAgents = 1 ∧ Params.default.layout = Layout.reference ∧ Params.default.clocked 2 = true := by
  decide

/-- StepKeepsWellFormed, UnusedFieldsStayZero, RdrIsWrittenWhenRead and TdrIsWrittenWhenLoaded: an agent between
the read and the write of a micro-step, with received bytes and a byte to send. -/
theorem wit_StepKeepsInvariants :
    (st (.init 2 (some 0x200C)) .rxRead 0 got []).Wf ∧ UnusedZero (st (.init 2 (some 0x200C)) .rxRead 0 got []) ∧
      RdrWritten (st (.init 2 (some 0x200C)) .rxRead 0 got []) ∧ TdrWritten (st (.init 2 (some 0x200C)) .rxRead 0 full []) ∧
      ∃ t, step (st (.init 2 (some 0x200C)) .rxRead 0 got []) = .next t := by
  refine ⟨st_wf _ _ _ _ _ (by decide), ⟨by decide, ?_⟩, by unfold RdrWritten; decide, ?_, _, rfl⟩
  · intro a ha k r h
    match a, ha with
    | 0, _ => cases h; decide
    | 1, _ => cases h
  · intro i hi
    match i, hi with
    | 0, _ => exact ⟨fun _ => rfl, fun _ _ h => nomatch h⟩
    | 1, _ => exact ⟨fun h => absurd h (by decide), fun _ _ h => nomatch h⟩
    | 2, _ => exact ⟨fun _ => rfl, fun _ _ h => nomatch h⟩

/-- WellFormedNeverStops. -/
theorem wit_WellFormedNeverStops : (st .txHold .faulted 2 full []).Wf := st_wf _ _ _ _ _ (by decide)

/-- SingleAgentNeverOverwrites: a single agent about to write DR. -/
theorem wit_SingleAgentNeverOverwrites :
    ((State.launch Params.default [[]]).modSeq 0 fun q => { q with phase := .txWrite }).Wf ∧
      SingleAgentTxEmpty ((State.launch Params.default [[]]).modSeq 0 fun q => { q with phase := .txWrite }) ∧
      ∃ t, step ((State.launch Params.default [[]]).modSeq 0 fun q => { q with phase := .txWrite }) = .next t :=
  ⟨⟨by decide, rfl, rfl, rfl, by decide, by decide⟩, ⟨rfl, fun _ => by decide⟩, _, rfl⟩

/-- CommandStaysInStream: an agent inside the TRANSMIT of its stream. -/
theorem wit_CommandStaysInStream :
    CommandInStream ((st .txHold .idle 0 on [0x0412]).modSeq 0 fun q => { q with CMD := 0x0412 }) ∧
      ∃ t, step ((st .txHold .idle 0 on [0x0412]).modSeq 0 fun q => { q with CMD := 0x0412 }) = .next t :=
  ⟨by unfold CommandInStream; decide, _, rfl⟩

/-- ReachableStatesAreSafe: a launch and a state after it. -/
theorem wit_ReachableStatesAreSafe :
    Params.default.wf = true ∧ [[(0x0008 : CmdWord)]].length = Params.default.nAgents ∧
      ∃ t, Reachable Params.default [[0x0008]] t ∧ (t.seq 0).next = 1 :=
  ⟨by decide, rfl, _, .move .launch ⟨.seq 0, rfl⟩, rfl⟩

/-- EndsOfARun: reset with nothing to do is a normal end. -/
theorem wit_EndsOfARun_normal : NormalEnd State.reset :=
  ⟨fun a ha => by
      obtain rfl : a = 0 := by simpa using Nat.lt_one_iff.mp ha
      exact ⟨⟨rfl, rfl⟩, rfl⟩,
    fun i hi => match i, hi with
      | 0, _ => ⟨rfl, .inl rfl⟩
      | 1, _ => ⟨rfl, .inl rfl⟩
      | 2, _ => ⟨rfl, .inl rfl⟩⟩

/-- EndsOfARun: an agent that waits on an unclocked UART while nothing is enabled is stuck. -/
theorem wit_EndsOfARun_stuck : (st .txHold .idle 1 u0 []).Wf ∧ Stuck (st .txHold .idle 1 u0 []) :=
  ⟨st_wf _ _ _ _ _ (by decide),
    fun m hm => match m, hm with
      | .seq 0, _ => by decide
      | .seq 1, _ => by decide
      | .seq (_ + 2), _ => rfl
      | .txLoad 0, _ => by decide
      | .txLoad 1, _ => by decide
      | .txLoad 2, _ => by decide
      | .txLoad (_ + 3), _ => rfl
      | .txFinish 0, _ => by decide
      | .txFinish 1, _ => by decide
      | .txFinish 2, _ => by decide
      | .txFinish (_ + 3), _ => rfl
      | .rxFrame 0, _ => by decide
      | .rxFrame 1, _ => by decide
      | .rxFrame 2, _ => by decide
      | .rxFrame (_ + 3), _ => rfl,
    0, by decide, fun h => nomatch h.1⟩

/-- EndsOfARun: an enabled receiver on an external line. -/
theorem wit_EndsOfARun_hang :
    par.clocked 0 = true ∧ par.rxSource 0 = .external ∧ ((st .idle .idle 0 on []).uart 0).rb.UE = 1 ∧
      ((st .idle .idle 0 on []).uart 0).rb.RE = 1 := by decide

/-- RacingTransmitsLoseAByte and RacingInitializesLoseAnUpdate. -/
theorem wit_Racing :
    (st .txWrite .txWrite 2 on []).Wf ∧ (st (.init 1 none) (.init 5 none) 2 on []).Wf ∧
      ((st .txWrite .txWrite 2 on []).seq 0).H = ((st .txWrite .txWrite 2 on []).seq 1).H ∧ par.clocked 2 = true ∧
      ((st .txWrite .txWrite 2 on []).seq 1).phase = .txWrite ∧
      ((st (.init 1 none) (.init 5 none) 2 on []).seq 1).phase = .init 5 none :=
  ⟨st_wf _ _ _ _ _ (by decide), st_wf _ _ _ _ _ (by decide), by decide⟩

end Sys2Proof.Tests
end

section
/-! PROOFS. The states a launch gives, and what they meet (70_reset_and_hazards R230). -/

namespace Sys2Proof.Machine

@[simp] theorem launch_par (p : Params) (progs : List (List CmdWord)) : (State.launch p progs).par = p := rfl

@[simp] theorem launch_progs (p : Params) (progs : List (List CmdWord)) : (State.launch p progs).progs = progs := rfl

@[simp] theorem launch_seqs_length (p : Params) (progs : List (List CmdWord)) :
    (State.launch p progs).seqs.length = p.nAgents := by simp [State.launch]

@[simp] theorem launch_uarts_length (p : Params) (progs : List (List CmdWord)) :
    (State.launch p progs).uarts.length = p.nInst := by simp [State.launch, Params.nInst]

@[simp] theorem launch_seq (p : Params) (progs : List (List CmdWord)) (a : Nat) :
    (State.launch p progs).seq a = Seq.reset := by
  simp only [State.seq, State.launch, List.getD_eq_getElem?_getD, List.getElem?_replicate]
  split <;> rfl

theorem launch_uart {p : Params} {i : Nat} (hi : i < p.nInst) (progs : List (List CmdWord)) :
    (State.launch p progs).uart i = Uart.reset p.txeReset := by
  have hi' : i < p.insts.length := hi
  simp [State.uart, State.launch, hi']

/-- Every field of a register block is 0 after reset but TXE and TC. -/
theorem get_reset (txe : BitVec 1) (f : Field) :
    (RegBlock.reset txe).get f = if f = .TXE then txe.setWidth 32 else if f = .TC then 1 else 0 := by
  cases f <;> rfl

/-- An unused field is no status flag and not the divisor. -/
theorem not_sr_of_unused : ∀ f ∈ unusedFields, f ∉ Reg.sr.fields ∧ f ≠ .BRR := by decide

theorem launch_wf {p : Params} {progs : List (List CmdWord)} (hp : p.wf = true) (hl : progs.length = p.nAgents) :
    (State.launch p progs).Wf where
  params := hp
  agents := launch_seqs_length p progs
  streams := hl
  uarts := launch_uarts_length p progs
  handles a _ hb := by simp [Seq.reset, Phase.busy] at hb
  faults a _ := by simp [Seq.reset]

theorem launch_unusedZero (p : Params) (progs : List (List CmdWord)) : UnusedZero (State.launch p progs) := by
  refine ⟨fun i hi f hf => ?_, fun a _ k r h => by simp [Seq.reset] at h⟩
  have hsr := (not_sr_of_unused f hf).1
  rw [launch_uart (by simpa using hi), Uart.reset, get_reset, if_neg, if_neg]
  · rintro rfl; exact hsr (by decide)
  · rintro rfl; exact hsr (by decide)

theorem launch_rdrWritten (p : Params) (progs : List (List CmdWord)) : RdrWritten (State.launch p progs) := by
  refine ⟨fun i hi h => ?_, fun a _ h => by simp [Seq.reset] at h⟩
  rw [launch_uart (by simpa using hi)] at h
  exact absurd h (by simp [Uart.reset, RegBlock.reset])

theorem launch_commandInStream (p : Params) (progs : List (List CmdWord)) :
    CommandInStream (State.launch p progs) := fun a _ => by simp [Seq.reset]

theorem launch_tdrWritten {p : Params} (ht : p.txeReset = 1) (progs : List (List CmdWord)) :
    TdrWritten (State.launch p progs) := fun i hi => by
  rw [launch_uart (by simpa using hi)]
  simp [Uart.reset, RegBlock.reset, ht]

theorem launch_singleAgentTxEmpty {p : Params} (hn : p.nAgents = 1) (progs : List (List CmdWord)) :
    SingleAgentTxEmpty (State.launch p progs) :=
  ⟨by simpa using hn, fun h => by simp [Seq.reset] at h⟩

/-- Settles O49: at a launch every agent and every UART is as reset leaves it. -/
theorem launchMeetsInvariants : Obligations.LaunchMeetsInvariants := fun p progs hp hl =>
  ⟨launch_wf hp hl, launch_unusedZero p progs, launch_rdrWritten p progs, launch_commandInStream p progs,
    fun ht => launch_tdrWritten ht progs, fun hn => launch_singleAgentTxEmpty hn progs⟩

end Sys2Proof.Machine
end

section
/-! PROOFS. A move that is not enabled changes nothing (log 6). -/

namespace Sys2Proof.Machine

/-- A hold whose poll does not return the flag set changes nothing (42_transfer R161, R166). -/
theorem holdUntil_of_not_set {s : State} {a : Nat} {f : Field} (hp : s.par.wf = true)
    (hh : (s.seq a).H.toNat < s.par.nInst) (hf : f ∈ Reg.sr.fields)
    (he : (Out.value (pollFlag (s.seq a).H f s)).elim false (·.1) = false) (ph : Phase) :
    holdUntil a f ph s = .next s := by
  obtain ⟨x, hx⟩ : ∃ x, pollFlag (s.seq a).H f s = .next (x, s) := ⟨_, pollFlag_eq hp hh hf⟩
  rw [hx] at he
  obtain rfl : x = false := he
  rw [holdUntil, hx]
  rfl

theorem seqStep_of_not_enabled {s : State} (hw : s.Wf) {a : Nat} (ha : a < s.seqs.length)
    (he : seqEnabled a s = false) : seqStep a s = .next s := by
  have hh := hw.handles a ha
  simp only [seqEnabled, ha, decide_true, Bool.true_and] at he
  cases hp : (s.seq a).phase with
  | idle =>
    simp only [hp, Option.isSome_eq_false_iff, Option.isNone_iff_eq_none] at he
    simp only [seqStep, hp, he]
  | init k r => simp [hp] at he
  | txHold =>
    simp only [hp] at he hh
    simp only [seqStep, hp]
    exact holdUntil_of_not_set hw.params (hh rfl) (by decide) he _
  | txWrite => simp [hp] at he
  | rxHold =>
    simp only [hp] at he hh
    simp only [seqStep, hp]
    exact holdUntil_of_not_set hw.params (hh rfl) (by decide) he _
  | rxRead => simp [hp] at he
  | faulted => simp only [seqStep, hp]

theorem txFinish_of_not_enabled {s : State} {i : Nat} (he : enabled s (.txFinish i) = false) : txFinish i s = s := by
  unfold txFinish
  split
  · rename_i hc
    have hi : (s.uart i).sh = .idle := by simpa [enabled, hc] using he
    rw [hi]
  · rfl

theorem runTurn_of_not_enabled {s : State} (hw : s.Wf) (he : enabled s s.turn = false) : runTurn s = .next s := by
  cases ht : s.turn with
  | seq a =>
    rw [ht] at he
    simp only [runTurn, ht]
    split
    · exact seqStep_of_not_enabled hw ‹_› he
    · rfl
  | txLoad i =>
    have he : txLoadEnabled i s = false := by rwa [ht] at he
    simp [runTurn, ht, txLoad, he]
  | txFinish i => simp only [runTurn, ht, txFinish_of_not_enabled (ht ▸ he)]
  | rxFrame i =>
    have he : rxFrameEnabled i s = false := by rwa [ht] at he
    simp [runTurn, ht, rxFrame, he]
  | lineFlags i =>
    have he : s.par.clocked i = false := by rwa [ht] at he
    simp [runTurn, ht, lineFlags, he]

/-- Settles O44: each kind of move checks its own guard before it changes anything. -/
theorem disabledMovesChangeNothing : Obligations.DisabledMovesChangeNothing := fun _ hw he =>
  step_eq_next.mpr ⟨_, runTurn_of_not_enabled hw he, rfl⟩

end Sys2Proof.Machine
end

section
/-! PROOFS. Everything a step of a well-formed state can do: the agent's moves phase by phase, the peripheral
agent's effect on a register block, and one lemma for a step of whoever's turn it is. -/

namespace Sys2Proof.Machine

/-! ## Register accesses -/

theorem ne_of_not_sr {f g : Field} (hf : f ∉ Reg.sr.fields) (hg : g ∈ Reg.sr.fields) : f ≠ g :=
  fun h => hf (h ▸ hg)

theorem get_TXE_eq_one {b : RegBlock} : b.get .TXE = 1 ↔ b.TXE = 1 :=
  ⟨fun h => setWidth_inj (by decide) h, fun h => by simp [RegBlock.get, h]⟩

theorem get_RXNE_eq_one {b : RegBlock} : b.get .RXNE = 1 ↔ b.RXNE = 1 :=
  ⟨fun h => setWidth_inj (by decide) h, fun h => by simp [RegBlock.get, h]⟩

theorem readReg_value (i : Nat) (r : Reg) (s : State) :
    (readReg i r s).1 = readWord s.par.layout (s.uart i).rb (Config.drawRDR s.draws) r := by
  cases r <;> rfl

/-- A read of a register other than DR changes nothing (20_memory R68, R69). -/
theorem regRead_state {s t : State} (hp : s.par.wf = true) {h : BitVec 2} (hh : h.toNat < s.par.nInst) {r : Reg}
    (hr : r ≠ .dr) {v : Word32} (h1 : regRead h r s = .next (v, t)) : t = s := by
  rw [regRead_eq hp hh] at h1
  split at h1
  · obtain ⟨-, h2⟩ | ⟨h2, -⟩ := readReg_cases h.toNat r s
    · injection h1 with h1
      rw [h1] at h2
      exact h2
    · exact absurd h2 hr
  · cases h1
    rfl

/-- A field of the word that a register read returns: the block's, or 0 from an unclocked UART
(20_memory R62 to R65, R69). -/
theorem extractField_regRead {s t : State} (hp : s.par.wf = true) {h : BitVec 2} (hh : h.toNat < s.par.nInst)
    {r : Reg} {f : Field} (hf : f ∈ r.fields) {v : Word32} (h1 : regRead h r s = .next (v, t)) :
    extractField s.par.layout f v = (s.uart h.toNat).rb.get f ∨ extractField s.par.layout f v = 0 := by
  rw [regRead_eq hp hh] at h1
  split at h1
  · left
    injection h1 with h1
    have hv : readWord s.par.layout (s.uart h.toNat).rb (Config.drawRDR s.draws) r = v := by
      rw [← readReg_value, h1]
    rw [← hv, extractField_readWord (Params.layout_wf hp) _ _ hf]
  · right
    cases h1
    simp [extractField]

/-- A field outside SR after a register write: as before, or the written bits if the register holds it
(20_memory R66, R68, R69). -/
theorem regWrite_get {s t : State} (hp : s.par.wf = true) {h : BitVec 2} (hh : h.toNat < s.par.nInst) {r : Reg}
    {v : Word32} (hw : regWrite h r v s = .next t) (j : Nat) {f : Field} (hf : f ∉ Reg.sr.fields) :
    (t.uart j).rb.get f = (s.uart j).rb.get f ∨
      (f ∈ r.fields ∧ (t.uart j).rb.get f = extractField s.par.layout f v) := by
  obtain rfl | ⟨-, -, rfl⟩ | ⟨-, -, -, rfl⟩ := regWrite_cases hp hh hw
  · exact .inl rfl
  · left
    rw [State.uart_modRb_eq]
    split
    · rename_i hj
      obtain ⟨rfl, -⟩ := hj
      exact get_dataWrite _ _ (ne_of_not_sr hf (by decide)) (ne_of_not_sr hf (by decide))
    · rfl
  · rw [writeControl_rb]
    split
    · rename_i hj
      obtain ⟨rfl, -⟩ := hj
      rw [get_writeFields]
      split
      · exact .inr ⟨‹_›, rfl⟩
      · exact .inl rfl
    · exact .inl rfl

/-- A register read changes no field outside SR (20_memory R67, R68). -/
theorem regRead_get {s t : State} (hp : s.par.wf = true) {h : BitVec 2} (hh : h.toNat < s.par.nInst) {r : Reg}
    {v : Word32} (hr : regRead h r s = .next (v, t)) (j : Nat) {f : Field} (hf : f ∉ Reg.sr.fields) :
    (t.uart j).rb.get f = (s.uart j).rb.get f := by
  obtain hu | ⟨-, -, hu⟩ := regRead_cases hp hh hr
  · simp only [State.uart, hu]
  · have hj : t.uart j = (s.modRb h.toNat RegBlock.dataRead).uart j := by simp only [State.uart, hu]
    rw [hj, State.uart_modRb_eq]
    split
    · rename_i hj
      obtain ⟨rfl, -⟩ := hj
      exact get_dataRead _ hf
    · rfl

theorem BusFrame.seq_modSeq {s t : State} (h : BusFrame s t) {a : Nat} (ha : a < s.seqs.length) (f : Seq → Seq) :
    (t.modSeq a f).seq a = f (s.seq a) := by
  rw [State.seq_modSeq_self (by rwa [h.seqs]), h.seq_eq]

/-! ## The agent's moves -/

/-- Everything agent `a` can do in its step, in the order of its phases. A fault has the code of the first check that
fails; a register access is of the UART that the latched handle names. -/
inductive SeqMove (a : Nat) (s : State) : State → Prop
  | stay : SeqMove a s s
  | reserved (w : CmdWord) : (s.seq a).phase = .idle → fetch a s = some w → decode w = .error .reservedBit →
      SeqMove a s (raiseFault a w .reserved s)
  | reject (w : CmdWord) (i : Instr) : (s.seq a).phase = .idle → fetch a s = some w → decode w = .ok i →
      acceptFault s.par i ≠ .ok → SeqMove a s (raiseFault a (encode i) (acceptFault s.par i) s)
  | accept (w : CmdWord) (i : Instr) : (s.seq a).phase = .idle → fetch a s = some w → decode w = .ok i →
      acceptFault s.par i = .ok →
      SeqMove a s (s.modSeq a fun q => enterOf s.par i { q with CMD := encode i, H := i.handle })
  | writeDivisor (r : Option Word32) (t : State) : (s.seq a).phase = .init 0 r →
      regWrite (s.seq a).H .brr (placeField s.par.layout .BRR ((s.seq a).ENC.brr.setWidth 32)) s = .next t →
      SeqMove a s (t.modSeq a (Seq.initAdvance 0))
  | readBack (k : Fin 8) (v : Word32) : (s.seq a).phase = .init k none →
      regRead (s.seq a).H (initReg k) s = .next (v, s) →
      SeqMove a s (s.modSeq a fun q => { q with phase := .init k (some v) })
  | writeBack (k : Fin 8) (r : Word32) (t : State) : (s.seq a).phase = .init k (some r) →
      regWrite (s.seq a).H (initReg k) (initWord s.par k (s.seq a).ENC r) s = .next t →
      SeqMove a s (t.modSeq a (Seq.initAdvance k))
  | txReady : (s.seq a).phase = .txHold → s.par.clocked (s.seq a).H.toNat = true →
      (s.uart (s.seq a).H.toNat).rb.TXE = 1 → SeqMove a s (s.modSeq a fun q => { q with phase := .txWrite })
  | txWrite (t : State) : (s.seq a).phase = .txWrite →
      regWrite (s.seq a).H .dr ((s.seq a).TXB.setWidth 32 <<< s.par.layout.drPos) s = .next t →
      SeqMove a s (t.modSeq a Seq.complete)
  | rxReady : (s.seq a).phase = .rxHold → s.par.clocked (s.seq a).H.toNat = true →
      (s.uart (s.seq a).H.toNat).rb.RXNE = 1 → SeqMove a s (s.modSeq a fun q => { q with phase := .rxRead })
  | rxRead (v : Word32) (t : State) : (s.seq a).phase = .rxRead → regRead (s.seq a).H .dr s = .next (v, t) →
      SeqMove a s (t.modSeq a fun q => (q.append (.byte ((v >>> s.par.layout.drPos).setWidth 8))).complete)

/-- A step of INITIALIZE: the divisor is written, or a register is read, or the word read is written back with the
micro-step's fields replaced (41_line_init R133). -/
theorem initMicro_seqMove {s t : State} (hp : s.par.wf = true) {a : Nat} (hh : (s.seq a).H.toNat < s.par.nInst)
    {k : Fin 8} {r : Option Word32} (hk : (s.seq a).phase = .init k r) (h : initMicro a k r s = .next t) :
    SeqMove a s t := by
  unfold initMicro at h
  split at h
  · subst k
    obtain ⟨u, hu, he⟩ := Out.andThen_eq_next.mp h
    cases he
    exact .writeDivisor r u hk hu
  · cases r with
    | none =>
      obtain ⟨⟨v, u⟩, hu, he⟩ := Out.andThen_eq_next.mp h
      cases he
      obtain rfl := regRead_state hp hh (initReg_ne k).2 hu
      exact .readBack k v hk hu
    | some r =>
      obtain ⟨u, hu, he⟩ := Out.andThen_eq_next.mp h
      cases he
      exact .writeBack k r u hk hu

/-- What the step of an agent of a well-formed state can be. -/
theorem seqStep_seqMove {s t : State} (hw : s.Wf) {a : Nat} (ha : activeSeq s = some a) (h : seqStep a s = .next t) :
    SeqMove a s t := by
  have hh := hw.handles a (activeSeq_eq_some.mp ha).2
  cases hp : (s.seq a).phase with
  | idle =>
    obtain ⟨-, rfl⟩ | ⟨w, hf, ⟨hd, rfl⟩ | ⟨i, hd, rfl⟩⟩ := seqStep_idle ha hp h
    · exact .stay
    · exact .reserved w hp hf hd
    · obtain ⟨hc, he⟩ | ⟨hc, he⟩ := acceptCommand_cases a i (enterOf s.par i) s
      · rw [he]
        exact .accept w i hp hf hd hc
      · rw [he]
        exact .reject w i hp hf hd hc
  | init k r =>
    simp only [seqStep, hp] at h
    exact initMicro_seqMove hw.params (hh (by rw [hp]; rfl)) hp h
  | txHold =>
    simp only [seqStep, hp] at h
    obtain rfl | ⟨u, hu, rfl⟩ := holdUntil_cases h
    · exact .stay
    · obtain ⟨rfl, hx⟩ := pollFlag_cases hw.params (hh (by rw [hp]; rfl)) (by decide) hu
      obtain ⟨hc, hx⟩ := hx rfl
      exact .txReady hp hc (get_TXE_eq_one.mp hx)
  | txWrite =>
    simp only [seqStep, hp] at h
    obtain ⟨u, hu, rfl⟩ := txWrite_cases h
    exact .txWrite u hp hu
  | rxHold =>
    simp only [seqStep, hp] at h
    obtain rfl | ⟨u, hu, rfl⟩ := holdUntil_cases h
    · exact .stay
    · obtain ⟨rfl, hx⟩ := pollFlag_cases hw.params (hh (by rw [hp]; rfl)) (by decide) hu
      obtain ⟨hc, hx⟩ := hx rfl
      exact .rxReady hp hc (get_RXNE_eq_one.mp hx)
  | rxRead =>
    simp only [seqStep, hp] at h
    obtain ⟨v, u, hu, rfl⟩ := rxRead_cases h
    exact .rxRead v u hp hu
  | faulted =>
    simp only [seqStep, hp] at h
    cases h
    exact .stay

theorem Seq.initAdvance_phase (k : Fin 8) (q : Seq) :
    (q.initAdvance k).phase = if k = 7 then .idle else .init (k + 1) none := by
  unfold Seq.initAdvance
  split <;> rfl

/-- The agent's next step uses what it found in an earlier one: a word to write back, or RXNE = 1. -/
def Phase.awaits : Phase → Bool
  | .init _ r => r.isSome
  | .rxRead => true
  | .idle => false
  | .txHold => false
  | .txWrite => false
  | .rxHold => false
  | .faulted => false

/-- An agent comes to such a phase only by the read step of a micro-step or by leaving RxHold (41_line_init R133,
42_transfer R166). -/
theorem SeqMove.awaits_cases {s t : State} {a : Nat} (h : SeqMove a s t) (ha : a < s.seqs.length)
    (hp : (t.seq a).phase.awaits = true) :
    t = s ∨
    (∃ k v, (s.seq a).phase = .init k none ∧ regRead (s.seq a).H (initReg k) s = .next (v, s) ∧
      t = s.modSeq a fun q => { q with phase := .init k (some v) }) ∨
    ((s.seq a).phase = .rxHold ∧ (s.uart (s.seq a).H.toNat).rb.RXNE = 1 ∧
      t = s.modSeq a fun q => { q with phase := .rxRead }) := by
  cases h with
  | stay => exact .inl rfl
  | readBack k v hk hv => exact .inr (.inl ⟨k, v, hk, hv, rfl⟩)
  | rxReady hh _ hx => exact .inr (.inr ⟨hh, hx, rfl⟩)
  | reserved | reject =>
    rw [raiseFault, State.seq_modSeq_self ha] at hp
    cases hp
  | accept w i =>
    rw [State.seq_modSeq_self ha] at hp
    cases i <;> cases hp
  | writeDivisor r u _ hu | writeBack k r u _ hu =>
    rw [(regWrite_frame hu).seq_modSeq ha, Seq.initAdvance_phase] at hp
    split at hp <;> cases hp
  | txReady =>
    rw [State.seq_modSeq_self ha] at hp
    cases hp
  | txWrite u _ hu =>
    rw [(regWrite_frame hu).seq_modSeq ha] at hp
    cases hp
  | rxRead v u _ hu =>
    rw [(regRead_frame hu).seq_modSeq ha] at hp
    cases hp

/-- After an agent's step: the agent is as before, or faulted with a code, or on in a command of a UART that the
acceptance checked (60_exceptions R202, R203). -/
theorem SeqMove.agent_cases {s t : State} {a : Nat} (h : SeqMove a s t) (ha : a < s.seqs.length) :
    t.seq a = s.seq a ∨
    ((t.seq a).phase = .faulted ∧ (t.seq a).FAULT ≠ .ok) ∨
    ((t.seq a).phase ≠ .faulted ∧ (s.seq a).phase ≠ .faulted ∧ (t.seq a).FAULT = (s.seq a).FAULT ∧
      (((s.seq a).phase.busy = true ∧ (t.seq a).H = (s.seq a).H) ∨ (t.seq a).H.toNat < s.par.nInst)) := by
  cases h with
  | stay => exact .inl rfl
  | reserved =>
    rw [raiseFault, State.seq_modSeq_self ha]
    exact .inr (.inl ⟨rfl, nofun⟩)
  | reject w i _ _ _ hc =>
    rw [raiseFault, State.seq_modSeq_self ha]
    exact .inr (.inl ⟨rfl, hc⟩)
  | accept w i hp _ _ hc =>
    rw [State.seq_modSeq_self ha]
    obtain ⟨-, hH, hF, hf⟩ := enterOf_keeps s.par i { s.seq a with CMD := encode i, H := i.handle }
    rw [hH, hF, hp]
    exact .inr (.inr ⟨hf, nofun, rfl, .inr (handle_lt_of_acceptFault hc)⟩)
  | writeDivisor r u hp hu | writeBack k r u hp hu =>
    rw [(regWrite_frame hu).seq_modSeq ha, Seq.initAdvance_phase, hp]
    refine .inr (.inr ⟨?_, nofun, by simp, .inl ⟨rfl, by simp⟩⟩)
    split <;> nofun
  | readBack k v hp | txReady hp | rxReady hp =>
    rw [State.seq_modSeq_self ha, hp]
    exact .inr (.inr ⟨nofun, nofun, rfl, .inl ⟨rfl, rfl⟩⟩)
  | txWrite u hp hu =>
    rw [(regWrite_frame hu).seq_modSeq ha, hp]
    exact .inr (.inr ⟨nofun, nofun, rfl, .inl ⟨rfl, rfl⟩⟩)
  | rxRead v u hp hu =>
    rw [(regRead_frame hu).seq_modSeq ha, hp]
    exact .inr (.inr ⟨nofun, nofun, rfl, .inl ⟨rfl, rfl⟩⟩)

/-- A field outside SR after an agent's step: as before, the divisor, or from the word written back. -/
theorem SeqMove.get_cases {s t : State} {a : Nat} (h : SeqMove a s t) (hw : s.Wf) (ha : a < s.seqs.length) (j : Nat)
    {f : Field} (hf : f ∉ Reg.sr.fields) :
    (t.uart j).rb.get f = (s.uart j).rb.get f ∨ f = .BRR ∨
    ∃ k r, (s.seq a).phase = .init k (some r) ∧ f ∈ (initReg k).fields ∧
      (t.uart j).rb.get f = extractField s.par.layout f (initWord s.par k (s.seq a).ENC r) := by
  have hh := hw.handles a ha
  cases h with
  | stay | reserved | reject | accept | readBack | txReady | rxReady => exact .inl rfl
  | writeDivisor r u hp hu =>
    rcases regWrite_get hw.params (hh (by rw [hp]; rfl)) hu j hf with hg | ⟨hg, -⟩
    · exact .inl hg
    · exact .inr (.inl (by simpa [Reg.fields] using hg))
  | writeBack k r u hp hu =>
    rcases regWrite_get hw.params (hh (by rw [hp]; rfl)) hu j hf with hg | ⟨hg, hx⟩
    · exact .inl hg
    · exact .inr (.inr ⟨k, r, hp, hg, hx⟩)
  | txWrite u hp hu =>
    rcases regWrite_get hw.params (hh (by rw [hp]; rfl)) hu j hf with hg | ⟨hg, -⟩
    · exact .inl hg
    · simp [Reg.fields] at hg
  | rxRead v u hp hu => exact .inl (regRead_get hw.params (hh (by rw [hp]; rfl)) hu j hf)

/-! ## The peripheral agent's and the environment's moves -/

/-- Everything a step of the peripheral agent or of the environment can do to a register block (42_transfer R180 to
R182, 10_state R22). -/
inductive PerRb (b : RegBlock) : RegBlock → Prop
  | same : PerRb b b
  | loaded : PerRb b b.txLoaded
  | finished : PerRb b b.txFinished
  | received (x : BitVec 9) (fe pe : BitVec 1) : PerRb b (b.received x fe pe)
  | lineFlags (v : BitVec 4) : PerRb b (b.lineFlags v)

theorem PerRb.modUart (s : State) (i j : Nat) (f : Uart → Uart) (hf : PerRb (s.uart i).rb (f (s.uart i)).rb) :
    PerRb (s.uart j).rb ((s.modUart i f).uart j).rb := by
  rw [State.uart_modUart_eq]
  split
  · rename_i hj
    obtain ⟨rfl, -⟩ := hj
    exact hf
  · exact .same

theorem txLoad_rb (i j : Nat) (s : State) : PerRb (s.uart j).rb ((txLoad i s).uart j).rb := by
  unfold txLoad
  split
  · exact .modUart s i j _ .loaded
  · exact .same

theorem txFinish_rb (i j : Nat) (s : State) : PerRb (s.uart j).rb ((txFinish i s).uart j).rb := by
  unfold txFinish
  split
  · split
    · exact .same
    · rw [State.uart_useDraw]
      exact .modUart s i j _ .finished
  · exact .same

theorem rxFrame_rb (i j : Nat) (s : State) : PerRb (s.uart j).rb ((rxFrame i s).uart j).rb := by
  unfold rxFrame
  split
  · rw [State.uart_useDraw]
    exact .modUart s i j _ (.received _ _ _)
  · exact .same

theorem lineFlags_rb (i j : Nat) (s : State) : PerRb (s.uart j).rb ((lineFlags i s).uart j).rb := by
  obtain ⟨-, h⟩ | ⟨-, v, h⟩ := lineFlags_cases i s
  · rw [h]
    exact .same
  · rw [h, State.uart_useDraw]
    exact .modUart s i j _ (.lineFlags v)

/-- A field outside SR does not depend on the status flags and the data registers. -/
theorem get_withFlags (b : RegBlock) {pe fe ne ore idle rxne tc txe lbd cts : BitVec 1} {tdr rdr : Option (BitVec 9)}
    {f : Field} (hf : f ∉ Reg.sr.fields) :
    RegBlock.get { b with
      PE := pe, FE := fe, NE := ne, ORE := ore, IDLE := idle, RXNE := rxne, TC := tc, TXE := txe, LBD := lbd,
      CTS := cts, TDR := tdr, RDR := rdr } f = b.get f := by
  cases f <;> simp [RegBlock.get, Reg.fields] at hf ⊢

/-- The peripheral agent and the environment write no field outside SR (10_state R21, R22). -/
theorem PerRb.get_eq {b b' : RegBlock} (h : PerRb b b') {f : Field} (hf : f ∉ Reg.sr.fields) :
    b'.get f = b.get f := by
  cases h with
  | same => rfl
  | loaded => exact get_withFlags b hf
  | finished =>
    unfold RegBlock.txFinished
    split
    · exact get_withFlags b hf
    · rfl
  | received x fe pe =>
    unfold RegBlock.received
    split <;> exact get_withFlags b hf
  | lineFlags v => exact get_withFlags b hf

/-! ## A step of the block -/

/-- A move in a well-formed state is an agent's step, or keeps the agents and does to each register block what the
peripheral agent or the environment can do. -/
theorem runTurn_wf_cases {s t : State} (hw : s.Wf) (h : runTurn s = .next t) :
    (∃ a, a < s.seqs.length ∧ SeqMove a s t ∧ SeqFrame a s t ∧
      ∀ j, RbStep s.par.layout (s.uart j).rb (t.uart j).rb) ∨
    ∃ i, PerFrame i s t ∧ ∀ j, PerRb (s.uart j).rb (t.uart j).rb := by
  obtain ⟨a, ha, hs⟩ | ⟨a, -, -, rfl⟩ | ⟨i, -, rfl⟩ | ⟨i, -, rfl⟩ | ⟨i, -, rfl⟩ | ⟨i, -, rfl⟩ := runTurn_cases h
  · exact .inl ⟨a, (activeSeq_eq_some.mp ha).2, seqStep_seqMove hw ha hs, seqStep_frame ha hs, seqStep_rb hw ha hs⟩
  · exact .inr ⟨0, .rfl, fun _ => .same⟩
  · exact .inr ⟨i, txLoad_frame i s, fun j => txLoad_rb i j s⟩
  · exact .inr ⟨i, txFinish_frame i s, fun j => txFinish_rb i j s⟩
  · exact .inr ⟨i, rxFrame_frame i s, fun j => rxFrame_rb i j s⟩
  · exact .inr ⟨i, lineFlags_frame i s, fun j => lineFlags_rb i j s⟩

end Sys2Proof.Machine
end

section
/-! PROOFS. What every step keeps, and so what every run keeps (00_scope R11): the parameters and the streams,
well-formedness, a written RDR where it can be read, and unused fields at 0. -/

namespace Sys2Proof.Machine

/-! ## The invariants do not depend on the turn, the schedule and the counters -/

/-- A state with the parameters, the streams, the agents and the number of UARTs of a well-formed one is well
formed. -/
theorem State.Wf.of_eq {s t : State} (h : s.Wf) (hpar : t.par = s.par) (hprogs : t.progs = s.progs)
    (hseqs : t.seqs = s.seqs) (huarts : t.uarts.length = s.uarts.length) : t.Wf where
  params := hpar ▸ h.params
  agents := by rw [hseqs, hpar, h.agents]
  streams := by rw [hprogs, hpar, h.streams]
  uarts := by rw [huarts, hpar, h.uarts]
  handles := by simpa only [State.seq, hseqs, hpar] using h.handles
  faults := by simpa only [State.seq, hseqs] using h.faults

theorem State.Wf.nextTurn {s : State} (h : s.Wf) : (nextTurn s).Wf := h.of_eq (by simp) (by simp) (by simp) (by simp)

theorem State.Wf.withTurn {s : State} (h : s.Wf) (m : Move) : (s.withTurn m).Wf := h.of_eq rfl rfl rfl rfl

theorem rdrWritten_nextTurn {s : State} : RdrWritten (nextTurn s) ↔ RdrWritten s := by simp [RdrWritten]

theorem rdrWritten_withTurn {s : State} {m : Move} : RdrWritten (s.withTurn m) ↔ RdrWritten s := by simp [RdrWritten]

theorem unusedZero_nextTurn {s : State} : UnusedZero (nextTurn s) ↔ UnusedZero s := by simp [UnusedZero]

theorem unusedZero_withTurn {s : State} {m : Move} : UnusedZero (s.withTurn m) ↔ UnusedZero s := by simp [UnusedZero]

/-! ## Parameters and streams -/

/-- No step changes a parameter or a command stream (10_state R29). -/
theorem step_par_progs {s t : State} (h : step s = .next t) : t.par = s.par ∧ t.progs = s.progs := by
  obtain ⟨u, hu, rfl⟩ := step_eq_next.mp h
  rw [nextTurn_par, nextTurn_progs]
  obtain ⟨a, ha, hs⟩ | ⟨a, -, -, rfl⟩ | ⟨i, -, rfl⟩ | ⟨i, -, rfl⟩ | ⟨i, -, rfl⟩ | ⟨i, -, rfl⟩ := runTurn_cases hu
  · exact ⟨(seqStep_frame ha hs).par, (seqStep_frame ha hs).progs⟩
  · exact ⟨rfl, rfl⟩
  · exact ⟨(txLoad_frame i s).par, (txLoad_frame i s).progs⟩
  · exact ⟨(txFinish_frame i s).par, (txFinish_frame i s).progs⟩
  · exact ⟨(rxFrame_frame i s).par, (rxFrame_frame i s).progs⟩
  · exact ⟨(lineFlags_frame i s).par, (lineFlags_frame i s).progs⟩

/-! ## Well-formedness -/

/-- The moving agent's handle exists while it is busy, and its `FAULT` is set exactly in phase `Faulted`. -/
theorem SeqMove.wf {s t : State} {a : Nat} (h : SeqMove a s t) (hf : SeqFrame a s t) (hw : s.Wf)
    (ha : a < s.seqs.length) : t.Wf where
  params := hf.par ▸ hw.params
  agents := by rw [hf.agents, hf.par, hw.agents]
  streams := by rw [hf.progs, hf.par, hw.streams]
  uarts := by rw [hf.uarts, hf.par, hw.uarts]
  handles b hb hbusy := by
    rw [hf.agents] at hb
    rw [hf.par]
    by_cases hab : b = a
    · subst hab
      obtain he | ⟨hp, -⟩ | ⟨-, -, -, ⟨hs, hH⟩ | hH⟩ := h.agent_cases ha
      · rw [he] at hbusy ⊢
        exact hw.handles b hb hbusy
      · rw [hp] at hbusy
        cases hbusy
      · rw [hH]
        exact hw.handles b hb hs
      · exact hH
    · rw [hf.others b hab] at hbusy ⊢
      exact hw.handles b hb hbusy
  faults b hb := by
    rw [hf.agents] at hb
    by_cases hab : b = a
    · subst hab
      obtain he | ⟨hp, hc⟩ | ⟨hp, hs, hF, -⟩ := h.agent_cases ha
      · rw [he]
        exact hw.faults b hb
      · simp [hp, hc]
      · rw [hF]
        exact ⟨fun _ => hp, fun _ => (hw.faults b hb).mpr hs⟩
    · rw [hf.others b hab]
      exact hw.faults b hb

/-- A step keeps the state well formed (10_state R20, 60_exceptions R202, R203, R214). -/
theorem step_wf {s t : State} (hw : s.Wf) (h : step s = .next t) : t.Wf := by
  obtain ⟨u, hu, rfl⟩ := step_eq_next.mp h
  apply State.Wf.nextTurn
  obtain ⟨a, ha, hm, hf, -⟩ | ⟨i, hf, -⟩ := runTurn_wf_cases hw hu
  · exact hm.wf hf hw ha
  · exact hw.of_eq hf.par hf.progs hf.seqs hf.uarts

/-! ## RDR is written where it can be read -/

/-- What every step does to RXNE and RDR of a register block: RXNE is set only with a value for RDR, and a written
RDR stays written (42_transfer R182, 20_memory R67). -/
def RdrKept (b b' : RegBlock) : Prop :=
  (b'.RXNE = 1 → b.RXNE = 1 ∨ b'.RDR.isSome = true) ∧ (b.RDR.isSome = true → b'.RDR.isSome = true)

theorem RbStep.rdrKept {L : Layout} {b b' : RegBlock} (h : RbStep L b b') : RdrKept b b' := by
  obtain ⟨-, hx, -, hr⟩ := h.flags
  refine ⟨fun h1 => ?_, fun h1 => hr ▸ h1⟩
  obtain hx | hx := hx
  · exact .inl (hx ▸ h1)
  · rw [hx] at h1
    exact absurd h1 (by decide)

theorem PerRb.rdrKept {b b' : RegBlock} (h : PerRb b b') : RdrKept b b' := by
  cases h with
  | same => exact ⟨.inl, id⟩
  | loaded => exact ⟨.inl, id⟩
  | finished =>
    unfold RegBlock.txFinished
    split <;> exact ⟨.inl, id⟩
  | received x fe pe =>
    unfold RegBlock.received
    split
    · exact ⟨fun _ => .inr rfl, fun _ => rfl⟩
    · exact ⟨.inl, id⟩
  | lineFlags v => exact ⟨.inl, id⟩

/-- A step takes agent `a` to RxRead only from RxHold, with the same handle and with RXNE = 1 (42_transfer R166). -/
def ReadsWhenFull (a : Nat) (s t : State) : Prop :=
  (t.seq a).phase = .rxRead → (t.seq a).H = (s.seq a).H ∧
    ((s.seq a).phase = .rxRead ∨ ((s.seq a).phase = .rxHold ∧ (s.uart (s.seq a).H.toNat).rb.RXNE = 1))

theorem ReadsWhenFull.of_seq_eq {a : Nat} {s t : State} (h : t.seq a = s.seq a) : ReadsWhenFull a s t := by
  intro hp
  rw [h] at hp ⊢
  exact ⟨rfl, .inl hp⟩

/-- RdrWritten is kept where each block keeps its RDR and an agent comes to RxRead only with RXNE = 1. -/
theorem RdrWritten.of_kept {s t : State} (hw : s.Wf) (hr : RdrWritten s) (hu : t.uarts.length = s.uarts.length)
    (hs : t.seqs.length = s.seqs.length) (hk : ∀ j, RdrKept (s.uart j).rb (t.uart j).rb)
    (ha : ∀ a < s.seqs.length, ReadsWhenFull a s t) : RdrWritten t := by
  obtain ⟨hfull, hread⟩ := hr
  refine ⟨fun i hi hx => ?_, fun a hal hp => ?_⟩
  · rw [hu] at hi
    obtain hx | hx := (hk i).1 hx
    · exact (hk i).2 (hfull i hi hx)
    · exact hx
  · rw [hs] at hal
    obtain ⟨hH, hp | ⟨hp, hx⟩⟩ := ha a hal hp
    · rw [hH]
      exact (hk _).2 (hread a hal hp)
    · have hlt : (s.seq a).H.toNat < s.uarts.length := hw.uarts ▸ hw.handles a hal (by rw [hp]; rfl)
      rw [hH]
      exact (hk _).2 (hfull _ hlt hx)

theorem SeqMove.readsWhenFull {s t : State} {a : Nat} (h : SeqMove a s t) (ha : a < s.seqs.length) :
    ReadsWhenFull a s t := by
  intro hp
  obtain rfl | ⟨k, v, -, -, rfl⟩ | ⟨hh, hx, rfl⟩ := h.awaits_cases ha (by rw [hp]; rfl)
  · exact ⟨rfl, .inl hp⟩
  · rw [State.seq_modSeq_self ha] at hp
    cases hp
  · rw [State.seq_modSeq_self ha]
    exact ⟨rfl, .inr ⟨hh, hx⟩⟩

/-- No step comes to where an unwritten RDR is read (70_reset_and_hazards R231). -/
theorem step_rdrWritten {s t : State} (hw : s.Wf) (hr : RdrWritten s) (h : step s = .next t) : RdrWritten t := by
  obtain ⟨u, hu, rfl⟩ := step_eq_next.mp h
  rw [rdrWritten_nextTurn]
  obtain ⟨a, ha, hm, hf, hrb⟩ | ⟨i, hf, hrb⟩ := runTurn_wf_cases hw hu
  · refine hr.of_kept hw hf.uarts hf.agents (fun j => (hrb j).rdrKept) fun b hb => ?_
    by_cases hba : b = a
    · subst hba
      exact hm.readsWhenFull hb
    · exact .of_seq_eq (hf.others b hba)
  · exact hr.of_kept hw hf.uarts (by rw [hf.seqs]) (fun j => (hrb j).rdrKept) fun b _ =>
      .of_seq_eq (by simp only [State.seq, hf.seqs])

/-! ## Unused fields stay 0 -/

/-- A micro-step replaces fields of its own register, and no unused one; which fields does not depend on the
encoder's output (41_line_init R132). -/
theorem mem_initFields {k : Fin 8} {e : Enc} {x : Field × Word32} (h : x ∈ initFields k e) :
    x.1 ∈ (initReg k).fields ∧ x.1 ∉ unusedFields := by
  have hk : (initFields k e).map Prod.fst = (initFields k ⟨0, 0, 0, 0, 0, 0, 0⟩).map Prod.fst := by
    fin_cases k <;> rfl
  have hall : ∀ k, ∀ f ∈ (initFields k ⟨0, 0, 0, 0, 0, 0, 0⟩).map Prod.fst,
      f ∈ (initReg k).fields ∧ f ∉ unusedFields := by decide
  exact hall k x.1 (hk ▸ List.mem_map_of_mem h)

/-- A field of the register is kept when another field of it is replaced, under either `P_FIELD_WRITE`
(41_line_init R133). -/
theorem extractField_replaceField_ne {p : Params} (hL : p.layout.wf = true) {r : Reg} {f : Field}
    (hf : f ∈ r.fields) {x : Field × Word32} (hx : x.1 ∈ r.fields) (hne : f ≠ x.1) (w : Word32) :
    extractField p.layout f (replaceField p w x) = extractField p.layout f w := by
  unfold replaceField
  split <;> exact extractField_insertField_ne hL hx hf hne _ _

/-- The word that a micro-step writes back keeps the unused fields of the word read (41_line_init R133). -/
theorem extractField_initWord {p : Params} (hL : p.layout.wf = true) {k : Fin 8} {f : Field}
    (hf : f ∈ (initReg k).fields) (hu : f ∈ unusedFields) (e : Enc) (r : Word32) :
    extractField p.layout f (initWord p k e r) = extractField p.layout f r := by
  have hl : ∀ x ∈ initFields k e, x.1 ∈ (initReg k).fields ∧ f ≠ x.1 := fun x hx =>
    ⟨(mem_initFields hx).1, fun he => (mem_initFields hx).2 (he ▸ hu)⟩
  unfold initWord
  generalize initFields k e = l at hl
  induction l generalizing r with
  | nil => rfl
  | cons x l ih =>
    obtain ⟨hx, hne⟩ := hl x (by simp)
    rw [List.foldl_cons, ih _ fun y hy => hl y (by simp [hy]), extractField_replaceField_ne hL hf hx hne]

/-- What an agent's step leaves of the unused fields, also in the word that it read (41_line_init R133). -/
theorem SeqMove.unusedZero {s t : State} {a : Nat} (h : SeqMove a s t) (hf : SeqFrame a s t) (hw : s.Wf)
    (hz : UnusedZero s) (ha : a < s.seqs.length) : UnusedZero t := by
  obtain ⟨hzero, hwait⟩ := hz
  refine ⟨fun i hi f hfu => ?_, fun b hb k r hp f hfu hfk => ?_⟩
  · rw [hf.uarts] at hi
    obtain ⟨hsr, hbrr⟩ := not_sr_of_unused f hfu
    obtain hg | hg | ⟨k, r, hp, hfk, hg⟩ := h.get_cases hw ha i hsr
    · rw [hg, hzero i hi f hfu]
    · exact absurd hg hbrr
    · rw [hg, extractField_initWord (Params.layout_wf hw.params) hfk hfu, hwait a ha k r hp f hfu hfk]
  · rw [hf.agents] at hb
    rw [hf.par]
    by_cases hba : b = a
    · subst hba
      obtain rfl | ⟨k', v, hk, hv, rfl⟩ | ⟨-, -, rfl⟩ := h.awaits_cases ha (by rw [hp]; rfl)
      · exact hwait b hb k r hp f hfu hfk
      · rw [State.seq_modSeq_self hb] at hp
        cases hp
        have hlt := hw.handles b hb (by rw [hk]; rfl)
        obtain hx | hx := extractField_regRead hw.params hlt hfk hv
        · rw [hx]
          exact hzero _ (hw.uarts ▸ hlt) f hfu
        · exact hx
      · rw [State.seq_modSeq_self hb] at hp
        cases hp
    · rw [hf.others b hba] at hp
      exact hwait b hb k r hp f hfu hfk

/-- A peripheral agent's step and the environment's leave the unused fields and the words read. -/
theorem PerFrame.unusedZero {s t : State} {i : Nat} (hf : PerFrame i s t)
    (hrb : ∀ j, PerRb (s.uart j).rb (t.uart j).rb) (hz : UnusedZero s) : UnusedZero t := by
  obtain ⟨hzero, hwait⟩ := hz
  refine ⟨fun j hj f hfu => ?_, by simpa only [State.seq, hf.seqs, hf.par] using hwait⟩
  rw [(hrb j).get_eq (not_sr_of_unused f hfu).1]
  exact hzero j (hf.uarts ▸ hj) f hfu

/-- The fields that no command writes stay 0, also through a read-modify-write that other agents interrupt
(10_state R22, 41_line_init R133). -/
theorem step_unusedZero {s t : State} (hw : s.Wf) (hz : UnusedZero s) (h : step s = .next t) : UnusedZero t := by
  obtain ⟨u, hu, rfl⟩ := step_eq_next.mp h
  rw [unusedZero_nextTurn]
  obtain ⟨a, ha, hm, hf, -⟩ | ⟨i, hf, hrb⟩ := runTurn_wf_cases hw hu
  · exact hm.unusedZero hf hw hz ha
  · exact hf.unusedZero hrb hz

/-! ## Runs -/

/-- What holds of a launch and is kept by every step, whoever moves, holds of every state of every run
(00_scope R11). -/
theorem Reachable.invariant {p : Params} {progs : List (List CmdWord)} {P : State → Prop}
    (hlaunch : P (State.launch p progs)) (hturn : ∀ s m, P s → P (s.withTurn m))
    (hstep : ∀ s t, P s → step s = .next t → P t) {s : State} (h : Reachable p progs s) : P s := by
  induction h with
  | launch => exact hlaunch
  | move _ hm ih =>
    obtain ⟨m, hm⟩ := hm
    exact hstep _ _ (hturn _ m ih) hm

/-- The configuration of a run is the launch's (00_scope R8, 10_state R29). -/
theorem Reachable.par_progs {p : Params} {progs : List (List CmdWord)} {s : State} (h : Reachable p progs s) :
    s.par = p ∧ s.progs = progs :=
  h.invariant (P := fun s => s.par = p ∧ s.progs = progs) ⟨rfl, rfl⟩ (fun _ _ hs => hs) fun _ _ ⟨hp, hl⟩ h1 =>
    ⟨(step_par_progs h1).1.trans hp, (step_par_progs h1).2.trans hl⟩

/-- Settles O57: each part holds at the launch and is kept by every step of a well-formed state. -/
theorem reachableStatesAreSafe : Obligations.ReachableStatesAreSafe := fun p progs s hp hl h => by
  have hsafe : s.Wf ∧ RdrWritten s ∧ UnusedZero s :=
    h.invariant (P := fun s => s.Wf ∧ RdrWritten s ∧ UnusedZero s)
      ⟨launch_wf hp hl, launch_rdrWritten p progs, launch_unusedZero p progs⟩
      (fun _ m ⟨hw, hr, hz⟩ => ⟨hw.withTurn m, rdrWritten_withTurn.mpr hr, unusedZero_withTurn.mpr hz⟩)
      fun _ _ ⟨hw, hr, hz⟩ h1 => ⟨step_wf hw h1, step_rdrWritten hw hr h1, step_unusedZero hw hz h1⟩
  obtain ⟨hw, hr, hz⟩ := hsafe
  exact ⟨hw, hr, hz, h.par_progs⟩

end Sys2Proof.Machine
end

section
/-! PROOFS. The invariants of a step: the settled statements, and the command an agent is at
(10_state R28 to R31). -/

namespace Sys2Proof.Machine

/-- Settles O50: an agent's step keeps its handle and its FAULT consistent, any other move keeps the agents. -/
theorem stepKeepsWellFormed : Obligations.StepKeepsWellFormed := fun _ _ hw h => step_wf hw h

/-- Settles O52: a micro-step replaces no unused field of the word read, and no other access writes one. -/
theorem unusedFieldsStayZero : Obligations.UnusedFieldsStayZero := fun _ _ hw hz h => step_unusedZero hw hz h

/-- Settles O45: an agent's frame and the peripheral agent's both hold the configuration. -/
theorem streamsAreConfiguration : Obligations.StreamsAreConfiguration := fun _ _ h =>
  (step_par_progs h).symm

/-! ## The word of a decoded command -/

/-- Where a word has no bit of a mask of the bits from `n` up, those bits are 0. -/
theorem extractLsb'_eq_zero_of_and {w : CmdWord} {n m : Nat} (hm : n + m ≤ 16)
    (h : w &&& (BitVec.allOnes 16 <<< n) = 0) : w.extractLsb' n m = 0#m := by
  ext k hk
  have hb := congrArg (·.getLsbD (n + k)) h
  have h16 : n + k < 16 := by omega
  have hk16 : k < 16 := by omega
  simp only [BitVec.getLsbD_and, BitVec.getLsbD_shiftLeft, BitVec.getLsbD_allOnes] at hb
  simpa [h16, hk16] using hb

/-- A word of format R or X is its reserved bits, its handle and its `op` (30_encoding R81). -/
theorem append_handle_op {w : CmdWord} {op : BitVec 2} (hop : w.extractLsb' 0 2 = op) (hr : w &&& 0xFFF0#16 = 0) :
    (0#12 ++ w.extractLsb' 2 2 ++ op : BitVec 16) = w := by
  rw [← hop, ← extractLsb'_eq_zero_of_and (n := 4) (m := 12) (by decide) hr]
  simp only [BitVec.extractLsb'_append_extractLsb'_eq_extractLsb', BitVec.extractLsb'_eq_self]

theorem op_eq_three : ∀ op : BitVec 2, op ≠ 0b00#2 → op ≠ 0b01#2 → op ≠ 0b10#2 → op = 0b11#2 := by decide

/-- A command's word is the one it was decoded from: reserved bits are 0, and the others are the operands and `op`
(30_encoding R81, R88). -/
theorem encode_of_decode {w : CmdWord} {i : Instr} (h : decode w = .ok i) : encode i = w := by
  unfold decode at h
  split_ifs at h with h0 hr h1 hr h2 hr hr <;> cases h
  · exact append_handle_op h0 hr
  · rw [encode, ← h1, ← extractLsb'_eq_zero_of_and (n := 13) (m := 3) (by decide) hr]
    simp only [BitVec.extractLsb'_append_extractLsb'_eq_extractLsb', BitVec.extractLsb'_eq_self]
  · rw [encode, ← h2, ← extractLsb'_eq_zero_of_and (n := 12) (m := 4) (by decide) hr]
    simp only [BitVec.extractLsb'_append_extractLsb'_eq_extractLsb', BitVec.extractLsb'_eq_self]
  · exact append_handle_op (op_eq_three _ h0 h1 h2) hr

/-! ## The agent whose step it is -/

/-- A step changes an agent only as that agent's own step (00_scope R11). -/
theorem step_seq_cases {s t : State} (h : step s = .next t) (a : Nat) :
    t.seq a = s.seq a ∨
    (activeSeq s = some a ∧ ∃ u, seqStep a s = .next u ∧ t = nextTurn u) := by
  obtain ⟨u, hu, rfl⟩ := step_eq_next.mp h
  rw [seq_nextTurn]
  have keep : ∀ {i}, PerFrame i s u → u.seq a = s.seq a := fun hf => by simp only [State.seq, hf.seqs]
  obtain ⟨b, hb, hs⟩ | ⟨b, -, -, rfl⟩ | ⟨i, -, rfl⟩ | ⟨i, -, rfl⟩ | ⟨i, -, rfl⟩ | ⟨i, -, rfl⟩ := runTurn_cases hu
  · by_cases hab : a = b
    · subst hab
      exact .inr ⟨hb, u, hs, rfl⟩
    · exact .inl ((seqStep_frame hb hs).others a hab)
  · exact .inl rfl
  · exact .inl (keep (txLoad_frame i s))
  · exact .inl (keep (txFinish_frame i s))
  · exact .inl (keep (rxFrame_frame i s))
  · exact .inl (keep (lineFlags_frame i s))

/-- Agent `a` as `q` has gone on with the command it was at in `s`: the one it fetched there, or the one in progress.
`next` advances exactly where the command is over and the agent idle (10_state R30, R31). -/
structure GoesOn (a : Nat) (s : State) (q : Seq) : Prop where
  word : ((s.seq a).phase = .idle ∧ fetch a s = some q.CMD) ∨ ((s.seq a).phase ≠ .idle ∧ q.CMD = (s.seq a).CMD)
  next : q.next = if q.phase = .idle then (s.seq a).next + 1 else (s.seq a).next

theorem Seq.initAdvance_next (k : Fin 8) (q : Seq) :
    (q.initAdvance k).next = if (q.initAdvance k).phase = .idle then q.next + 1 else q.next := by
  unfold Seq.initAdvance
  split <;> rfl

theorem enterOf_next (p : Params) (i : Instr) (q : Seq) :
    (enterOf p i q).next = if (enterOf p i q).phase = .idle then q.next + 1 else q.next := by
  cases i <;> rfl

/-- An agent's step changes nothing of the agent or goes on with its command. -/
theorem SeqMove.goesOn {s t : State} {a : Nat} (h : SeqMove a s t) (ha : a < s.seqs.length) :
    t.seq a = s.seq a ∨ GoesOn a s (t.seq a) := by
  cases h with
  | stay => exact .inl rfl
  | reserved w hp hf =>
    rw [raiseFault, State.seq_modSeq_self ha]
    exact .inr ⟨.inl ⟨hp, hf⟩, rfl⟩
  | reject w i hp hf hd =>
    rw [raiseFault, State.seq_modSeq_self ha, encode_of_decode hd]
    exact .inr ⟨.inl ⟨hp, hf⟩, rfl⟩
  | accept w i hp hf hd =>
    rw [State.seq_modSeq_self ha, encode_of_decode hd]
    obtain ⟨hC, -⟩ := enterOf_keeps s.par i { s.seq a with CMD := w, H := i.handle }
    exact .inr ⟨.inl ⟨hp, hC ▸ hf⟩, enterOf_next _ _ _⟩
  | writeDivisor r u hp hu | writeBack k r u hp hu =>
    rw [(regWrite_frame hu).seq_modSeq ha]
    exact .inr ⟨.inr ⟨by simp [hp], by simp⟩, Seq.initAdvance_next _ _⟩
  | readBack k v hp | txReady hp | rxReady hp =>
    rw [State.seq_modSeq_self ha]
    exact .inr ⟨.inr ⟨by simp [hp], rfl⟩, rfl⟩
  | txWrite u hp hu =>
    rw [(regWrite_frame hu).seq_modSeq ha]
    exact .inr ⟨.inr ⟨by simp [hp], rfl⟩, rfl⟩
  | rxRead v u hp hu =>
    rw [(regRead_frame hu).seq_modSeq ha]
    exact .inr ⟨.inr ⟨by simp [hp], rfl⟩, rfl⟩

/-- A step changes an agent of a well-formed state only at its turn, going on with its command. -/
theorem step_goesOn {s t : State} (hw : s.Wf) (h : step s = .next t) (a : Nat) :
    t.seq a = s.seq a ∨ (s.turn = .seq a ∧ GoesOn a s (t.seq a)) := by
  obtain he | ⟨ha, u, hs, rfl⟩ := step_seq_cases h a
  · exact .inl he
  · obtain ⟨hturn, hlt⟩ := activeSeq_eq_some.mp ha
    rw [seq_nextTurn]
    exact ((seqStep_seqMove hw ha hs).goesOn hlt).imp_right fun hg => ⟨hturn, hg⟩

/-- Settles O46: a step that changes the agent goes on with its command, and that says what `next` becomes. -/
theorem nextAdvancesAtCompletion : Obligations.NextAdvancesAtCompletion := fun s t a hw h => by
  obtain he | ⟨hturn, hg⟩ := step_goesOn hw h a
  · rw [he]
    exact ⟨.inl rfl, fun hne => absurd rfl hne, fun _ => rfl⟩
  · have hn := hg.next
    by_cases hp : (t.seq a).phase = .idle
    · rw [if_pos hp] at hn
      exact ⟨.inr ⟨hn, hp, hturn⟩, fun _ _ => hn, fun hf => by rw [hp] at hf; cases hf⟩
    · rw [if_neg hp] at hn
      exact ⟨.inl hn, fun _ hi => absurd hi hp, fun _ => hn⟩

/-- The command that an agent goes on with is the one `next` named. -/
theorem GoesOn.fetch_eq {a : Nat} {s : State} {q : Seq} (h : GoesOn a s q)
    (hs : (s.seq a).phase ≠ .idle → fetch a s = some (s.seq a).CMD) : fetch a s = some q.CMD := by
  obtain ⟨-, hf⟩ | ⟨hp, hC⟩ := h.word
  · exact hf
  · rw [hC]
    exact hs hp

/-- Settles O56: an agent goes on with the word that `next` indexes, and moves past it only when it becomes idle. -/
theorem commandStaysInStream : Obligations.CommandStaysInStream := fun s t hw hc h a ha => by
  have hprog : t.prog a = s.prog a := by simp only [State.prog, (step_par_progs h).2]
  have hlen : t.seqs.length = s.seqs.length := by
    rw [(step_wf hw h).agents, (step_par_progs h).1, hw.agents]
  obtain ⟨hle, hcmd⟩ := hc a (hlen ▸ ha)
  unfold fetch
  rw [hprog]
  obtain he | ⟨-, hg⟩ := step_goesOn hw h a
  · rw [he]
    exact ⟨hle, hcmd⟩
  · have hf : (s.prog a)[(s.seq a).next]? = some (t.seq a).CMD := hg.fetch_eq hcmd
    have hlt : (s.seq a).next < (s.prog a).length := (List.getElem?_eq_some_iff.mp hf).1
    rw [hg.next]
    split
    · exact ⟨hlt, fun hp => absurd ‹_› hp⟩
    · exact ⟨hle, fun _ => hf⟩

end Sys2Proof.Machine
end

section
/-! PROOFS. What a step leaves of the agents, the control fields and the logs, also outside well-formed states
(10_state R21 to R26). -/

namespace Sys2Proof.Machine

/-! ## Control fields -/

/-- The environment's move of a clocked UART sets the four flags that are left to it (10_state R22). -/
theorem step_lineFlags_of_clocked {s : State} {i : Nat} (ht : s.turn = .lineFlags i) (hc : s.par.clocked i = true) :
    ∃ v, step s = .next (nextTurn (s.modRb i fun b => b.lineFlags v).useDraw) := by
  refine ⟨Config.drawLine s.draws, step_eq_next.mpr ⟨_, ?_, rfl⟩⟩
  simp only [runTurn, ht, lineFlags, hc, if_true]

theorem step_lineFlags_of_unclocked {s : State} {i : Nat} (ht : s.turn = .lineFlags i)
    (hc : s.par.clocked i = false) : step s = .next (nextTurn s) := by
  refine step_eq_next.mpr ⟨_, ?_, rfl⟩
  simp [runTurn, ht, lineFlags, hc]

/-- A step at no sequencer agent's turn does to a register block what the peripheral agent or the environment can do. -/
theorem step_perRb {s t : State} (h : step s = .next t) (hturn : ∀ b, s.turn ≠ .seq b) (j : Nat) :
    PerRb (s.uart j).rb (t.uart j).rb := by
  obtain ⟨u, hu, rfl⟩ := step_eq_next.mp h
  rw [uart_nextTurn]
  obtain ⟨a, ha, -⟩ | ⟨a, ht, -⟩ | ⟨i, -, rfl⟩ | ⟨i, -, rfl⟩ | ⟨i, -, rfl⟩ | ⟨i, -, rfl⟩ := runTurn_cases hu
  · exact absurd (activeSeq_eq_some.mp ha).1 (hturn a)
  · exact absurd ht (hturn a)
  · exact txLoad_rb i j s
  · exact txFinish_rb i j s
  · exact rxFrame_rb i j s
  · exact lineFlags_rb i j s

/-- Settles O34: only an agent's own step changes it, and the peripheral agent writes no field outside SR. -/
theorem otherMovesKeepControl : Obligations.OtherMovesKeepControl := by
  refine ⟨fun s i ht => ⟨fun hc => ?_, step_lineFlags_of_unclocked ht⟩, fun s t a h hne => ⟨?_, ?_⟩⟩
  · obtain ⟨v, hv⟩ := step_lineFlags_of_clocked ht hc
    exact ⟨_, _, _, _, hv⟩
  · obtain he | ⟨ha, -⟩ := step_seq_cases h a
    · exact he
    · exact absurd (activeSeq_eq_some.mp ha).1 hne
  · exact fun i hturn f hf => (step_perRb h hturn i).get_eq hf

/-! ## Logs -/

/-- An update of a UART that keeps its wire log keeps every wire log. -/
theorem State.wire_modUart {s : State} {i : Nat} {f : Uart → Uart} (hf : (f (s.uart i)).wire = (s.uart i).wire)
    (j : Nat) : ((s.modUart i f).uart j).wire = (s.uart j).wire := by
  rw [State.uart_modUart_eq]
  split
  · rename_i hj
    obtain ⟨rfl, -⟩ := hj
    exact hf
  · rfl

@[simp] theorem State.wire_modRb (s : State) (i j : Nat) (f : RegBlock → RegBlock) :
    ((s.modRb i f).uart j).wire = (s.uart j).wire := State.wire_modUart rfl j

@[simp] theorem Uart.markCorrupt_wire (u : Uart) : u.markCorrupt.wire = u.wire := by
  unfold Uart.markCorrupt
  split <;> rfl

theorem writeControl_wire (s : State) (i j : Nat) (r : Reg) (m : Bool) (v : Word32) :
    ((writeControl i r m v s).uart j).wire = (s.uart j).wire := by
  refine State.wire_modUart ?_ j
  cases m <;> simp

theorem regRead_wire {h : BitVec 2} {r : Reg} {s t : State} {v : Word32} (hr : regRead h r s = .next (v, t))
    (j : Nat) : (t.uart j).wire = (s.uart j).wire := by
  unfold regRead at hr
  split at hr
  · obtain ⟨-, rfl⟩ | ⟨i, r', -, -, he⟩ := memRead_cases hr
    · rfl
    · have hc := readReg_cases i r' s
      rw [he] at hc
      obtain ⟨-, rfl⟩ | ⟨-, rfl⟩ := hc
      · rfl
      · split <;> simp
  · cases hr

theorem regWrite_wire {h : BitVec 2} {r : Reg} {v : Word32} {s t : State} (hw : regWrite h r v s = .next t)
    (j : Nat) : (t.uart j).wire = (s.uart j).wire := by
  unfold regWrite at hw
  split at hw
  · obtain rfl | ⟨i, r', -, -, he⟩ := memWrite_cases hw
    · rfl
    · obtain ⟨-, rfl⟩ | ⟨-, -, rfl⟩ := writeReg_cases he
      · simp
      · exact writeControl_wire _ _ _ _ _ _
  · cases hw

theorem pollFlag_wire {h : BitVec 2} {f : Field} {s t : State} {x : Bool} (hp : pollFlag h f s = .next (x, t))
    (j : Nat) : (t.uart j).wire = (s.uart j).wire := by
  unfold pollFlag at hp
  obtain ⟨⟨v, u⟩, hr, he⟩ := Out.andThen_eq_next.mp hp
  cases he
  exact regRead_wire hr j

/-- What agent `a`'s step may do to the logs: its result log gains at most one entry, the wire logs stay
(10_state R26, R28). -/
structure AgentLogs (a : Nat) (s t : State) : Prop where
  wire : ∀ i, (t.uart i).wire = (s.uart i).wire
  results : (t.seq a).RES = (s.seq a).RES ∨ ∃ x, (t.seq a).RES = (s.seq a).RES ++ [x]

theorem AgentLogs.rfl {a : Nat} {s : State} : AgentLogs a s s := ⟨fun _ => .refl _, .inl (.refl _)⟩

/-- After a register access an agent's update may add one result. -/
theorem BusFrame.agentLogs {a : Nat} {s u : State} (hf : BusFrame s u) (ha : a < s.seqs.length)
    (hwire : ∀ i, (u.uart i).wire = (s.uart i).wire) {f : Seq → Seq}
    (hres : (f (s.seq a)).RES = (s.seq a).RES ∨ ∃ x, (f (s.seq a)).RES = (s.seq a).RES ++ [x]) :
    AgentLogs a s (u.modSeq a f) where
  wire := hwire
  results := by rwa [hf.seq_modSeq ha]

theorem enterOf_results (p : Params) (i : Instr) (q : Seq) :
    (enterOf p i q).RES = q.RES ∨ ∃ x, (enterOf p i q).RES = q.RES ++ [x] := by
  cases i with
  | resolve sel => exact .inr ⟨_, rfl⟩
  | initLine | transmit | receive => exact .inl rfl

/-- What an agent's step does to the logs. -/
theorem seqStep_logs {s t : State} {a : Nat} (ha : activeSeq s = some a) (h : seqStep a s = .next t) :
    AgentLogs a s t := by
  have hlt := (activeSeq_eq_some.mp ha).2
  cases hp : (s.seq a).phase with
  | idle =>
    obtain ⟨-, rfl⟩ | ⟨w, -, ⟨-, rfl⟩ | ⟨i, -, rfl⟩⟩ := seqStep_idle ha hp h
    · exact .rfl
    · exact BusFrame.rfl.agentLogs hlt (fun _ => rfl) (.inl rfl)
    · obtain ⟨-, he⟩ | ⟨-, he⟩ := acceptCommand_cases a i (enterOf s.par i) s
      · rw [he]
        exact BusFrame.rfl.agentLogs hlt (fun _ => rfl) (enterOf_results _ i _)
      · rw [he]
        exact BusFrame.rfl.agentLogs hlt (fun _ => rfl) (.inl rfl)
  | init k r =>
    simp only [seqStep, hp] at h
    obtain ⟨-, -, v, u, hr, rfl⟩ | ⟨v, u, hw, rfl⟩ := initMicro_cases h
    · exact (regRead_frame hr).agentLogs hlt (regRead_wire hr) (.inl rfl)
    · exact (regWrite_frame hw).agentLogs hlt (regWrite_wire hw) (.inl (Seq.initAdvance_RES _ _))
  | txHold | rxHold =>
    simp only [seqStep, hp] at h
    obtain rfl | ⟨u, hu, rfl⟩ := holdUntil_cases h
    · exact .rfl
    · exact (pollFlag_frame hu).agentLogs hlt (pollFlag_wire hu) (.inl rfl)
  | txWrite =>
    simp only [seqStep, hp] at h
    obtain ⟨u, hw, rfl⟩ := txWrite_cases h
    exact (regWrite_frame hw).agentLogs hlt (regWrite_wire hw) (.inl rfl)
  | rxRead =>
    simp only [seqStep, hp] at h
    obtain ⟨v, u, hr, rfl⟩ := rxRead_cases h
    exact (regRead_frame hr).agentLogs hlt (regRead_wire hr) (.inr ⟨_, rfl⟩)
  | faulted =>
    simp only [seqStep, hp] at h
    cases h
    exact .rfl

theorem txLoad_wire (i j : Nat) (s : State) : ((txLoad i s).uart j).wire = (s.uart j).wire := by
  unfold txLoad
  split
  · exact State.wire_modUart rfl j
  · rfl

theorem rxFrame_wire (i j : Nat) (s : State) : ((rxFrame i s).uart j).wire = (s.uart j).wire := by
  unfold rxFrame
  split
  · rw [State.uart_useDraw]
    exact State.wire_modUart rfl j
  · rfl

theorem lineFlags_wire (i j : Nat) (s : State) : ((lineFlags i s).uart j).wire = (s.uart j).wire := by
  obtain ⟨ne, idle, lbd, cts, h⟩ := lineFlags_uart i j s
  rw [h]

/-- TxFinish adds at most one entry to the wire log of its own UART (42_transfer R181). -/
theorem txFinish_wire (i j : Nat) (s : State) :
    ((txFinish i s).uart j).wire = (s.uart j).wire ∨
      ∃ e, i = j ∧ ((txFinish i s).uart j).wire = (s.uart j).wire ++ [e] := by
  unfold txFinish
  split
  · split
    · exact .inl rfl
    · rw [State.uart_useDraw, State.uart_modUart_eq]
      split
      · rename_i hj
        obtain ⟨rfl, -⟩ := hj
        exact .inr ⟨_, rfl, rfl⟩
      · exact .inl rfl
  · exact .inl rfl

/-- A step leaves each wire log, or is that UART's TxFinish and adds one entry (10_state R26). -/
theorem step_wire {s t : State} (h : step s = .next t) (j : Nat) :
    (t.uart j).wire = (s.uart j).wire ∨
      ∃ e, s.turn = .txFinish j ∧ (t.uart j).wire = (s.uart j).wire ++ [e] := by
  obtain ⟨u, hu, rfl⟩ := step_eq_next.mp h
  rw [uart_nextTurn]
  obtain ⟨a, ha, hs⟩ | ⟨a, -, -, rfl⟩ | ⟨i, -, rfl⟩ | ⟨i, ht, rfl⟩ | ⟨i, -, rfl⟩ | ⟨i, -, rfl⟩ := runTurn_cases hu
  · exact .inl ((seqStep_logs ha hs).wire j)
  · exact .inl rfl
  · exact .inl (txLoad_wire i j s)
  · obtain he | ⟨e, rfl, he⟩ := txFinish_wire i j s
    · exact .inl he
    · exact .inr ⟨e, ht, he⟩
  · exact .inl (rxFrame_wire i j s)
  · exact .inl (lineFlags_wire i j s)

/-- Settles O47: register accesses touch no log, so a result comes from the agent's own step and a wire entry from
TxFinish. -/
theorem logsOnlyGrow : Obligations.LogsOnlyGrow := fun s t h => by
  refine ⟨fun a => ?_, step_wire h⟩
  obtain he | ⟨ha, u, hs, rfl⟩ := step_seq_cases h a
  · exact .inl (by rw [he])
  · rw [seq_nextTurn]
    exact (seqStep_logs ha hs).results.imp_right fun ⟨x, hx⟩ => ⟨x, (activeSeq_eq_some.mp ha).1, hx⟩

end Sys2Proof.Machine
end

section
/-! PROOFS. How a step and `exec` of a command are related (10_state R28, R30). -/

namespace Sys2Proof.Machine

/-- Without an agent no command runs (log 11). -/
theorem exec_of_no_agent {s : State} (h : activeSeq s = none) (i : Instr) : exec i s = .fault .noSequencerAgent := by
  cases i <;> simp only [exec, execResolve, execInitLine, execTransmit, execReceive, h]

/-- Settles O10: each command's meaning looks at the agent, then at its phase. -/
theorem execOutsideItsCommandStops : Obligations.ExecOutsideItsCommandStops := by
  refine ⟨fun s i h => exec_of_no_agent h i, fun s a ht hlt => ?_⟩
  have ha : activeSeq s = some a := activeSeq_eq_some.mpr ⟨ht, hlt⟩
  refine ⟨fun sel hp => ?_, fun h cfg hp => ?_, fun h byte hp => ?_, fun h hp => ?_⟩
  · simp only [exec, execResolve, ha]
    cases hq : (s.seq a).phase <;> simp [hq, Phase.busy] at hp ⊢
  · simp only [exec, execInitLine, ha]
    cases hq : (s.seq a).phase <;> simp [hq] at hp ⊢
  · simp only [exec, execTransmit, ha]
    cases hq : (s.seq a).phase <;> simp [hq] at hp ⊢
  · simp only [exec, execReceive, ha]
    cases hq : (s.seq a).phase <;> simp [hq] at hp ⊢

/-- A step at the turn of an agent that exists is the agent's step, then the next turn (00_scope R11). -/
theorem step_of_agent {s : State} {a : Nat} (ht : s.turn = .seq a) (ha : a < s.seqs.length) :
    step s = Out.andThen (seqStep a s) fun t => .next (nextTurn t) := by
  simp only [step, runTurn, ht, ha, if_true]

/-- An idle agent's step is the acceptance of the word it fetches (10_state R30). -/
theorem seqStep_of_fetch {s : State} {a : Nat} {w : CmdWord} (hp : (s.seq a).phase = .idle)
    (hf : fetch a s = some w) : seqStep a s = acceptWord a w s := by
  simp only [seqStep, hp, hf]

/-- Settles O42: the turn selects the agent, its fetched word the command; the rest is the scheduler's. -/
theorem stepRunsDecodedCommand : Obligations.StepRunsDecodedCommand := by
  refine ⟨fun s a w i ht ha hp hf hd => ?_, fun s a w ht ha hp hf hd => ?_, fun t m ms h => ?_, fun t h => ?_⟩
  · rw [step_of_agent ht ha, seqStep_of_fetch hp hf, acceptWord, hd]
  · rw [step_of_agent ht ha, seqStep_of_fetch hp hf, acceptWord, hd]
    rfl
  · rw [nextTurn, h]
  · exact ⟨_, by rw [nextTurn, h]⟩

/-- Inside INITIALIZE the agent's step is INITIALIZE's, whatever its operands (10_state R28). -/
theorem seqStep_eq_exec_initLine {s : State} {a : Nat} (ha : activeSeq s = some a) {k : Fin 8} {r : Option Word32}
    (hp : (s.seq a).phase = .init k r) (h : BitVec 2) (cfg : BitVec 9) :
    seqStep a s = exec (.initLine h cfg) s := by
  simp only [seqStep, exec, execInitLine, ha, hp]

/-- Inside TRANSMIT the agent's step is TRANSMIT's, whatever its operands (10_state R28). -/
theorem seqStep_eq_exec_transmit {s : State} {a : Nat} (ha : activeSeq s = some a)
    (hp : (s.seq a).phase = .txHold ∨ (s.seq a).phase = .txWrite) (h : BitVec 2) (byte : Byte) :
    seqStep a s = exec (.transmit h byte) s := by
  obtain hp | hp := hp <;> simp only [seqStep, exec, execTransmit, ha, hp]

/-- Inside RECEIVE the agent's step is RECEIVE's, whatever its operand (10_state R28). -/
theorem seqStep_eq_exec_receive {s : State} {a : Nat} (ha : activeSeq s = some a)
    (hp : (s.seq a).phase = .rxHold ∨ (s.seq a).phase = .rxRead) (h : BitVec 2) :
    seqStep a s = exec (.receive h) s := by
  obtain hp | hp := hp <;> simp only [seqStep, exec, execReceive, ha, hp]

/-- Settles O43: inside a command the agent's step and the command's meaning are the same step of the phase. -/
theorem stepContinuesCommand : Obligations.StepContinuesCommand := fun s a ht hlt => by
  have ha : activeSeq s = some a := activeSeq_eq_some.mpr ⟨ht, hlt⟩
  rw [step_of_agent ht hlt]
  exact ⟨fun k r h cfg hp => by rw [seqStep_eq_exec_initLine ha hp h cfg],
    fun h byte hp => by rw [seqStep_eq_exec_transmit ha hp h byte],
    fun h hp => by rw [seqStep_eq_exec_receive ha hp h]⟩

end Sys2Proof.Machine
end

section
/-! PROOFS. The bus: which accesses have a meaning, and what an access of a clocked UART does (20_memory R60, R61, R66
to R68, R70). -/

namespace Sys2Proof.Machine

/-! ## Addresses -/

theorem off_of_regAt {L : Layout} {o : Nat} {r : Reg} (h : regAt L o = some r) : L.off r = o := by
  simpa using List.find?_some h

/-- The registers are at their own addresses and at no others (20_memory R60, R61). -/
theorem locate_eq_some_iff {p : Params} (hp : p.wf = true) {addr : Word32} {i : Nat} {r : Reg} :
    locate p addr = some (i, r) ↔ i < p.nInst ∧ addr = regAddr p i r := by
  constructor
  · intro h
    unfold locate at h
    split at h
    · cases h
    · rename_i j hj
      obtain ⟨q, hq, he⟩ := Option.map_eq_some_iff.mp h
      cases he
      obtain ⟨hi, hin, -⟩ := List.findIdx?_eq_some_iff_getElem.mp hj
      simp only [inWindow, Bool.and_eq_true, decide_eq_true_eq, ← Params.base_of_lt hi] at hin
      have hoff := off_of_regAt hq
      exact ⟨hi, BitVec.eq_of_toNat_eq (by rw [regAddr_toNat hp hi]; omega)⟩
  · rintro ⟨hi, rfl⟩
    exact locate_regAddr hp hi r

/-- Settles O35: a window's registers are found by their offsets, and the windows do not overlap. -/
theorem addressMapIsOneToOne : Obligations.AddressMapIsOneToOne := fun _ hp =>
  ⟨fun _ r hi => locate_regAddr hp hi r, fun _ _ _ h => (locate_eq_some_iff hp).mp h⟩

/-! ## Refused accesses -/

theorem access_of_width {n : Nat} (hn : n ≠ 4) (addr v : Word32) (s : State) :
    memRead addr n s = .refused .accessWidth ∧ memWrite addr n v s = .refused .accessWidth :=
  ⟨if_pos hn, if_pos hn⟩

theorem access_of_misaligned {addr : Word32} (ha : addr.toNat % 4 ≠ 0) (v : Word32) (s : State) :
    memRead addr 4 s = .refused .accessMisaligned ∧ memWrite addr 4 v s = .refused .accessMisaligned := by
  simp [memRead, memWrite, ha]

theorem access_of_not_located {s : State} {addr : Word32} (ha : addr.toNat % 4 = 0) (hl : locate s.par addr = none)
    (v : Word32) :
    memRead addr 4 s = .refused .accessOutsideWindows ∧ memWrite addr 4 v s = .refused .accessOutsideWindows := by
  simp [memRead, memWrite, ha, hl]

/-- Settles O36: the bus checks the width, then the alignment, then that the address is a register's. -/
theorem oddAccessesRefused : Obligations.OddAccessesRefused := fun s addr v _ =>
  ⟨fun hn => access_of_width hn addr v s, fun ha => access_of_misaligned ha v s,
    fun ha hl => access_of_not_located ha hl v⟩

/-! ## Registers other than DR -/

theorem readReg_of_ne_dr {r : Reg} (hr : r ≠ .dr) (i : Nat) (s : State) :
    readReg i r s = (readWord s.par.layout (s.uart i).rb (Config.drawRDR s.draws) r, s) := by
  obtain ⟨-, h⟩ | ⟨h, -⟩ := readReg_cases i r s
  · exact Prod.ext (readReg_value i r s) h
  · exact absurd h hr

theorem writeReg_of_control {r : Reg} (h1 : r ≠ .sr) (h2 : r ≠ .dr) (i : Nat) (v : Word32) (s : State) :
    writeReg i r v s = .next (writeControl i r (decide (r = .brr ∨ r = .cr1 ∨ r = .cr2)) v s) := by
  cases r with
  | sr => exact absurd rfl h1
  | dr => exact absurd rfl h2
  | brr | cr1 | cr2 | cr3 | gtpr => rfl

/-- Of a UART the corrupt mark changes at most the shift logic, and there it is set (42_transfer R184). -/
theorem Uart.markCorrupt_cases (u : Uart) :
    u.markCorrupt = u ∨ ∃ v fmt c, u.sh = .busy v fmt c ∧ u.markCorrupt = { u with sh := .busy v fmt true } := by
  unfold Uart.markCorrupt
  split
  · exact .inl rfl
  · rename_i v fmt c hsh
    by_cases hx : (c || decide (u.rb.format ≠ fmt)) = true
    · rw [hx]
      exact .inr ⟨v, fmt, c, hsh, rfl⟩
    · obtain ⟨hc, -⟩ : c = false ∧ _ := by simpa using hx
      rw [Bool.eq_false_iff.mpr hx, ← hc, ← hsh]
      exact .inl rfl

/-- A control write sets the register's fields and leaves of its UART all else but the mark (20_memory R68). -/
theorem writeControl_uart_self {s : State} {i : Nat} (hi : i < s.uarts.length) (r : Reg) (m : Bool) (v : Word32) :
    ∃ sh, (writeControl i r m v s).uart i =
        { s.uart i with rb := writeFields s.par.layout (s.uart i).rb r v, sh := sh } ∧
      (sh = (s.uart i).sh ∨ ∃ x fmt c, (s.uart i).sh = .busy x fmt c ∧ sh = .busy x fmt true) := by
  rw [writeControl, State.uart_modUart_self hi]
  cases m with
  | false => exact ⟨_, rfl, .inl rfl⟩
  | true =>
    obtain he | ⟨x, fmt, c, hsh, he⟩ :=
      Uart.markCorrupt_cases { s.uart i with rb := writeFields s.par.layout (s.uart i).rb r v }
    · exact ⟨_, he, .inl rfl⟩
    · exact ⟨_, he, .inr ⟨x, fmt, c, hsh, rfl⟩⟩

theorem control_of_mem {r : Reg} (h : r ∈ [Reg.brr, Reg.cr1, Reg.cr2, Reg.cr3, Reg.gtpr]) : r ≠ .sr ∧ r ≠ .dr := by
  constructor <;> rintro rfl <;> simp at h

/-- Settles O37: a read packs the register's fields, a write unpacks them again. -/
theorem controlAccesses : Obligations.ControlAccesses := fun s h hw hh hc => by
  have hi : h.toNat < s.uarts.length := hw.uarts ▸ hh
  refine ⟨fun r hr => ?_, fun r x hr => ?_, fun x => ?_⟩
  · rw [regRead_eq hw.params hh, if_pos hc, readReg_of_ne_dr hr]
    exact ⟨_, rfl, fun f hf => extractField_readWord (Params.layout_wf hw.params) _ _ hf,
      readWord_reserved _ _ _ hr⟩
  · obtain ⟨h1, h2⟩ := control_of_mem hr
    rw [regWrite_eq hw.params hh, if_pos hc, writeReg_of_control h1 h2]
    obtain ⟨sh, hu, hsh⟩ := writeControl_uart_self hi r (decide (r = .brr ∨ r = .cr1 ∨ r = .cr2)) x
    refine ⟨_, rfl, ?_⟩
    rw [hu]
    refine ⟨fun f hf => ?_, fun f hf => ?_, writeFields_TDR _ _ _ _, writeFields_RDR _ _ _ _, hsh, rfl, rfl,
      fun i hne => State.uart_modUart_ne hne _, rfl⟩
    · rw [get_writeFields, if_pos hf]
    · rw [get_writeFields, if_neg hf]
  · rw [regWrite_eq hw.params hh, if_pos hc]
    rfl

/-! ## DR -/

/-- A DR write stores the 9 bits at DR's place (20_memory R63, R66). -/
theorem regWrite_dr {s : State} (hp : s.par.wf = true) {h : BitVec 2} (hh : h.toNat < s.par.nInst)
    (hc : s.par.clocked h.toNat = true) (v : Word32) :
    regWrite h .dr v s =
      .next (s.modRb h.toNat fun b => b.dataWrite ((v >>> s.par.layout.drPos).setWidth 9)) := by
  rw [regWrite_eq hp hh, if_pos hc]
  rfl

/-- A DR read of a written RDR returns it at DR's place (20_memory R63, R67). -/
theorem regRead_dr {s : State} (hp : s.par.wf = true) {h : BitVec 2} (hh : h.toNat < s.par.nInst)
    (hc : s.par.clocked h.toNat = true) {v : BitVec 9} (hv : (s.uart h.toNat).rb.RDR = some v) :
    regRead h .dr s = .next (v.setWidth 32 <<< s.par.layout.drPos, s.modRb h.toNat RegBlock.dataRead) := by
  rw [regRead_eq hp hh, if_pos hc]
  simp only [readReg, readWord, hv, Option.getD_some, Option.isSome_some, if_true]

/-- Settles O38: in the reference profile DR's data bits are at bit 0. -/
theorem dataAccesses : Obligations.DataAccesses := fun s h x hp hL hh hc => by
  have hd : s.par.layout.drPos = 0 := by rw [hL]; rfl
  refine ⟨?_, fun v hv => ?_⟩
  · have hx : (x >>> 0).setWidth 9 = x.extractLsb' 0 9 := rfl
    rw [regWrite_dr hp hh hc, hd, hx]
    rfl
  · rw [regRead_dr hp hh hc hv, hd, BitVec.shiftLeft_zero]
    rfl

end Sys2Proof.Machine
end

section
/-! PROOFS. An unclocked UART (20_memory R69). -/

namespace Sys2Proof.Machine

theorem access_of_unclocked {s : State} (hp : s.par.wf = true) {h : BitVec 2} (hh : h.toNat < s.par.nInst)
    (hc : s.par.clocked h.toNat = false) (r : Reg) (x : Word32) :
    regRead h r s = .next (0, s) ∧ regWrite h r x s = .next s := by
  rw [regRead_eq hp hh, regWrite_eq hp hh, hc]
  exact ⟨rfl, rfl⟩

theorem peripheral_of_unclocked {s : State} {i : Nat} (hc : s.par.clocked i = false) :
    enabled s (.txLoad i) = false ∧ enabled s (.txFinish i) = false ∧ enabled s (.rxFrame i) = false := by
  simp [enabled, txLoadEnabled, rxFrameEnabled, hc]

/-- Agent `a` waits for a flag of a UART that has no clock. -/
structure WaitsUnclocked (a : Nat) (s : State) : Prop where
  unclocked : s.par.clocked (s.seq a).H.toNat = false
  holds : (s.seq a).phase = .txHold ∨ (s.seq a).phase = .rxHold

/-- A hold on an unclocked UART polls a flag that reads 0 (20_memory R69, 42_transfer R161, R166). -/
theorem holdUntil_of_unclocked {s : State} {a : Nat} {f : Field} (hp : s.par.wf = true)
    (hh : (s.seq a).H.toNat < s.par.nInst) (hf : f ∈ Reg.sr.fields) (hc : s.par.clocked (s.seq a).H.toNat = false)
    (ph : Phase) : holdUntil a f ph s = .next s := by
  apply holdUntil_of_not_set hp hh hf
  rw [pollFlag_eq hp hh hf, hc]
  rfl

theorem WaitsUnclocked.seqStep_eq {s : State} {a : Nat} (h : WaitsUnclocked a s) (hw : s.Wf) (ha : a < s.seqs.length) :
    seqStep a s = .next s := by
  have hh := hw.handles a ha
  obtain hp | hp := h.holds
  · simp only [seqStep, hp]
    exact holdUntil_of_unclocked hw.params (hh (by rw [hp]; rfl)) (by decide) h.unclocked _
  · simp only [seqStep, hp]
    exact holdUntil_of_unclocked hw.params (hh (by rw [hp]; rfl)) (by decide) h.unclocked _

/-- No step changes an agent that waits on an unclocked UART, whoever moves. -/
theorem WaitsUnclocked.step_seq_eq {s t : State} {a : Nat} (h : WaitsUnclocked a s) (hw : s.Wf)
    (hs : step s = .next t) : t.seq a = s.seq a := by
  obtain he | ⟨ha, u, hu, rfl⟩ := step_seq_cases hs a
  · exact he
  · rw [h.seqStep_eq hw (activeSeq_eq_some.mp ha).2] at hu
    cases hu
    exact seq_nextTurn s a

/-- A run of `n + 1` steps is a step and a run of `n`. -/
theorem run_succ {n : Nat} {s t : State} (h : Host.Core.run Sys2Proof.core (n + 1) s = .next t) :
    ∃ u, step s = .next u ∧ Host.Core.run Sys2Proof.core n u = .next t := by
  simp only [Host.Core.run] at h
  split at h
  · exact ⟨_, ‹_›, h⟩
  · cases h
  · cases h

theorem WaitsUnclocked.run_seq_eq {a : Nat} {t : State} (n : Nat) {s : State} (h : WaitsUnclocked a s) (hw : s.Wf)
    (hr : Host.Core.run Sys2Proof.core n s = .next t) : t.seq a = s.seq a := by
  induction n generalizing s with
  | zero =>
    cases hr
    rfl
  | succ n ih =>
    obtain ⟨u, hu, hr⟩ := run_succ hr
    have hseq := h.step_seq_eq hw hu
    have hwait : WaitsUnclocked a u :=
      ⟨by rw [hseq, (step_par_progs hu).1]; exact h.unclocked, by rw [hseq]; exact h.holds⟩
    rw [ih hwait (step_wf hw hu) hr, hseq]

/-- Settles O39: the flags that a TRANSMIT or RECEIVE polls read 0, so it holds at each of its turns. -/
theorem unclockedReadsZero : Obligations.UnclockedReadsZero :=
  ⟨fun _ _ r x hp hh hc => access_of_unclocked hp hh hc r x, fun _ _ hc => peripheral_of_unclocked hc,
    fun n _ _ _ hw _ hc hh hr => WaitsUnclocked.run_seq_eq n ⟨hc, hh⟩ hw hr⟩

end Sys2Proof.Machine
end

section
/-! PROOFS. What a step of a command leaves of the bytes of the address space (20_memory R66 to R68, R71). -/

namespace Sys2Proof.Machine

/-- Past acceptance a command's meaning that goes on is the step of the agent's phase (10_state R28). -/
theorem seqStep_of_exec {s t : State} {a : Nat} (ha : activeSeq s = some a) (hp : (s.seq a).phase ≠ .idle) {i : Instr}
    (h : exec i s = .next t) : seqStep a s = .next t := by
  cases i with
  | resolve sel =>
    simp only [exec, execResolve, ha] at h
    cases hq : (s.seq a).phase <;> simp_all [seqStep]
  | initLine g cfg =>
    simp only [exec, execInitLine, ha] at h
    cases hq : (s.seq a).phase <;> simp_all [seqStep]
  | transmit g byte =>
    simp only [exec, execTransmit, ha] at h
    cases hq : (s.seq a).phase <;> simp_all [seqStep]
  | receive g =>
    simp only [exec, execReceive, ha] at h
    cases hq : (s.seq a).phase <;> simp_all [seqStep]

/-! ## Steps that store nothing -/

theorem handle_lt_of_regRead {h : BitVec 2} {r : Reg} {s : State} {x : Word32 × State}
    (hr : regRead h r s = .next x) : h.toNat < s.par.nInst := by
  unfold regRead at hr
  split at hr
  · assumption
  · cases hr

theorem pollFlag_state {s t : State} (hp : s.par.wf = true) {h : BitVec 2} {f : Field} {x : Bool}
    (hf : pollFlag h f s = .next (x, t)) : t = s := by
  obtain ⟨⟨v, u⟩, hr, he⟩ := Out.andThen_eq_next.mp hf
  cases he
  exact regRead_state hp (handle_lt_of_regRead hr) (by decide) hr

/-- `t` has the parameters and the UARTs of `s`. -/
structure SameMemory (s t : State) : Prop where
  par : t.par = s.par
  uarts : t.uarts = s.uarts

theorem SameMemory.rfl {s : State} : SameMemory s s := ⟨.refl _, .refl _⟩

theorem SameMemory.modSeq (s : State) (a : Nat) (f : Seq → Seq) : SameMemory s (s.modSeq a f) := ⟨.refl _, .refl _⟩

/-- The bytes of the address space are those of the register blocks. -/
theorem SameMemory.peekByte_eq {s t : State} (h : SameMemory s t) (addr : Word32) :
    peekByte t addr = peekByte s addr := by
  simp only [peekByte, peekWord, State.uart, h.par, h.uarts]

theorem acceptCommand_sameMemory (a : Nat) (i : Instr) (enter : Seq → Seq) (s : State) :
    SameMemory s (acceptCommand a i enter s) := by
  obtain ⟨-, he⟩ | ⟨-, he⟩ := acceptCommand_cases a i enter s <;> rw [he] <;> exact .modSeq s a _

theorem holdUntil_sameMemory {s t : State} (hp : s.par.wf = true) {a : Nat} {f : Field} {ph : Phase}
    (h : holdUntil a f ph s = .next t) : SameMemory s t := by
  obtain rfl | ⟨u, hu, rfl⟩ := holdUntil_cases h
  · exact .rfl
  · obtain rfl := pollFlag_state hp hu
    exact .modSeq u a _

theorem initRead_sameMemory {s t : State} (hp : s.par.wf = true) {a : Nat} {k : Fin 8}
    (h : initRead a k s = .next t) : SameMemory s t := by
  obtain ⟨⟨v, u⟩, hr, he⟩ := Out.andThen_eq_next.mp h
  cases he
  obtain rfl := regRead_state hp (handle_lt_of_regRead hr) (initReg_ne k).2 hr
  exact .modSeq u a _

/-- Settles O40: such a step writes the agent's own latches only. -/
theorem nonStoringStepsKeepEveryByte : Obligations.NonStoringStepsKeepEveryByte := fun s t a i hp ht hlt hph h => by
  have ha : activeSeq s = some a := activeSeq_eq_some.mpr ⟨ht, hlt⟩
  suffices hm : SameMemory s t from ⟨hm.uarts, hm.peekByte_eq⟩
  by_cases hidle : (s.seq a).phase = .idle
  · rw [exec_idle ha hidle] at h
    cases h
    exact acceptCommand_sameMemory a i _ s
  · have hs := seqStep_of_exec ha hidle h
    obtain hq | hq | hq | hq | ⟨k, hk, hq⟩ := hph <;> simp only [seqStep, hq] at hs
    · exact absurd hq hidle
    · exact holdUntil_sameMemory hp hs
    · exact holdUntil_sameMemory hp hs
    · cases hs
      exact .rfl
    · simp only [initMicro, hk, if_false] at hs
      exact initRead_sameMemory hp hs

/-! ## Steps that access a register -/

/-- The address lies in the four bytes of a register. -/
def InRegister (p : Params) (i : Nat) (r : Reg) (addr : Word32) : Prop :=
  (regAddr p i r).toNat ≤ addr.toNat ∧ addr.toNat < (regAddr p i r).toNat + 4

theorem and_not_three_toNat (addr : Word32) : (addr &&& ~~~3#32).toNat = addr.toNat / 4 * 4 := by
  have hmask : ∀ k < 32, (~~~3#32).getLsbD k = !decide (k < 2) := by decide
  have h : addr &&& ~~~3#32 = (addr >>> 2) <<< 2 := by
    apply BitVec.eq_of_getLsbD_eq
    intro k hk
    rw [BitVec.getLsbD_and, hmask k hk, BitVec.getLsbD_shiftLeft, BitVec.getLsbD_ushiftRight]
    by_cases h2 : k < 2
    · simp [h2]
    · simp [hk, h2, Nat.add_sub_cancel' (Nat.not_lt.mp h2)]
  have hlt := addr.isLt
  rw [h, BitVec.toNat_shiftLeft, BitVec.toNat_ushiftRight, Nat.shiftLeft_eq, Nat.shiftRight_eq_div_pow]
  omega

/-- A byte that the bus finds in a register lies in that register (20_memory R71). -/
theorem inRegister_of_locate {p : Params} (hp : p.wf = true) {addr : Word32} {i : Nat} {r : Reg}
    (h : locate p (addr &&& ~~~3#32) = some (i, r)) : InRegister p i r addr := by
  obtain ⟨-, he⟩ := (locate_eq_some_iff hp).mp h
  have hn := and_not_three_toNat addr
  rw [he] at hn
  constructor <;> omega

/-- `t` differs from `s` in memory at most in fields of the registers `rs` of UART `i` and in the TDRs, which no
read returns. -/
structure ChangesOnly (i : Nat) (rs : List Reg) (s t : State) : Prop where
  par : t.par = s.par
  rdr : ∀ j, (t.uart j).rb.RDR = (s.uart j).rb.RDR
  fields : ∀ j r, (j = i → r ∉ rs) → ∀ f ∈ r.fields, (t.uart j).rb.get f = (s.uart j).rb.get f

theorem ChangesOnly.rfl {i : Nat} {rs : List Reg} {s : State} : ChangesOnly i rs s s :=
  ⟨.refl _, fun _ => .refl _, fun _ _ _ _ _ => .refl _⟩

/-- One register block changed, by a function that keeps RDR and the fields of the other registers. -/
theorem ChangesOnly.of_rb {i : Nat} {rs : List Reg} {s t : State} (hpar : t.par = s.par) {b : RegBlock}
    (hb : ∀ j, (t.uart j).rb = if j = i ∧ i < s.uarts.length then b else (s.uart j).rb)
    (hrdr : b.RDR = (s.uart i).rb.RDR)
    (hget : ∀ r ∉ rs, ∀ f ∈ r.fields, b.get f = (s.uart i).rb.get f) : ChangesOnly i rs s t where
  par := hpar
  rdr j := by
    rw [hb]
    split
    · rename_i hj
      obtain ⟨rfl, -⟩ := hj
      exact hrdr
    · rfl
  fields j r hr f hf := by
    rw [hb]
    split
    · rename_i hj
      obtain ⟨rfl, -⟩ := hj
      exact hget r (hr (.refl _)) f hf
    · rfl

theorem ChangesOnly.modSeq {i : Nat} {rs : List Reg} {s t : State} (h : ChangesOnly i rs s t) (a : Nat)
    (f : Seq → Seq) : ChangesOnly i rs s (t.modSeq a f) := ⟨h.par, h.rdr, h.fields⟩

theorem readWord_of_ne_dr {r : Reg} (hr : r ≠ .dr) (L : Layout) (b : RegBlock) (u : BitVec 9) :
    readWord L b u r = r.fields.foldl (fun acc f => acc ||| placeField L f (b.get f)) 0 := by
  cases r with
  | dr => exact absurd rfl hr
  | sr | brr | cr1 | cr2 | cr3 | gtpr => rfl

/-- A register's word depends on RDR and the register's fields only (20_memory R62 to R65). -/
theorem readWord_congr {L : Layout} {b c : RegBlock} {u : BitVec 9} {r : Reg} (hrdr : c.RDR = b.RDR)
    (hget : ∀ f ∈ r.fields, c.get f = b.get f) : readWord L c u r = readWord L b u r := by
  by_cases hr : r = .dr
  · subst hr
    simp only [readWord, hrdr]
  · rw [readWord_of_ne_dr hr, readWord_of_ne_dr hr]
    exact List.foldl_ext _ _ _ fun acc f hf => by rw [hget f hf]

/-- Outside those registers every register reads as before. -/
theorem ChangesOnly.peekWord_eq {i : Nat} {rs : List Reg} {s t : State} (h : ChangesOnly i rs s t) {j : Nat} {r : Reg}
    (hr : j = i → r ∉ rs) : peekWord t j r = peekWord s j r := by
  unfold peekWord
  rw [h.par, h.rdr]
  split
  · rfl
  · split
    · rfl
    · exact congrArg some (readWord_congr (h.rdr j) (h.fields j _ hr))

/-- A byte outside those registers is as before. -/
theorem ChangesOnly.peekByte_eq {i : Nat} {rs : List Reg} {s t : State} (h : ChangesOnly i rs s t)
    (hp : s.par.wf = true) {addr : Word32} (hout : ∀ r ∈ rs, ¬ InRegister s.par i r addr) :
    peekByte t addr = peekByte s addr := by
  unfold peekByte
  rw [h.par]
  cases hl : locate s.par (addr &&& ~~~3#32) with
  | none => rfl
  | some x =>
    obtain ⟨j, r⟩ := x
    have hr : j = i → r ∉ rs := by
      rintro rfl hmem
      exact hout r hmem (inRegister_of_locate hp hl)
    simp only [h.peekWord_eq hr]

theorem not_mem_fields_of_ne {f : Field} {q r : Reg} (hf : f ∈ q.fields) (h : q ≠ r) : f ∉ r.fields := by
  rw [mem_fields_iff] at hf ⊢
  exact fun hr => h (hf ▸ hr)

theorem State.modRb_rb (s : State) (i j : Nat) (f : RegBlock → RegBlock) :
    ((s.modRb i f).uart j).rb = if j = i ∧ i < s.uarts.length then f (s.uart i).rb else (s.uart j).rb := by
  rw [State.uart_modRb_eq]
  split <;> rfl

/-- A control write changes its register only (20_memory R68). -/
theorem regWrite_changesOnly_control {s t : State} (hp : s.par.wf = true) {h : BitVec 2}
    (hh : h.toNat < s.par.nInst) {r : Reg} (hr : r ≠ .dr) {v : Word32} (hw : regWrite h r v s = .next t) :
    ChangesOnly h.toNat [r] s t := by
  obtain rfl | ⟨-, hd, -⟩ | ⟨-, -, -, rfl⟩ := regWrite_cases hp hh hw
  · exact .rfl
  · exact absurd hd hr
  · refine .of_rb rfl (fun j => writeControl_rb s _ j r _ v) (writeFields_RDR _ _ _ _) fun q hq f hf => ?_
    rw [get_writeFields, if_neg (not_mem_fields_of_ne hf (by simpa using hq))]

/-- A DR write changes DR's TDR and two flags of SR (20_memory R66). -/
theorem regWrite_changesOnly_data {s t : State} (hp : s.par.wf = true) {h : BitVec 2} (hh : h.toNat < s.par.nInst)
    {v : Word32} (hw : regWrite h .dr v s = .next t) : ChangesOnly h.toNat [.dr, .sr] s t := by
  obtain rfl | ⟨-, -, rfl⟩ | ⟨-, hd, -⟩ := regWrite_cases hp hh hw
  · exact .rfl
  · refine .of_rb rfl (fun j => State.modRb_rb s _ j _) rfl fun q hq f hf => ?_
    have hsr : f ∉ Reg.sr.fields := not_mem_fields_of_ne hf (by rintro rfl; simp at hq)
    exact get_dataWrite _ _ (ne_of_not_sr hsr (by decide)) (ne_of_not_sr hsr (by decide))
  · exact absurd rfl hd

/-- A DR read changes four flags of SR (20_memory R67). -/
theorem regRead_changesOnly_data {s t : State} (hp : s.par.wf = true) {h : BitVec 2} (hh : h.toNat < s.par.nInst)
    {v : Word32} (hr : regRead h .dr s = .next (v, t)) : ChangesOnly h.toNat [.dr, .sr] s t := by
  have hpar := (regRead_frame hr).par
  obtain hu | ⟨-, -, hu⟩ := regRead_cases hp hh hr
  · have hj : ∀ j, t.uart j = s.uart j := fun j => by simp only [State.uart, hu]
    exact ⟨hpar, fun j => by rw [hj], fun j _ _ _ _ => by rw [hj]⟩
  · have hj : ∀ j, t.uart j = (s.modRb h.toNat RegBlock.dataRead).uart j := fun j => by simp only [State.uart, hu]
    refine .of_rb hpar (b := (s.uart h.toNat).rb.dataRead) (fun j => by rw [hj]; exact State.modRb_rb s _ j _) rfl
      fun q hq f hf => ?_
    exact get_dataRead _ (not_mem_fields_of_ne hf (by rintro rfl; simp at hq))

/-- A micro-step that does not read changes its own register only (41_line_init R132, R133). -/
theorem initMicro_changesOnly {s t : State} (hp : s.par.wf = true) {a : Nat} (hh : (s.seq a).H.toNat < s.par.nInst)
    {k : Fin 8} {r : Option Word32} (hkr : k = 0 ∨ r ≠ none) (h : initMicro a k r s = .next t) :
    ChangesOnly (s.seq a).H.toNat [initReg k] s t := by
  obtain ⟨hk, hr, -⟩ | ⟨v, u, hu, rfl⟩ := initMicro_cases h
  · exact absurd hkr (not_or.mpr ⟨hk, not_not.mpr hr⟩)
  · exact (regWrite_changesOnly_control hp hh (initReg_ne k).2 hu).modSeq a _

/-- A DR access of TRANSMIT or RECEIVE changes DR and SR only (42_transfer R162, R167). -/
theorem seqStep_changesOnly_data {s t : State} (hp : s.par.wf = true) {a : Nat}
    (hh : (s.seq a).H.toNat < s.par.nInst) (hph : (s.seq a).phase = .txWrite ∨ (s.seq a).phase = .rxRead)
    (h : seqStep a s = .next t) : ChangesOnly (s.seq a).H.toNat [.dr, .sr] s t := by
  obtain hq | hq := hph <;> simp only [seqStep, hq] at h
  · obtain ⟨u, hu, rfl⟩ := txWrite_cases h
    exact (regWrite_changesOnly_data hp hh hu).modSeq a _
  · obtain ⟨v, u, hu, rfl⟩ := rxRead_cases h
    exact (regRead_changesOnly_data hp hh hu).modSeq a _

/-- Settles O41: each access changes the register blocks only in the registers it may, and a byte is of one register. -/
theorem storingStepsKeepOtherBytes : Obligations.StoringStepsKeepOtherBytes := fun s t a i hw ht hlt h => by
  have ha : activeSeq s = some a := activeSeq_eq_some.mpr ⟨ht, hlt⟩
  have hh := hw.handles a hlt
  refine ⟨fun k r hq hkr addr hout => ?_, fun hq addr hdr hsr => ?_⟩
  · have hs := seqStep_of_exec ha (by simp [hq]) h
    simp only [seqStep, hq] at hs
    have hc := initMicro_changesOnly hw.params (hh (by rw [hq]; rfl)) hkr hs
    exact hc.peekByte_eq hw.params (List.forall_mem_singleton.mpr hout)
  · have hs := seqStep_of_exec ha (by obtain hq | hq := hq <;> simp [hq]) h
    have hc := seqStep_changesOnly_data hw.params (hh (by obtain hq | hq := hq <;> rw [hq] <;> rfl)) hq hs
    exact hc.peekByte_eq hw.params (List.forall_mem_cons.mpr ⟨hdr, List.forall_mem_singleton.mpr hsr⟩)

end Sys2Proof.Machine
end

section
/-! PROOFS. The command words: the rows of the opcode map, and decoding against encoding (30_encoding R81, R82,
R88, R94). -/

namespace Sys2Proof

/-! ## The operands in a command's word -/

/-- The handle field of a command's word is the UART it names (30_encoding R82). -/
@[simp] theorem extractLsb'_handle_encode (i : Instr) : (encode i).extractLsb' 2 2 = i.handle := by
  cases i <;>
    simp only [encode, BitVec.extractLsb'_append_eq_of_le (Nat.le_refl 2), Nat.sub_self,
      BitVec.extractLsb'_append_eq_right, Instr.handle]

/-- Past `op` and the handle field, the bits of a word are its payload's (30_encoding R81). -/
theorem extractLsb'_payload {n k : Nat} (x : BitVec (n + k)) (h op : BitVec 2) :
    (x ++ h ++ op).extractLsb' 4 k = x.extractLsb' 0 k := by
  rw [BitVec.extractLsb'_append_eq_of_le (by decide), BitVec.extractLsb'_append_eq_of_le (by decide)]

/-- The configuration in the word of an INITIALIZE (30_encoding R82). -/
@[simp] theorem extractLsb'_cfg_encode (h : BitVec 2) (cfg : BitVec 9) :
    (encode (.initLine h cfg)).extractLsb' 4 9 = cfg :=
  (extractLsb'_payload (0#3 ++ cfg) h _).trans BitVec.extractLsb'_append_eq_right

/-- The byte in the word of a TRANSMIT (30_encoding R82). -/
@[simp] theorem extractLsb'_byte_encode (h : BitVec 2) (byte : Byte) :
    (encode (.transmit h byte)).extractLsb' 4 8 = byte :=
  (extractLsb'_payload (0#4 ++ byte) h _).trans BitVec.extractLsb'_append_eq_right

/-! ## The rows of the opcode map -/

/-- A row's mask covers `op` and the reserved bits `m` of the format: a word that matches the row has the row's `op`
and no reserved bit (30_encoding R88). -/
theorem op_and_reserved_of_match {w mask m v : CmdWord} (hop : mask.extractLsb' 0 2 = BitVec.allOnes 2)
    (hm : mask &&& m = m) (hv : v &&& m = 0) (h : w &&& mask = v) :
    w.extractLsb' 0 2 = v.extractLsb' 0 2 ∧ w &&& m = 0 := by
  constructor
  · rw [← h, BitVec.extractLsb'_and, hop, BitVec.and_allOnes]
  · rw [← hm, ← BitVec.and_assoc, h, hv]

theorem decode_of_match_resolve {w : CmdWord} (h : w &&& 0xFFF3 = 0x0000) :
    decode w = .ok (.resolve (w.extractLsb' 2 2)) := by
  obtain ⟨hop, hr⟩ := op_and_reserved_of_match (m := 0xFFF0#16) rfl rfl rfl h
  simp [decode, hop, hr]

theorem decode_of_match_initLine {w : CmdWord} (h : w &&& 0xE003 = 0x0001) :
    decode w = .ok (.initLine (w.extractLsb' 2 2) (w.extractLsb' 4 9)) := by
  obtain ⟨hop, hr⟩ := op_and_reserved_of_match (m := 0xE000#16) rfl rfl rfl h
  simp [decode, hop, hr]

theorem decode_of_match_transmit {w : CmdWord} (h : w &&& 0xF003 = 0x0002) :
    decode w = .ok (.transmit (w.extractLsb' 2 2) (w.extractLsb' 4 8)) := by
  obtain ⟨hop, hr⟩ := op_and_reserved_of_match (m := 0xF000#16) rfl rfl rfl h
  simp [decode, hop, hr]

theorem decode_of_match_receive {w : CmdWord} (h : w &&& 0xFFF3 = 0x0003) :
    decode w = .ok (.receive (w.extractLsb' 2 2)) := by
  obtain ⟨hop, hr⟩ := op_and_reserved_of_match (m := 0xFFF0#16) rfl rfl rfl h
  simp [decode, hop, hr]

/-! ## Decoding against encoding -/

/-- A command's word matches its row, and the row reads the operands from where the format puts them
(30_encoding R81, R82, R88). -/
theorem decode_encode (i : Instr) : decode (encode i) = .ok i := by
  cases i with
  | resolve sel => simpa [Instr.handle] using decode_of_match_resolve (Laws.TableRow.resolve sel)
  | initLine h cfg => simpa [Instr.handle] using decode_of_match_initLine (Laws.TableRow.initLine h cfg)
  | transmit h byte => simpa [Instr.handle] using decode_of_match_transmit (Laws.TableRow.transmit h byte)
  | receive h => simpa [Instr.handle] using decode_of_match_receive (Laws.TableRow.receive h)

/-- Settles O2: by the command's row of the opcode map. -/
theorem decodeEncodeRoundTrip : Obligations.DecodeEncodeRoundTrip := decode_encode

/-- Settles O3: reserved bits are 0, and the other bits of the word are the operands and `op`. -/
theorem encodeDecodeRoundTrip : Obligations.EncodeDecodeRoundTrip := fun _ _ h => Machine.encode_of_decode h

theorem decode_eq_ok_iff {w : CmdWord} {i : Instr} : decode w = .ok i ↔ encode i = w :=
  ⟨Machine.encode_of_decode, fun h => h ▸ decode_encode i⟩

theorem decode_eq_resolve_iff {w : CmdWord} {sel : BitVec 2} :
    decode w = .ok (.resolve sel) ↔ w &&& 0xFFF3 = 0x0000 ∧ sel = w.extractLsb' 2 2 := by
  constructor
  · rw [decode_eq_ok_iff]
    rintro rfl
    exact ⟨Laws.TableRow.resolve sel, (extractLsb'_handle_encode (.resolve sel)).symm⟩
  · rintro ⟨h, rfl⟩
    exact decode_of_match_resolve h

theorem decode_eq_initLine_iff {w : CmdWord} {h : BitVec 2} {cfg : BitVec 9} :
    decode w = .ok (.initLine h cfg) ↔
      w &&& 0xE003 = 0x0001 ∧ h = w.extractLsb' 2 2 ∧ cfg = w.extractLsb' 4 9 := by
  constructor
  · rw [decode_eq_ok_iff]
    rintro rfl
    exact ⟨Laws.TableRow.initLine h cfg, (extractLsb'_handle_encode (.initLine h cfg)).symm,
      (extractLsb'_cfg_encode h cfg).symm⟩
  · rintro ⟨h, rfl, rfl⟩
    exact decode_of_match_initLine h

theorem decode_eq_transmit_iff {w : CmdWord} {h : BitVec 2} {byte : Byte} :
    decode w = .ok (.transmit h byte) ↔
      w &&& 0xF003 = 0x0002 ∧ h = w.extractLsb' 2 2 ∧ byte = w.extractLsb' 4 8 := by
  constructor
  · rw [decode_eq_ok_iff]
    rintro rfl
    exact ⟨Laws.TableRow.transmit h byte, (extractLsb'_handle_encode (.transmit h byte)).symm,
      (extractLsb'_byte_encode h byte).symm⟩
  · rintro ⟨h, rfl, rfl⟩
    exact decode_of_match_transmit h

theorem decode_eq_receive_iff {w : CmdWord} {h : BitVec 2} :
    decode w = .ok (.receive h) ↔ w &&& 0xFFF3 = 0x0003 ∧ h = w.extractLsb' 2 2 := by
  constructor
  · rw [decode_eq_ok_iff]
    rintro rfl
    exact ⟨Laws.TableRow.receive h, (extractLsb'_handle_encode (.receive h)).symm⟩
  · rintro ⟨h, rfl⟩
    exact decode_of_match_receive h

/-- Settles O4: each row both ways; a word of no row is rejected, since a word of a row decodes. -/
theorem opcodeMapDecides : Obligations.OpcodeMapDecides := fun w => by
  refine ⟨fun _ => decode_eq_resolve_iff, fun _ _ => decode_eq_initLine_iff, fun _ _ => decode_eq_transmit_iff,
    fun _ => decode_eq_receive_iff, ?_⟩
  cases hd : decode w with
  | ok i => exact .inl ⟨i, rfl⟩
  | error e =>
    have hno : ∀ i, decode w ≠ .ok i := fun i => by simp [hd]
    exact .inr ⟨rfl, fun h => hno _ (decode_of_match_resolve h), fun h => hno _ (decode_of_match_initLine h),
      fun h => hno _ (decode_of_match_transmit h), fun h => hno _ (decode_of_match_receive h)⟩

/-- Settles O1: the words that encode, and those words decoded again. -/
theorem workedEncodings : Obligations.WorkedEncodings :=
  ⟨rfl, rfl, rfl, rfl, rfl, rfl, rfl, decode_encode (.resolve 1), decode_encode (.initLine 0 0x000),
    decode_encode (.initLine 1 0x15B), decode_encode (.transmit 0 0x41), decode_encode (.receive 2)⟩

end Sys2Proof
end

section
/-! PROOFS. The packed Line Configuration: packing against unpacking, and the number of legal words (30_encoding R84
to R87). -/

namespace Sys2Proof

/-! ## The enumerator codes -/

@[simp] theorem FlowControl.ofCode_code (f : FlowControl) : ofCode f.code = f := by cases f <;> rfl

@[simp] theorem ParityMode.ofCode_code (p : ParityMode) : ofCode p.code = some p := by cases p <;> rfl

@[simp] theorem BaudRate.ofCode_code (b : BaudRate) : ofCode b.code = b := by cases b <;> rfl

@[simp] theorem StopBits.ofCode_code (b : StopBits) : ofCode b.code = b := by cases b <;> rfl

@[simp] theorem WordLength.ofCode_code (l : WordLength) : ofCode l.code = l := by cases l <;> rfl

@[simp] theorem FlowControl.code_ofCode : ∀ v, (ofCode v).code = v := by decide

@[simp] theorem BaudRate.code_ofCode : ∀ v, (ofCode v).code = v := by decide

@[simp] theorem StopBits.code_ofCode : ∀ v, (ofCode v).code = v := by decide

@[simp] theorem WordLength.code_ofCode : ∀ v, (ofCode v).code = v := by decide

theorem ParityMode.code_of_ofCode : ∀ {v p}, ofCode v = some p → p.code = v := by decide

/-- 3 is the only code of no parity mode (30_encoding R85). -/
theorem ParityMode.ofCode_eq_none_iff : ∀ {v}, ofCode v = none ↔ v = 3#2 := by decide

/-! ## Packing against unpacking -/

theorem LineConfig.unpack_pack (c : LineConfig) : unpack c.pack = some c := by
  simp [unpack, pack, BitVec.extractLsb'_append_eq_of_le (w := 2), BitVec.extractLsb'_append_eq_right (w' := 2)]

theorem LineConfig.unpack_eq_none_iff {cfg : BitVec 9} : unpack cfg = none ↔ cfg.extractLsb' 2 2 = 3#2 := by
  rw [unpack, Option.map_eq_none_iff, ParityMode.ofCode_eq_none_iff]

/-- The five fields cover the nine bits of the word (30_encoding R84). -/
theorem LineConfig.pack_of_unpack {cfg : BitVec 9} {c : LineConfig} (h : unpack cfg = some c) : c.pack = cfg := by
  obtain ⟨p, hp, rfl⟩ := Option.map_eq_some_iff.mp h
  simp only [pack, ParityMode.code_of_ofCode hp, FlowControl.code_ofCode, BaudRate.code_ofCode, StopBits.code_ofCode,
    WordLength.code_ofCode, BitVec.extractLsb'_append_extractLsb'_eq_extractLsb', BitVec.extractLsb'_eq_self]

/-- Settles O5: each field's code is undone by its decoding, and PAR alone has a code too many. -/
theorem configPackUnpack : Obligations.ConfigPackUnpack :=
  ⟨LineConfig.unpack_pack, fun _ => LineConfig.unpack_eq_none_iff, fun _ _ => LineConfig.pack_of_unpack⟩

/-! ## The number of legal words -/

/-- A predicate of period `a` holds equally often in each of `k` stretches of length `a`. -/
theorem count_mul_of_periodic {p : ℕ → Prop} [DecidablePred p] {a : ℕ} (h : Function.Periodic p a) (k : ℕ) :
    Nat.count p (a * k) = k * Nat.count p a := by
  induction k with
  | zero => simp
  | succ k ih =>
    have hk : (fun n => p (a * k + n)) = p := funext fun n => by
      simpa [Nat.mul_comm, Nat.add_comm] using h.nat_mul k n
    simp only [Nat.mul_succ, Nat.count_add, hk, ih, Nat.succ_mul]

/-- PAR is bits 3:2, so it repeats every 16 words (30_encoding R84). -/
theorem parIllegal_periodic : Function.Periodic (fun n => (BitVec.ofNat 9 n).extractLsb' 2 2 = 3#2) 16 := fun n => by
  simp only [← BitVec.toNat_inj, BitVec.extractLsb'_toNat, BitVec.toNat_ofNat, Nat.shiftRight_eq_div_pow, eq_iff_iff]
  omega

/-- Four of every 16 words have `PAR = 3` (30_encoding R87). -/
theorem countP_parIllegal :
    (List.range 512).countP (fun n => decide ((BitVec.ofNat 9 n).extractLsb' 2 2 = 3#2)) = 128 :=
  (count_mul_of_periodic parIllegal_periodic 32).trans (by decide)

theorem LineConfig.isNone_unpack (cfg : BitVec 9) :
    (unpack cfg).isNone = decide (cfg.extractLsb' 2 2 = 3#2) := by
  rw [Bool.eq_iff_iff, Option.isNone_iff_eq_none, unpack_eq_none_iff, decide_eq_true_iff]

/-- Settles O6: the illegal words are those with `PAR = 3`, and the legal ones are the rest. -/
theorem legalConfigCount : Obligations.LegalConfigCount := by
  have hnone : (List.range 512).countP (fun n => (LineConfig.unpack (BitVec.ofNat 9 n)).isNone) = 128 := by
    simpa only [LineConfig.isNone_unpack] using countP_parIllegal
  refine ⟨?_, hnone, countP_parIllegal, fun _ => LineConfig.unpack_eq_none_iff⟩
  have hall := List.length_eq_countP_add_countP (fun n => (LineConfig.unpack (BitVec.ofNat 9 n)).isNone)
    (l := List.range 512)
  simp only [List.length_range, hnone, Bool.not_eq_true, Bool.decide_eq_false, Option.not_isNone] at hall
  omega

end Sys2Proof
end

section
/-! PROOFS. Acceptance at an idle agent: what the checks answer, and RESOLVE, which completes there (40_resolver R110,
R112, 10_state R30, 60_exceptions R201). -/

namespace Sys2Proof

/-! ## The checks -/

/-- Check 1 fails on a format R word whose `op` is RESOLVE's and that has a bit above the selector
(30_encoding R90). -/
theorem decode_reserved_of_op_resolve {w : CmdWord} (hop : w.extractLsb' 0 2 = 0b00#2) (hr : w &&& 0xFFF0 ≠ 0) :
    decode w = .error .reservedBit :=
  (if_pos hop).trans (if_neg hr)

namespace Machine

/-- Check 2 fails on a UART that does not exist, whatever the command (60_exceptions R201). -/
theorem acceptFault_of_handle_ge {p : Params} {i : Instr} (h : p.nInst ≤ i.handle.toNat) :
    acceptFault p i = .badHandle :=
  if_pos (decide_eq_false (Nat.not_lt.mpr h))

/-- RESOLVE has no check but that of its selector (60_exceptions R201). -/
theorem acceptFault_resolve {p : Params} {sel : BitVec 2} (h : sel.toNat < p.nInst) :
    acceptFault p (.resolve sel) = .ok :=
  if_neg (ne_false_of_eq_true (decide_eq_true h))

/-! ## The step that accepts or faults -/

theorem acceptWord_of_reserved {w : CmdWord} (h : decode w = .error .reservedBit) (a : Nat) (s : State) :
    acceptWord a w s = .next (raiseFault a w .reserved s) := by
  rw [acceptWord, h]

/-- A command that passes the checks is latched and entered (10_state R30). -/
theorem exec_idle_of_ok {s : State} {a : Nat} {i : Instr} (ha : activeSeq s = some a)
    (hp : (s.seq a).phase = .idle) (hc : acceptFault s.par i = .ok) :
    exec i s = .next (s.modSeq a fun q => enterOf s.par i { q with CMD := encode i, H := i.handle }) := by
  obtain ⟨-, he⟩ | ⟨hn, -⟩ := acceptCommand_cases a i (enterOf s.par i) s
  · rw [exec_idle ha hp, he]
  · exact absurd hc hn

/-- A command that fails a check faults with the code of that check (60_exceptions R202). -/
theorem exec_idle_of_fault {s : State} {a : Nat} {i : Instr} (ha : activeSeq s = some a)
    (hp : (s.seq a).phase = .idle) (hc : acceptFault s.par i ≠ .ok) :
    exec i s = .next (raiseFault a (encode i) (acceptFault s.par i) s) := by
  obtain ⟨hn, -⟩ | ⟨-, he⟩ := acceptCommand_cases a i (enterOf s.par i) s
  · exact absurd hn hc
  · rw [exec_idle ha hp, he]

/-! ## RESOLVE -/

/-- Settles O11: a legal selector passes every check, a reserved bit fails check 1, and a selector of no UART
fails check 2. -/
theorem resolveEffect : Obligations.ResolveEffect := fun s a ht hlt hp => by
  have ha : activeSeq s = some a := activeSeq_eq_some.mpr ⟨ht, hlt⟩
  refine ⟨fun sel hsel => ?_, fun w hop hr => ?_, fun sel hsel => ?_⟩
  · exact exec_idle_of_ok ha hp (acceptFault_resolve hsel)
  · exact acceptWord_of_reserved (decode_reserved_of_op_resolve hop hr) a s
  · have hc : acceptFault s.par (.resolve sel) = .badHandle := acceptFault_of_handle_ge hsel
    rw [exec_idle_of_fault ha hp (by simp [hc]), hc]

end Machine

end Sys2Proof
end

section
/-! PROOFS. The encoder: what each output is by enumerator, the divisor's rounding and its error, and what can be
recovered from the register image (41_line_init R120 to R128, R139). -/

namespace Sys2Proof.Machine

/-! ## The fields of a packed configuration -/

@[simp] theorem cfgFlow_pack (c : LineConfig) : cfgFlow c.pack = c.flow.code := by
  simp [cfgFlow, LineConfig.pack, BitVec.extractLsb'_append_eq_right (w' := 2)]

@[simp] theorem cfgPar_pack (c : LineConfig) : cfgPar c.pack = c.parity.code := by
  simp [cfgPar, LineConfig.pack, BitVec.extractLsb'_append_eq_of_le (w := 2),
    BitVec.extractLsb'_append_eq_right (w' := 2)]

@[simp] theorem cfgStop_pack (c : LineConfig) : cfgStop c.pack = c.stop.code := by
  simp [cfgStop, LineConfig.pack, BitVec.extractLsb'_append_eq_of_le (w := 2),
    BitVec.extractLsb'_append_eq_right (w' := 2)]

@[simp] theorem cfgWl_pack (c : LineConfig) : cfgWl c.pack = c.word.code := by
  simp [cfgWl, LineConfig.pack, BitVec.extractLsb'_append_eq_of_le (w := 2)]

/-! ## The outputs by enumerator -/

theorem encM_pack_eq_one_iff (pol : WlPolicy) (c : LineConfig) :
    encM pol c.pack = 1 ↔ c.word = .bits9 ∨ (pol = .autoExtend ∧ c.parity ≠ .off) := by
  simp only [encM, cfgWl_pack, cfgPar_pack]
  cases pol <;> cases c.word <;> cases c.parity <;> decide

theorem encPce_pack_eq_one_iff (c : LineConfig) : encPce c.pack = 1 ↔ c.parity ≠ .off := by
  simp only [encPce, cfgPar_pack]
  cases c.parity <;> decide

theorem encPs_pack_eq_one_iff (c : LineConfig) : encPs c.pack = 1 ↔ c.parity = .odd := by
  simp only [encPs, cfgPar_pack]
  cases c.parity <;> decide

theorem encRtse_pack_eq_one_iff (c : LineConfig) : encRtse c.pack = 1 ↔ c.flow = .rts ∨ c.flow = .rtsCts := by
  simp only [encRtse, cfgFlow_pack]
  cases c.flow <;> decide

theorem encCtse_pack_eq_one_iff (c : LineConfig) : encCtse c.pack = 1 ↔ c.flow = .cts ∨ c.flow = .rtsCts := by
  simp only [encCtse, cfgFlow_pack]
  cases c.flow <;> decide

/-- The layout's STOP codes in the order of the configuration's (41_line_init R127). -/
def stopCodes (L : Layout) : List (BitVec 2) := [L.stopOne, L.stopTwo, L.stopHalf, L.stopOneAndHalf]

theorem encStop_eq_get (L : Layout) (c : BitVec 9) : encStop L c = (stopCodes L).get (cfgStop c).toFin := by
  have code_cases : ∀ v : BitVec 2, v = 0 ∨ v = 1 ∨ v = 2 ∨ v = 3 := by decide
  unfold encStop
  obtain h | h | h | h := code_cases (cfgStop c) <;> rw [h] <;> rfl

/-- The STOP translation loses nothing: the layout's four codes are distinct (41_line_init R127). -/
theorem cfgStop_eq_of_encStop_eq {L : Layout} (hL : L.wf = true) {c d : BitVec 9} (h : encStop L c = encStop L d) :
    cfgStop c = cfgStop d := by
  have hs : (stopCodes L).Nodup := by
    simp only [Layout.wf, Layout.stopsOk, Bool.and_eq_true, decide_eq_true_eq] at hL
    exact hL.2
  rw [encStop_eq_get, encStop_eq_get] at h
  exact BitVec.toFin_inj.mp (hs.injective_get h)

/-- Settles O12: every output looks at one or two fields of the configuration, each of at most four codes. -/
theorem encoderFollowsEnumerators : Obligations.EncoderFollowsEnumerators := by
  refine ⟨fun p c fclk => ⟨encM_pack_eq_one_iff _ c, encPce_pack_eq_one_iff c, encPs_pack_eq_one_iff c,
    encRtse_pack_eq_one_iff c, encCtse_pack_eq_one_iff c, fun hL => ?_⟩, rfl, rfl, rfl, rfl,
    fun c d h => cfgStop_eq_of_encStop_eq (by decide) h, 0x040, by decide⟩
  simp only [enc, encStop, hL, cfgStop_pack]
  cases c.stop <;> rfl

/-! ## The divisor -/

theorem baudRate_pos (code : BitVec 2) : 0 < baudRate code := by
  revert code
  decide

/-- Rounding half up gives the nearest natural, ties upward (00_scope R9). -/
theorem roundHalfUp_bounds (p : Nat) {q : Nat} (hq : 0 < q) :
    2 * roundHalfUp p q * q ≤ 2 * p + q ∧ 2 * p < (2 * roundHalfUp p q + 1) * q := by
  have h1 := Nat.div_mul_le_self (2 * p + q) (2 * q)
  have h2 := Nat.lt_div_mul_add (a := 2 * p + q) (b := 2 * q) (by omega)
  rw [← roundHalfUp] at h1 h2
  constructor <;> nlinarith

/-- Settles O13: the divisor is the clock over the rate, rounded half up. -/
theorem divisorRoundsHalfUp : Obligations.DivisorRoundsHalfUp := fun fclk cfg =>
  roundHalfUp_bounds fclk (baudRate_pos (cfgBaud cfg))

/-- The rate of a divisor `d` within half a rate of the clock is off by at most `1 / (2 d)` (41_line_init R126). -/
theorem relativeError_le {f d b : ℚ} (hd : 0 < d) (hb : 0 < b) (h : |f - d * b| ≤ b / 2) :
    |f / d - b| / b ≤ 1 / (2 * d) := by
  have he : f / d - b = (f - d * b) / d := by field_simp
  calc |f / d - b| / b = |f - d * b| / (d * b) := by rw [he, abs_div, abs_of_pos hd, div_div]
    _ ≤ b / 2 / (d * b) := by gcongr
    _ = 1 / (2 * d) := by field_simp

/-- The divisor times the rate is within half a rate of the clock (41_line_init R124). -/
theorem abs_fclk_sub_le (fclk : Nat) (cfg : BitVec 9) :
    |(fclk : ℚ) - divisor fclk cfg * baudRate (cfgBaud cfg)| ≤ (baudRate (cfgBaud cfg) : ℚ) / 2 := by
  obtain ⟨h1, h2⟩ := divisorRoundsHalfUp fclk cfg
  generalize divisor fclk cfg = d at h1 h2 ⊢
  generalize baudRate (cfgBaud cfg) = b at h1 h2 ⊢
  have h1 : (2 * d * b : ℚ) ≤ 2 * fclk + b := by exact_mod_cast h1
  have h2 : (2 * fclk : ℚ) < (2 * d + 1) * b := by exact_mod_cast h2
  rw [abs_le]
  constructor <;> linarith

/-- Settles O14: the bound of a divisor falls as the divisor grows. -/
theorem baudErrorBound : Obligations.BaudErrorBound := fun fclk cfg hd => by
  have hb : (0 : ℚ) < baudRate (cfgBaud cfg) := by exact_mod_cast baudRate_pos _
  have herr := relativeError_le (by exact_mod_cast hd) hb (abs_fclk_sub_le fclk cfg)
  have hmono : ∀ n : ℕ, 0 < n → n ≤ divisor fclk cfg → 1 / (2 * (divisor fclk cfg : ℚ)) ≤ 1 / (2 * n) :=
    fun n hn hle => by gcongr
  refine ⟨herr, fun h => (herr.trans (hmono 25 (by decide) h)).trans ?_,
    fun h => (herr.trans (hmono 16 (by decide) h)).trans ?_⟩ <;> norm_num

/-! ## Recovering the configuration -/

/-- A legal divisor fits the 16 bits of BRR (41_line_init R125). -/
theorem toNat_enc_brr {p : Params} {cfg : BitVec 9} {fclk : Nat} (h : divisorOk fclk cfg = true) :
    (enc p cfg fclk).brr.toNat = divisor fclk cfg := by
  simp only [divisorOk, Bool.and_eq_true, decide_eq_true_eq] at h
  exact Nat.mod_eq_of_lt (by omega)

/-- RTSE and CTSE are the two bits of FLOW (41_line_init R128). -/
theorem encCtse_append_encRtse (cfg : BitVec 9) : encCtse cfg ++ encRtse cfg = cfgFlow cfg := by
  unfold encCtse encRtse
  generalize cfgFlow cfg = v
  revert v
  decide

/-- PCE and PS tell the three parity modes apart (41_line_init R123). -/
theorem cfgPar_eq_of_enc {cfg : BitVec 9} (h : cfgPar cfg ≠ 3) :
    cfgPar cfg = if encPce cfg = 0 then 0 else if encPs cfg = 0 then 1 else 2 := by
  unfold encPce encPs
  generalize cfgPar cfg = v at h ⊢
  revert v
  decide

theorem encM_autoExtend_of_parity {cfg : BitVec 9} (h : cfgPar cfg ≠ 0) : encM .autoExtend cfg = 1 := by
  unfold encM
  generalize cfgWl cfg = v
  simp only [h, ne_eq, not_false_eq_true, if_true]
  revert v
  decide

/-- Settles O22: each field is read off the encoder's outputs, which the image holds. -/
theorem fieldRecovery : Obligations.FieldRecovery := fun p b cfg fclk hL hpar hdiv =>
  ⟨(encCtse_append_encRtse cfg).symm, cfgPar_eq_of_enc hpar, fun _ => cfgStop_eq_of_encStop_eq hL,
    fun hdistinct c hc => hdistinct c cfg (hc.trans (toNat_enc_brr (p := p) hdiv)),
    fun hpol => by simp [RegBlock.image, enc, encM, hpol],
    fun hpol h0 => by simp [RegBlock.image, enc, encM, hpol, h0],
    fun hpol h0 => by simp [RegBlock.image, enc, hpol, encM_autoExtend_of_parity h0]⟩

end Sys2Proof.Machine
end

section
/-! PROOFS. The field replacement of a read-modify-write: in the word, and what it comes to in the register block
(41_line_init R132, R133). -/

namespace Sys2Proof.Machine

/-! ## Replacing fields -/

/-- What a field takes when `v` is written over `old` (41_line_init R133). -/
def newValue (p : Params) (old v : Word32) : Word32 :=
  match p.fieldWrite with
  | .assign => v
  | .orOnly => old ||| v

/-- A field of the register block replaced as `P_FIELD_WRITE` says. -/
def RegBlock.replace (p : Params) (b : RegBlock) (x : Field × Word32) : RegBlock :=
  b.set x.1 (newValue p (b.get x.1) x.2)

theorem replaceField_eq (p : Params) (w : Word32) (x : Field × Word32) :
    replaceField p w x = insertField p.layout x.1 (newValue p (extractField p.layout x.1 w) x.2) w := by
  unfold replaceField newValue
  cases p.fieldWrite <;> rfl

/-- Writing a word with one field replaced is writing the word, then setting the field (20_memory R68). -/
theorem writeFields_insertField {L : Layout} (hL : L.wf = true) (b : RegBlock) {r : Reg} {f : Field}
    (hf : f ∈ r.fields) (v w : Word32) :
    writeFields L b r (insertField L f v w) = (writeFields L b r w).set f v := by
  refine RegBlock.ext_get (fun g => ?_) (by simp) (by simp)
  by_cases hgf : g = f
  · subst hgf
    rw [get_writeFields, if_pos hf, extractField_insertField_self hL, get_set_self]
  · rw [get_set_ne hgf, get_writeFields, get_writeFields]
    split
    · rw [extractField_insertField_ne hL hf ‹_› hgf]
    · rfl

/-- A word read and written back changes nothing (20_memory R68). -/
theorem writeFields_readWord {L : Layout} (hL : L.wf = true) (b : RegBlock) (u : BitVec 9) (r : Reg) :
    writeFields L b r (readWord L b u r) = b := by
  refine RegBlock.ext_get (fun g => ?_) (by simp) (by simp)
  rw [get_writeFields]
  split
  · exact extractField_readWord hL b u ‹_›
  · rfl

/-- A micro-step replaces in the word what it replaces in the register block (41_line_init R133). -/
theorem writeFields_foldl_replaceField {p : Params} (hL : p.layout.wf = true) (b : RegBlock) {r : Reg}
    {l : List (Field × Word32)} (hl : ∀ x ∈ l, x.1 ∈ r.fields) (w : Word32) :
    writeFields p.layout b r (l.foldl (replaceField p) w) =
      l.foldl (RegBlock.replace p) (writeFields p.layout b r w) := by
  induction l generalizing w with
  | nil => rfl
  | cons x l ih =>
    have hx : x.1 ∈ r.fields := hl x (by simp)
    have hget : (writeFields p.layout b r w).get x.1 = extractField p.layout x.1 w := by
      rw [get_writeFields, if_pos hx]
    rw [List.foldl_cons, List.foldl_cons, ih fun y hy => hl y (by simp [hy]), replaceField_eq,
      writeFields_insertField hL b hx, RegBlock.replace, hget]

theorem writeFields_initWord {p : Params} (hL : p.layout.wf = true) (b : RegBlock) (k : Fin 8) (e : Enc) (w : Word32) :
    writeFields p.layout b (initReg k) (initWord p k e w) =
      (initFields k e).foldl (RegBlock.replace p) (writeFields p.layout b (initReg k) w) :=
  writeFields_foldl_replaceField hL b (fun _ hx => (mem_initFields hx).1) w

/-! ## What the replaced block holds -/

@[simp] theorem foldl_replace_TDR (p : Params) (l : List (Field × Word32)) (b : RegBlock) :
    (l.foldl (RegBlock.replace p) b).TDR = b.TDR := by
  induction l generalizing b with
  | nil => rfl
  | cons x l ih => rw [List.foldl_cons, ih, RegBlock.replace, set_TDR]

@[simp] theorem foldl_replace_RDR (p : Params) (l : List (Field × Word32)) (b : RegBlock) :
    (l.foldl (RegBlock.replace p) b).RDR = b.RDR := by
  induction l generalizing b with
  | nil => rfl
  | cons x l ih => rw [List.foldl_cons, ih, RegBlock.replace, set_RDR]

theorem get_foldl_replace_of_not_mem (p : Params) {f : Field} {l : List (Field × Word32)} (hf : f ∉ l.map Prod.fst)
    (b : RegBlock) : (l.foldl (RegBlock.replace p) b).get f = b.get f := by
  induction l generalizing b with
  | nil => rfl
  | cons x l ih =>
    simp only [List.map_cons, List.mem_cons, not_or] at hf
    rw [List.foldl_cons, ih hf.2, RegBlock.replace, get_set_ne hf.1]

theorem get_foldl_replace_of_mem (p : Params) {f : Field} {v : Word32} {l : List (Field × Word32)}
    (hnd : (l.map Prod.fst).Nodup) (hf : (f, v) ∈ l) (b : RegBlock) :
    (l.foldl (RegBlock.replace p) b).get f = newValue p (b.get f) v &&& f.mask := by
  induction l generalizing b with
  | nil => simp at hf
  | cons x l ih =>
    obtain ⟨hx, hnd⟩ := List.nodup_cons.mp hnd
    obtain rfl | hf := List.mem_cons.mp hf
    · rw [List.foldl_cons, get_foldl_replace_of_not_mem p hx, RegBlock.replace, get_set_self]
    · have hne : f ≠ x.1 := fun h => hx (h ▸ List.mem_map_of_mem hf)
      rw [List.foldl_cons, ih hnd hf, RegBlock.replace, get_set_ne hne]

/-- The fields of a micro-step are distinct, and the encoder's values fit them (41_line_init R132). -/
theorem initFields_nodup (k : Fin 8) (e : Enc) : ((initFields k e).map Prod.fst).Nodup := by
  fin_cases k <;> simp [initFields]

theorem and_mask_of_mem_initFields {k : Fin 8} {e : Enc} {f : Field} {v : Word32} (h : (f, v) ∈ initFields k e) :
    v &&& f.mask = v := by
  have hfit : ∀ x ∈ initFields k e, x.2 &&& x.1.mask = x.2 := by
    fin_cases k
    · exact List.forall_mem_singleton.mpr (setWidth_mask e.brr)
    · exact List.forall_mem_singleton.mpr (setWidth_mask e.m)
    · exact List.forall_mem_cons.mpr ⟨setWidth_mask e.pce, List.forall_mem_singleton.mpr (setWidth_mask e.ps)⟩
    · exact List.forall_mem_singleton.mpr (setWidth_mask e.stop)
    · exact List.forall_mem_cons.mpr ⟨setWidth_mask e.rtse, List.forall_mem_singleton.mpr (setWidth_mask e.ctse)⟩
    · exact List.forall_mem_singleton.mpr (rfl : (1 : Word32) &&& Field.TE.mask = 1)
    · exact List.forall_mem_singleton.mpr (rfl : (1 : Word32) &&& Field.RE.mask = 1)
    · exact List.forall_mem_singleton.mpr (rfl : (1 : Word32) &&& Field.UE.mask = 1)
  exact hfit _ h

/-- A listed field takes its new value whole, without losing bits to the field's width (41_line_init R133). -/
theorem newValue_and_mask (p : Params) {f : Field} {old v : Word32} (ho : old &&& f.mask = old)
    (hv : v &&& f.mask = v) : newValue p old v &&& f.mask = newValue p old v := by
  unfold newValue
  cases p.fieldWrite with
  | assign => exact hv
  | orOnly => rw [BitVec.and_or_distrib_right, ho, hv]

end Sys2Proof.Machine
end

section
/-! PROOFS. The steps of INITIALIZE one by one: its acceptance, the write of the divisor, and the read and the write of
each read-modify-write, whatever other agents do in between (41_line_init R130 to R134). -/

namespace Sys2Proof.Machine

/-! ## The UART after a control write -/

/-- A shift logic after a write that leaves the block with format `now`: a frame in flight of another format is marked
(42_transfer R184). -/
def Shift.mark (now : Format) : Shift → Shift
  | .idle => .idle
  | .busy v fmt c => .busy v fmt (c || decide (now ≠ fmt))

@[simp] theorem Shift.mark_idle (now : Format) : Shift.idle.mark now = .idle := rfl

@[simp] theorem Shift.mark_busy (now : Format) (v : Option (BitVec 9)) (fmt : Format) (c : Bool) :
    (Shift.busy v fmt c).mark now = .busy v fmt (c || decide (now ≠ fmt)) := rfl

/-- A UART after a write of BRR, CR1, CR2 or CR3 that leaves it with register block `b` (42_transfer R184). -/
def Uart.written (r : Reg) (b : RegBlock) (u : Uart) : Uart :=
  { u with rb := b, sh := if r = .cr3 then u.sh else u.sh.mark b.format }

@[simp] theorem Uart.written_rb (r : Reg) (b : RegBlock) (u : Uart) : (u.written r b).rb = b := rfl

@[simp] theorem Uart.written_wire (r : Reg) (b : RegBlock) (u : Uart) : (u.written r b).wire = u.wire := rfl

@[simp] theorem Uart.written_rxcur (r : Reg) (b : RegBlock) (u : Uart) : (u.written r b).rxcur = u.rxcur := rfl

theorem Uart.written_sh (r : Reg) (b : RegBlock) (u : Uart) :
    (u.written r b).sh = if r = .cr3 then u.sh else u.sh.mark b.format := rfl

theorem Uart.markCorrupt_eq (u : Uart) : u.markCorrupt = { u with sh := u.sh.mark u.rb.format } := by
  obtain ⟨rb, sh, wire, rxcur⟩ := u
  cases sh <;> rfl

/-- A micro-step's register write: lost on an unclocked UART (41_line_init R132, 20_memory R68, R69). -/
theorem regWrite_initReg {s : State} (hp : s.par.wf = true) {h : BitVec 2} (hh : h.toNat < s.par.nInst) (k : Fin 8)
    (v : Word32) :
    regWrite h (initReg k) v s = .next (if s.par.clocked h.toNat then
      s.modUart h.toNat fun u => u.written (initReg k) (writeFields s.par.layout u.rb (initReg k) v) else s) := by
  have hmark : decide (initReg k = .brr ∨ initReg k = .cr1 ∨ initReg k = .cr2) = decide (initReg k ≠ .cr3) := by
    revert k
    decide
  have hu : ∀ u : Uart, (if decide (initReg k ≠ .cr3) then
      ({ u with rb := writeFields s.par.layout u.rb (initReg k) v } : Uart).markCorrupt
      else { u with rb := writeFields s.par.layout u.rb (initReg k) v }) =
        u.written (initReg k) (writeFields s.par.layout u.rb (initReg k) v) := fun u => by
    rw [Uart.markCorrupt_eq, Uart.written]
    by_cases h3 : initReg k = .cr3 <;> simp [h3]
  rw [regWrite_eq hp hh, writeReg_of_control (initReg_ne k).1 (initReg_ne k).2, hmark]
  simp only [writeControl, hu]
  split <;> rfl

/-! ## The agent's steps -/

/-- What a bus read of a control register returns (20_memory R68, R69). -/
def State.busWord (s : State) (i : Nat) (r : Reg) : Word32 :=
  if s.par.clocked i then readWord s.par.layout (s.uart i).rb (Config.drawRDR s.draws) r else 0

theorem initMicro_none {s : State} (hp : s.par.wf = true) {a : Nat} (hh : (s.seq a).H.toNat < s.par.nInst) {k : Fin 8}
    (hk : k ≠ 0) : initMicro a k none s =
      .next (s.modSeq a fun q => { q with phase := .init k (some (s.busWord (s.seq a).H.toNat (initReg k))) }) := by
  rw [initMicro, if_neg hk, initRead, regRead_eq hp hh, readReg_of_ne_dr (initReg_ne k).2, State.busWord]
  split <;> rfl

theorem initMicro_some {s : State} (hp : s.par.wf = true) {a : Nat} (hh : (s.seq a).H.toNat < s.par.nInst) {k : Fin 8}
    (hk : k ≠ 0) (w : Word32) : initMicro a k (some w) s =
      .next ((if s.par.clocked (s.seq a).H.toNat then
          s.modUart (s.seq a).H.toNat fun u => u.written (initReg k)
            ((initFields k (s.seq a).ENC).foldl (RegBlock.replace s.par) (writeFields s.par.layout u.rb (initReg k) w))
        else s).modSeq a (Seq.initAdvance k)) := by
  simp only [initMicro, if_neg hk, initWrite, regWrite_initReg hp hh, writeFields_initWord (Params.layout_wf hp),
    Out.andThen_next]

/-- BRR's one field takes the word's bits at its place (20_memory R63). -/
theorem writeFields_brr {L : Layout} (hL : L.wf = true) (b : RegBlock) (x : BitVec 16) :
    writeFields L b .brr (placeField L .BRR (x.setWidth 32)) = { b with BRR := x } := by
  have hplace : placeField L .BRR (x.setWidth 32) = insertField L .BRR (x.setWidth 32) 0 := by simp [insertField]
  rw [hplace, writeFields_insertField hL b (by decide)]
  simp [writeFields, Reg.fields, RegBlock.set]

/-- Micro-step 0 assigns the divisor under either `P_FIELD_WRITE` (41_line_init R133). -/
theorem initMicro_zero {s : State} (hp : s.par.wf = true) {a : Nat} (hh : (s.seq a).H.toNat < s.par.nInst)
    (r : Option Word32) : initMicro a 0 r s =
      .next ((if s.par.clocked (s.seq a).H.toNat then
          s.modUart (s.seq a).H.toNat fun u => u.written .brr { u.rb with BRR := (s.seq a).ENC.brr }
        else s).modSeq a (Seq.initAdvance 0)) := by
  unfold initMicro
  rw [if_pos rfl, initWrite, regWrite_initReg hp hh]
  simp only [initReg, writeFields_brr (Params.layout_wf hp), Out.andThen_next]

/-! ## The statements -/

/-- The checks on an INITIALIZE: its UART, its parity mode and its divisor (60_exceptions R201). -/
theorem acceptFault_initLine {p : Params} {h : BitVec 2} {cfg : BitVec 9} (hh : h.toNat < p.nInst)
    (hpar : cfgPar cfg ≠ 3) (hdiv : divisorOk (p.fclk h.toNat) cfg = true) :
    acceptFault p (.initLine h cfg) = .ok := by
  have hpar : (Instr.initLine h cfg).parityOk = true := decide_eq_true hpar
  simp [acceptFault, Instr.handleOk, Instr.handle, hh, hpar, hdiv]

/-- Settles O15: a legal INITIALIZE passes the checks, and its acceptance is what enters it. -/
theorem initAcceptance : Obligations.InitAcceptance := fun s a h cfg ht hlt hp hh hpar hlo hhi => by
  have hdiv : divisorOk (s.par.fclk h.toNat) cfg = true := by simp [divisorOk, hlo, hhi]
  rw [exec_idle_of_ok (activeSeq_eq_some.mpr ⟨ht, hlt⟩) hp (acceptFault_initLine hh hpar hdiv)]
  rfl

/-- Inside INITIALIZE its meaning is the micro-step of the phase (41_line_init R133). -/
theorem exec_initLine_of_init {s : State} {a : Nat} (ht : s.turn = .seq a) (hlt : a < s.seqs.length) {k : Fin 8}
    {r : Option Word32} (hp : (s.seq a).phase = .init k r) (h : BitVec 2) (cfg : BitVec 9) :
    exec (.initLine h cfg) s = initMicro a k r s := by
  simp only [exec, execInitLine, activeSeq_eq_some.mpr ⟨ht, hlt⟩, hp]

/-- Settles O16: BRR's word is the divisor at BRR's place. -/
theorem initWritesBaudRate : Obligations.InitWritesBaudRate := fun s a h cfg hw ht hlt hp hh => by
  rw [exec_initLine_of_init ht hlt hp, initMicro_zero hw hh]
  simp only [Uart.markCorrupt_eq]
  rfl

/-- Settles O17: a read of a control register returns its fields and has no side effect. -/
theorem initReadsRegister : Obligations.InitReadsRegister := fun s a k h cfg hw ht hlt hk hp hh => by
  rw [exec_initLine_of_init ht hlt hp, initMicro_none hw hh hk]
  refine ⟨_, rfl, fun hc => by simp [State.busWord, hc], fun hc f hf => ?_⟩
  rw [State.busWord, if_pos hc, extractField_readWord (Params.layout_wf hw) _ _ hf]

/-- Settles O18: the written word has the micro-step's fields replaced and the others as read. -/
theorem initWritesRegister : Obligations.InitWritesRegister := fun s a k r h cfg hw ht hlt hk hp => by
  have hh : (s.seq a).H.toNat < s.par.nInst := hw.handles a hlt (by rw [hp]; rfl)
  rw [exec_initLine_of_init ht hlt hp, initMicro_some hw.params hh hk]
  refine ⟨fun hc => ?_, fun hc => ⟨_, rfl, ?_⟩⟩
  · rw [if_neg (by simp [hc])]
    rfl
  rw [if_pos hc, State.uart_modSeq, State.uart_modUart_self (hw.uarts ▸ hh)]
  have hread : ∀ f ∈ (initReg k).fields,
      (writeFields s.par.layout (s.uart (s.seq a).H.toNat).rb (initReg k) r).get f = extractField s.par.layout f r :=
    fun f hf => by rw [get_writeFields, if_pos hf]
  refine ⟨fun f v hfv => ?_, fun f hf hn => ?_, fun f hf => ?_, ?_, ?_, fun h3 => if_pos h3, fun h3 hi => ?_,
    fun h3 v fmt c hb => ?_, rfl, rfl, fun i hi => ?_, rfl, rfl, rfl, rfl, rfl, rfl, rfl⟩
  · have hf := (mem_initFields hfv).1
    rw [Uart.written_rb, get_foldl_replace_of_mem _ (initFields_nodup k _) hfv, newValue_and_mask _ (get_and_mask _ f)
      (and_mask_of_mem_initFields hfv), hread f hf]
    rfl
  · rw [Uart.written_rb, get_foldl_replace_of_not_mem _ (by simpa using hn), hread f hf]
  · have hn : f ∉ (initFields k (s.seq a).ENC).map Prod.fst := fun hm => by
      obtain ⟨x, hx, rfl⟩ := List.mem_map.mp hm
      exact hf (mem_initFields hx).1
    rw [Uart.written_rb, get_foldl_replace_of_not_mem _ hn, get_writeFields, if_neg hf]
  · simp
  · simp
  · rw [Uart.written_sh, if_neg h3, hi, Shift.mark_idle]
  · rw [Uart.written_sh, if_neg h3, hb, Shift.mark_busy, Uart.written_rb]
  · rw [State.uart_modSeq, State.uart_modUart_ne hi]

end Sys2Proof.Machine
end

section
/-! PROOFS. An INITIALIZE that no other agent's step interrupts, for both values of `P_FIELD_WRITE` and with or without
a clock: the states it goes through, one for each step (41_line_init R133, R134). -/

namespace Sys2Proof.Machine

/-! ## Runs -/

theorem run_of_step {s t : State} (hs : step s = .next t) (n : Nat) :
    Host.Core.run Sys2Proof.core (n + 1) s = Host.Core.run Sys2Proof.core n t := by
  have hs : Sys2Proof.core.step s = .next t := hs
  simp only [Host.Core.run, hs]

/-- A run of one more step. -/
theorem run_succ_of_next {n : Nat} {s t u : State} (hr : Host.Core.run Sys2Proof.core n s = .next t)
    (hs : step t = .next u) : Host.Core.run Sys2Proof.core (n + 1) s = .next u := by
  induction n generalizing s with
  | zero =>
    cases hr
    exact run_of_step hs 0
  | succ n ih =>
    obtain ⟨v, hv, hr⟩ := run_succ hr
    rw [run_of_step hv]
    exact ih hr

/-! ## The micro-steps on a UART -/

/-- The register block after micro-step `k`: BRR is assigned, other fields are replaced as `P_FIELD_WRITE` says
(41_line_init R133). -/
def RegBlock.micro (p : Params) (e : Enc) (k : Fin 8) (b : RegBlock) : RegBlock :=
  if k = 0 then { b with BRR := e.brr } else (initFields k e).foldl (RegBlock.replace p) b

/-- UART `i` after micro-step `k`; without a clock it is as before (20_memory R69). -/
def Uart.micro (p : Params) (i : Nat) (e : Enc) (k : Fin 8) (u : Uart) : Uart :=
  if p.clocked i then u.written (initReg k) (u.rb.micro p e k) else u

/-- UART `i` after the first `n` micro-steps. -/
def Uart.micros (p : Params) (i : Nat) (e : Enc) (u : Uart) : Nat → Uart
  | 0 => u
  | n + 1 => (u.micros p i e n).micro p i e (Fin.ofNat 8 n)

/-- The word with which micro-step `k` goes into its write: none for the divisor's, else the register as UART `i` shows
it (41_line_init R133, 20_memory R69). -/
def Uart.seen (p : Params) (i draws : Nat) (k : Fin 8) (u : Uart) : Option Word32 :=
  if k = 0 then none
  else some (if p.clocked i then readWord p.layout u.rb (Config.drawRDR draws) (initReg k) else 0)

theorem Uart.isSome_seen (p : Params) (i draws : Nat) (k : Fin 8) (u : Uart) :
    (u.seen p i draws k).isSome = true ↔ k ≠ 0 := by
  unfold Uart.seen
  split <;> simp [*]

/-! ## The states of the run -/

/-- The block in a run of agent `a` alone, after `n` of its 16 steps: the agent is as `q`, UART `i` as `u`. -/
def State.during (s : State) (a i n : Nat) (q : Seq) (u : Uart) : State :=
  { s with
    uarts := s.uarts.set i u
    seqs := s.seqs.set a q
    turn := .seq a
    sched := List.replicate (15 - n) (.seq a)
    clock := s.clock + n }

section
variable {s : State} {a i : Nat}

@[simp] theorem State.during_seqs_length (n : Nat) (q : Seq) (u : Uart) :
    (s.during a i n q u).seqs.length = s.seqs.length := by
  simp [State.during]

@[simp] theorem State.during_seq (ha : a < s.seqs.length) (n : Nat) (q : Seq) (u : Uart) :
    (s.during a i n q u).seq a = q := by
  simp [State.during, State.seq, ha]

@[simp] theorem State.during_uart (hi : i < s.uarts.length) (n : Nat) (q : Seq) (u : Uart) :
    (s.during a i n q u).uart i = u := by
  simp [State.during, State.uart, hi]

theorem State.during_uart_ne {j : Nat} (hj : j ≠ i) (n : Nat) (q : Seq) (u : Uart) :
    (s.during a i n q u).uart j = s.uart j := by
  simp [State.during, State.uart, List.getElem?_set_ne hj.symm]

theorem State.during_modSeq (ha : a < s.seqs.length) (n : Nat) (q : Seq) (u : Uart) (f : Seq → Seq) :
    (s.during a i n q u).modSeq a f = s.during a i n (f q) u := by
  rw [State.modSeq, State.during_seq ha]
  simp [State.during]

theorem State.during_modUart (hi : i < s.uarts.length) (n : Nat) (q : Seq) (u : Uart) (f : Uart → Uart) :
    (s.during a i n q u).modUart i f = s.during a i n q (f u) := by
  rw [State.modUart, State.during_uart hi]
  simp [State.during]

theorem State.withSchedule_eq_during (ha : a < s.seqs.length) (hi : i < s.uarts.length) :
    s.withSchedule (.seq a) (List.replicate 15 (.seq a)) = s.during a i 0 (s.seq a) (s.uart i) := by
  simp [State.withSchedule, State.during, State.seq, State.uart, ha, hi]

theorem nextTurn_during {n : Nat} (hn : n < 15) (q : Seq) (u : Uart) :
    nextTurn (s.during a i n q u) = s.during a i (n + 1) q u := by
  have hs : (s.during a i n q u).sched = .seq a :: List.replicate (15 - (n + 1)) (.seq a) := by
    rw [State.during, show 15 - n = 15 - (n + 1) + 1 by omega, List.replicate_succ]
  rw [nextTurn, hs]
  rfl

end

/-! ## One step of the run -/

section
variable {s : State} {a : Nat} {q : Seq} {u : Uart} {k : Fin 8}

theorem step_during (ha : a < s.seqs.length) {r : Option Word32} (hq : q.phase = .init k r) (i n : Nat) :
    step (s.during a i n q u) = (initMicro a k r (s.during a i n q u)).andThen fun t => .next (nextTurn t) := by
  have hseq : (s.during a i n q u).seq a = q := State.during_seq ha n q u
  rw [step_of_agent rfl (by simpa using ha), seqStep]
  simp only [hseq, hq]

variable (hp : s.par.wf = true) (ha : a < s.seqs.length) (hh : q.H.toNat < s.par.nInst)
  (hu : q.H.toNat < s.uarts.length)
include hp ha hh hu

/-- A micro-step's read leaves the UART and latches the word (41_line_init R133). -/
theorem step_during_read (hk : k ≠ 0) (hq : q.phase = .init k none) (n : Nat) :
    step (s.during a q.H.toNat n q u) = .next (nextTurn (s.during a q.H.toNat n
      { q with phase := .init k (u.seen s.par q.H.toNat s.draws k) } u)) := by
  have hseq : (s.during a q.H.toNat n q u).seq a = q := State.during_seq ha n q u
  have hpar : (s.during a q.H.toNat n q u).par = s.par := rfl
  have hlt : ((s.during a q.H.toNat n q u).seq a).H.toNat < (s.during a q.H.toNat n q u).par.nInst := by rwa [hseq]
  have hword : (s.during a q.H.toNat n q u).busWord q.H.toNat (initReg k) =
      if s.par.clocked q.H.toNat then readWord s.par.layout u.rb (Config.drawRDR s.draws) (initReg k) else 0 := by
    rw [State.busWord, State.during_uart hu]
    rfl
  rw [step_during ha hq, initMicro_none (hpar ▸ hp) hlt hk, Out.andThen_next, State.during_modSeq ha, hseq, hword, Uart.seen,
    if_neg hk]

/-- A micro-step's write after the read that no step interrupted, or the divisor's: the whole micro-step on the UART
(41_line_init R133). -/
theorem step_during_write (hq : q.phase = .init k (u.seen s.par q.H.toNat s.draws k)) (n : Nat) :
    step (s.during a q.H.toNat n q u) = .next (nextTurn (s.during a q.H.toNat n (q.initAdvance k)
      (u.micro s.par q.H.toNat q.ENC k))) := by
  have hseq : (s.during a q.H.toNat n q u).seq a = q := State.during_seq ha n q u
  have hpar : (s.during a q.H.toNat n q u).par = s.par := rfl
  have hlt : ((s.during a q.H.toNat n q u).seq a).H.toNat < (s.during a q.H.toNat n q u).par.nInst := by rwa [hseq]
  have hmicro : initMicro a k (u.seen s.par q.H.toNat s.draws k) (s.during a q.H.toNat n q u) =
      .next ((s.during a q.H.toNat n q (u.micro s.par q.H.toNat q.ENC k)).modSeq a (Seq.initAdvance k)) := by
    by_cases hk : k = 0
    · subst hk
      rw [initMicro_zero (hpar ▸ hp) hlt, hseq, hpar, Uart.micro, State.during_modUart hu]
      split <;> rfl
    · rw [Uart.seen, if_neg hk, initMicro_some (hpar ▸ hp) hlt hk, hseq, hpar, Uart.micro, State.during_modUart hu,
        RegBlock.micro, if_neg hk]
      split
      · rw [writeFields_readWord (Params.layout_wf hp)]
      · rfl
  rw [step_during ha hq, hmicro, Out.andThen_next, State.during_modSeq ha]

end

/-! ## The whole run -/

/-- The agent in an INITIALIZE, in phase `Init(k, r)` (41_line_init R131). -/
def Seq.inInit (p : Params) (h : BitVec 2) (cfg : BitVec 9) (q : Seq) (k : Fin 8) (r : Option Word32) : Seq :=
  { q with
    CMD := encode (.initLine h cfg)
    H := h
    CFG := cfg
    ENC := enc p cfg (p.fclk h.toNat)
    phase := .init k r }

theorem Seq.inInit_initAdvance {k : Nat} (hk : k < 7) (p : Params) (h : BitVec 2) (cfg : BitVec 9) (q : Seq)
    (r : Option Word32) : (q.inInit p h cfg (Fin.ofNat 8 k) r).initAdvance (Fin.ofNat 8 k) =
      q.inInit p h cfg (Fin.ofNat 8 (k + 1)) none := by
  have hne : ∀ k < 7, Fin.ofNat 8 k ≠ 7 ∧ Fin.ofNat 8 k + 1 = Fin.ofNat 8 (k + 1) := by decide
  obtain ⟨h7, hsucc⟩ := hne k hk
  rw [Seq.initAdvance, if_neg h7, hsucc]
  rfl

/-- UART `h` in an INITIALIZE that no other step interrupts, after the first `n` micro-steps. -/
def State.initUart (s : State) (h : BitVec 2) (cfg : BitVec 9) (n : Nat) : Uart :=
  (s.uart h.toNat).micros s.par h.toNat (enc s.par cfg (s.par.fclk h.toNat)) n

/-- The block before the read of micro-step `k`. -/
def State.initBeforeRead (s : State) (a : Nat) (h : BitVec 2) (cfg : BitVec 9) (k : Nat) : State :=
  s.during a h.toNat (2 * k) ((s.seq a).inInit s.par h cfg (Fin.ofNat 8 k) none) (s.initUart h cfg k)

/-- The block before the write of micro-step `k`. -/
def State.initBeforeWrite (s : State) (a : Nat) (h : BitVec 2) (cfg : BitVec 9) (k : Nat) : State :=
  s.during a h.toNat (2 * k + 1) ((s.seq a).inInit s.par h cfg (Fin.ofNat 8 k)
    ((s.initUart h cfg k).seen s.par h.toNat s.draws (Fin.ofNat 8 k))) (s.initUart h cfg k)

/-- The block after the last write, before the next turn is drawn. -/
def State.initDone (s : State) (a : Nat) (h : BitVec 2) (cfg : BitVec 9) : State :=
  s.during a h.toNat 15 ((s.seq a).inInit s.par h cfg 7 none).complete (s.initUart h cfg 8)

section
variable {s : State} {a : Nat} {h : BitVec 2} {cfg : BitVec 9}

theorem step_initBeforeRead (hw : s.Wf) (ha : a < s.seqs.length) (hh : h.toNat < s.par.nInst) {k : Nat} (h0 : 0 < k)
    (h7 : k ≤ 7) : step (s.initBeforeRead a h cfg k) = .next (s.initBeforeWrite a h cfg k) := by
  have hne : ∀ k ≤ 7, 0 < k → Fin.ofNat 8 k ≠ 0 := by decide
  have hstep := step_during_read (q := (s.seq a).inInit s.par h cfg (Fin.ofNat 8 k) none) (u := s.initUart h cfg k)
    hw.params ha hh (hw.uarts ▸ hh) (hne k h7 h0) rfl (2 * k)
  rw [nextTurn_during (by omega)] at hstep
  exact hstep

theorem step_initBeforeWrite (hw : s.Wf) (ha : a < s.seqs.length) (hh : h.toNat < s.par.nInst) {k : Nat} (hk : k < 7) :
    step (s.initBeforeWrite a h cfg k) = .next (s.initBeforeRead a h cfg (k + 1)) := by
  have hstep := step_during_write (q := (s.seq a).inInit s.par h cfg (Fin.ofNat 8 k)
    ((s.initUart h cfg k).seen s.par h.toNat s.draws (Fin.ofNat 8 k))) (u := s.initUart h cfg k)
    hw.params ha hh (hw.uarts ▸ hh) rfl (2 * k + 1)
  rw [nextTurn_during (by omega), Seq.inInit_initAdvance hk] at hstep
  exact hstep

theorem step_initBeforeWrite_last (hw : s.Wf) (ha : a < s.seqs.length) (hh : h.toNat < s.par.nInst) :
    step (s.initBeforeWrite a h cfg 7) = .next (nextTurn (s.initDone a h cfg)) :=
  step_during_write (q := (s.seq a).inInit s.par h cfg 7
    ((s.initUart h cfg 7).seen s.par h.toNat s.draws 7)) (u := s.initUart h cfg 7) (k := 7)
    hw.params ha hh (hw.uarts ▸ hh) rfl 15

/-- An idle agent's step at a legal INITIALIZE (41_line_init R130, R131). -/
theorem seqStep_initLine (ht : s.turn = .seq a) (ha : a < s.seqs.length) (hp : (s.seq a).phase = .idle)
    (hf : fetch a s = some (encode (.initLine h cfg))) (hc : acceptFault s.par (.initLine h cfg) = .ok) :
    seqStep a s = .next (s.modSeq a fun q => q.inInit s.par h cfg 0 none) := by
  have hword : seqStep a s = exec (.initLine h cfg) s := by
    rw [seqStep_of_fetch hp hf, acceptWord, decode_encode]
  rw [hword, exec_idle_of_ok (activeSeq_eq_some.mpr ⟨ht, ha⟩) hp hc]
  rfl

theorem step_init_accept (hw : s.Wf) (ha : a < s.seqs.length) (hp : (s.seq a).phase = .idle)
    (hf : fetch a s = some (encode (.initLine h cfg))) (hc : acceptFault s.par (.initLine h cfg) = .ok) :
    step (s.withSchedule (.seq a) (List.replicate 15 (.seq a))) = .next (s.initBeforeWrite a h cfg 0) := by
  have hi : h.toNat < s.uarts.length := hw.uarts ▸ handle_lt_of_acceptFault hc
  have hstep : seqStep a (s.withSchedule (.seq a) (List.replicate 15 (.seq a))) = .next _ :=
    seqStep_initLine rfl ha hp hf hc
  rw [step_of_agent (s := s.withSchedule _ _) rfl ha, hstep, Out.andThen_next, State.withSchedule_eq_during ha hi,
    State.during_modSeq ha, nextTurn_during (by decide)]
  rfl

end

section
variable {s : State} {a : Nat} {h : BitVec 2} {cfg : BitVec 9} (hw : s.Wf) (ha : a < s.seqs.length)
  (hp : (s.seq a).phase = .idle) (hf : fetch a s = some (encode (.initLine h cfg)))
  (hc : acceptFault s.par (.initLine h cfg) = .ok)
include hw ha hp hf hc

/-- After acceptance, and after each read, an odd number of steps is done. -/
theorem run_initBeforeWrite {k : Nat} (hk : k ≤ 7) :
    Host.Core.run Sys2Proof.core (2 * k + 1) (s.withSchedule (.seq a) (List.replicate 15 (.seq a))) =
      .next (s.initBeforeWrite a h cfg k) := by
  have hh : h.toNat < s.par.nInst := handle_lt_of_acceptFault hc
  induction k with
  | zero => exact run_succ_of_next (n := 0) rfl (step_init_accept hw ha hp hf hc)
  | succ k ih =>
    exact run_succ_of_next (run_succ_of_next (ih (by omega)) (step_initBeforeWrite hw ha hh (by omega)))
      (step_initBeforeRead hw ha hh (by omega) hk)

/-- After each write an even number of steps is done. -/
theorem run_initBeforeRead {k : Nat} (hk : k < 7) :
    Host.Core.run Sys2Proof.core (2 * k + 2) (s.withSchedule (.seq a) (List.replicate 15 (.seq a))) =
      .next (s.initBeforeRead a h cfg (k + 1)) :=
  run_succ_of_next (run_initBeforeWrite hw ha hp hf hc hk.le)
    (step_initBeforeWrite hw ha (handle_lt_of_acceptFault hc) hk)

/-- The 16 steps of an INITIALIZE (41_line_init R134). -/
theorem run_initDone :
    Host.Core.run Sys2Proof.core 16 (s.withSchedule (.seq a) (List.replicate 15 (.seq a))) =
      .next (nextTurn (s.initDone a h cfg)) :=
  run_succ_of_next (run_initBeforeWrite hw ha hp hf hc (k := 7) le_rfl)
    (step_initBeforeWrite_last hw ha (handle_lt_of_acceptFault hc))

end

theorem seqEnabled_of_init {s : State} {a : Nat} (ha : a < s.seqs.length) {k : Fin 8} {r : Option Word32}
    (hp : (s.seq a).phase = .init k r) : seqEnabled a s = true := by
  simp [seqEnabled, ha, hp]

/-- Settles O19: after an odd number of steps the write of a micro-step is next, after an even one the read. -/
theorem initTakesFifteenSteps : Obligations.InitTakesFifteenSteps := fun s a h cfg hw ha hp hf hc => by
  refine ⟨fun n hn => ?_, _, run_initDone hw ha hp hf hc, ?_⟩
  · obtain ⟨k, rfl | rfl⟩ := Nat.even_or_odd' n
    · have hq : ((s.initBeforeWrite a h cfg k).seq a).phase = .init (Fin.ofNat 8 k)
          ((s.initUart h cfg k).seen s.par h.toNat s.draws (Fin.ofNat 8 k)) := by
        rw [State.initBeforeWrite, State.during_seq ha]
        rfl
      refine ⟨_, run_initBeforeWrite hw ha hp hf hc (by omega),
        seqEnabled_of_init (by simpa [State.initBeforeWrite] using ha) hq, _, _, hq, ?_, ?_⟩
      · simp only [Fin.ofNat]
        omega
      · rw [Uart.isSome_seen, ne_eq, Fin.ext_iff]
        simp only [Fin.ofNat, Fin.val_zero]
        omega
    · have hq : ((s.initBeforeRead a h cfg (k + 1)).seq a).phase = .init (Fin.ofNat 8 (k + 1)) none := by
        rw [State.initBeforeRead, State.during_seq ha]
        rfl
      refine ⟨_, run_initBeforeRead hw ha hp hf hc (by omega),
        seqEnabled_of_init (by simpa [State.initBeforeRead] using ha) hq, _, _, hq, ?_, ?_⟩
      · simp only [Fin.ofNat]
        omega
      · simp only [Option.isSome_none, Bool.false_eq_true, false_iff]
        omega
  · rw [seq_nextTurn, State.initDone, State.during_seq ha]
    exact ⟨rfl, rfl, rfl⟩

end Sys2Proof.Machine
end

section
/-! PROOFS. What the eight micro-steps of an uninterrupted INITIALIZE leave of a UART: the image in the register block,
and the mark on a frame in flight (41_line_init R137, R138, 42_transfer R184). -/

namespace Sys2Proof.Machine

/-! ## The register block -/

/-- The register block after the first `n` micro-steps. -/
def RegBlock.micros (p : Params) (e : Enc) (b : RegBlock) : Nat → RegBlock
  | 0 => b
  | n + 1 => (b.micros p e n).micro p e (Fin.ofNat 8 n)

theorem or_one_bit : ∀ x : BitVec 1, x ||| 1 = 1 := by decide

/-- The eight micro-steps leave the image, under either `P_FIELD_WRITE` (41_line_init R137). -/
theorem micros_eq_initImage (p : Params) (e : Enc) (b : RegBlock) : b.micros p e 8 = b.initImage p e := by
  unfold RegBlock.initImage
  cases hp : p.fieldWrite with
  | assign =>
    simp [RegBlock.micros, RegBlock.micro, initFields, RegBlock.replace, newValue, hp, RegBlock.set, RegBlock.image]
  | orOnly =>
    simpa [RegBlock.micros, RegBlock.micro, initFields, RegBlock.replace, newValue, hp, RegBlock.set, RegBlock.get,
      RegBlock.orImage] using ⟨or_one_bit _, or_one_bit _, or_one_bit _⟩

/-- Writing an image over itself changes nothing (41_line_init R138). -/
theorem initImage_initImage (p : Params) (b : RegBlock) (e : Enc) :
    (b.initImage p e).initImage p e = b.initImage p e := by
  unfold RegBlock.initImage
  cases p.fieldWrite with
  | assign => rfl
  | orOnly => simp [RegBlock.orImage, BitVec.or_assoc]

/-! ## The UART -/

section
variable {p : Params} {i : Nat} (e : Enc) (u : Uart) (n : Nat)

@[simp] theorem Uart.micros_wire : (u.micros p i e n).wire = u.wire := by
  induction n with
  | zero => rfl
  | succ n ih =>
    rw [Uart.micros, Uart.micro]
    split <;> exact ih

@[simp] theorem Uart.micros_rxcur : (u.micros p i e n).rxcur = u.rxcur := by
  induction n with
  | zero => rfl
  | succ n ih =>
    rw [Uart.micros, Uart.micro]
    split <;> exact ih

theorem Uart.micros_of_unclocked (hc : p.clocked i = false) : u.micros p i e n = u := by
  induction n with
  | zero => rfl
  | succ n ih => rw [Uart.micros, ih, Uart.micro, if_neg (by simp [hc])]

theorem Uart.micros_rb (hc : p.clocked i = true) : (u.micros p i e n).rb = u.rb.micros p e n := by
  induction n with
  | zero => rfl
  | succ n ih => rw [Uart.micros, Uart.micro, if_pos hc, Uart.written_rb, ih, RegBlock.micros]

theorem Uart.micros_sh_succ (hc : p.clocked i = true) : (u.micros p i e (n + 1)).sh =
    if initReg (Fin.ofNat 8 n) = .cr3 then (u.micros p i e n).sh
    else (u.micros p i e n).sh.mark (u.rb.micros p e (n + 1)).format := by
  rw [Uart.micros, Uart.micro, if_pos hc, Uart.written_sh, Uart.micros_rb e u n hc, RegBlock.micros]

end

/-! ## The mark -/

/-- The format after each of the four writes of a format field (42_transfer R184). -/
def initFormats (b : RegBlock) (e : Enc) : List Format :=
  [⟨b.M, b.PCE, b.PS, b.STOP, e.brr⟩, ⟨e.m, b.PCE, b.PS, b.STOP, e.brr⟩, ⟨e.m, e.pce, e.ps, b.STOP, e.brr⟩,
    ⟨e.m, e.pce, e.ps, e.stop, e.brr⟩]

theorem Shift.mark_mark_self (x : Shift) (f : Format) : (x.mark f).mark f = x.mark f := by
  cases x <;> simp

/-- The writes after STOP's mark nothing new: they leave the format (41_line_init R132, 42_transfer R184). -/
theorem Uart.micros_sh {p : Params} {i : Nat} (hc : p.clocked i = true) (hp : p.fieldWrite = .assign) (e : Enc)
    (u : Uart) : (u.micros p i e 8).sh = (initFormats u.rb e).foldl (fun x f => x.mark f) u.sh := by
  have hformat : (u.rb.micros p e 1).format = ⟨u.rb.M, u.rb.PCE, u.rb.PS, u.rb.STOP, e.brr⟩ ∧
      (u.rb.micros p e 2).format = ⟨e.m, u.rb.PCE, u.rb.PS, u.rb.STOP, e.brr⟩ ∧
      (u.rb.micros p e 3).format = ⟨e.m, e.pce, e.ps, u.rb.STOP, e.brr⟩ ∧
      ∀ n ∈ [4, 6, 7, 8], (u.rb.micros p e n).format = ⟨e.m, e.pce, e.ps, e.stop, e.brr⟩ := by
    simp [RegBlock.micros, RegBlock.micro, initFields, RegBlock.replace, newValue, hp, RegBlock.set, RegBlock.format]
  obtain ⟨h1, h2, h3, hlater⟩ := hformat
  have hmark : ∀ n, initReg (Fin.ofNat 8 n) ≠ .cr3 →
      (u.micros p i e (n + 1)).sh = (u.micros p i e n).sh.mark (u.rb.micros p e (n + 1)).format :=
    fun n hn => by rw [Uart.micros_sh_succ e u n hc, if_neg hn]
  have hkeep : (u.micros p i e 5).sh = (u.micros p i e 4).sh := by
    rw [Uart.micros_sh_succ e u 4 hc, if_pos (by decide)]
  rw [hmark 7 (by decide), hmark 6 (by decide), hmark 5 (by decide), hkeep, hmark 3 (by decide), hmark 2 (by decide),
    hmark 1 (by decide), hmark 0 (by decide), h1, h2, h3, hlater 4 (by decide), hlater 6 (by decide),
    hlater 7 (by decide), hlater 8 (by decide)]
  simp only [Shift.mark_mark_self]
  rfl

end Sys2Proof.Machine
end

section
/-! PROOFS. Register words: a word read after a field is set, and the words of the image in the reference profile
(20_memory R62 to R65, 41_line_init R137). -/

namespace Sys2Proof.Machine

/-! ## Words and fields -/

theorem peekWord_of_clocked {s : State} {i : Nat} (hc : s.par.clocked i = true) {r : Reg} (hr : r ≠ .dr) :
    peekWord s i r = some (readWord s.par.layout (s.uart i).rb 0 r) := by
  unfold peekWord
  rw [if_neg (by simp [hc])]
  split
  · exact absurd rfl hr
  · rfl

/-- Two words of one register are equal if their fields are, and the bits that no field holds. -/
theorem word_ext {L : Layout} (r : Reg) {v w : Word32}
    (hf : ∀ f ∈ r.fields, extractField L f v = extractField L f w)
    (hres : ∀ k, (∀ f ∈ r.fields, ¬ (L.lo f ≤ k ∧ k < L.lo f + f.width)) → v.getLsbD k = w.getLsbD k) : v = w := by
  apply BitVec.eq_of_getLsbD_eq
  intro k _
  by_cases hk : ∃ f ∈ r.fields, L.lo f ≤ k ∧ k < L.lo f + f.width
  · obtain ⟨f, hfr, hlo, hhi⟩ := hk
    have hbit := congrArg (·.getLsbD (k - L.lo f)) (hf f hfr)
    simpa [getLsbD_extractField, show L.lo f + (k - L.lo f) = k by omega, show k - L.lo f < f.width by omega] using hbit
  · exact hres k fun f hfr hin => hk ⟨f, hfr, hin⟩

/-- Setting a field of the register replaces the field in its word (20_memory R62 to R65). -/
theorem readWord_set {L : Layout} (hL : L.wf = true) (b : RegBlock) (u : BitVec 9) {r : Reg} {f : Field}
    (hf : f ∈ r.fields) (v : Word32) : readWord L (b.set f v) u r = insertField L f v (readWord L b u r) := by
  have hr : r ≠ .dr := by rintro rfl; simp [Reg.fields] at hf
  refine word_ext (L := L) r (fun g hg => ?_) fun k hk => ?_
  · rw [extractField_readWord hL _ u hg]
    by_cases hgf : g = f
    · rw [hgf, get_set_self, extractField_insertField_self hL]
    · rw [get_set_ne hgf, extractField_insertField_ne hL hf hg hgf, extractField_readWord hL b u hg]
  · rw [readWord_reserved L _ u hr k hk]
    by_cases hk32 : k < 32
    · rw [getLsbD_insertField _ _ _ _ _ hk32, if_neg (hk f hf), readWord_reserved L b u hr k hk]
    · rw [BitVec.getLsbD_of_ge _ _ (by omega)]

/-- Setting a field of another register leaves the word. -/
theorem readWord_set_ne (L : Layout) (b : RegBlock) (u : BitVec 9) {r : Reg} {f : Field} (hf : f ∉ r.fields)
    (v : Word32) : readWord L (b.set f v) u r = readWord L b u r :=
  readWord_congr (set_RDR b f v) fun _ hg => get_set_ne (fun h => hf (by rwa [← h])) b v

/-- The image as a sequence of fields set (41_line_init R137). -/
theorem image_eq_set (b : RegBlock) (e : Enc) : b.image e =
    ((((((((((b.set .BRR (e.brr.setWidth 32)).set .M (e.m.setWidth 32)).set .PCE (e.pce.setWidth 32)).set .PS
      (e.ps.setWidth 32)).set .STOP (e.stop.setWidth 32)).set .RTSE (e.rtse.setWidth 32)).set .CTSE
      (e.ctse.setWidth 32)).set .TE 1).set .RE 1).set .UE 1) := by
  simp [RegBlock.image, RegBlock.set]

/-! ## The words of the reference profile -/

theorem reference_wf : Layout.reference.wf = true := by decide

/-! A field of one bit, and the four words (41_line_init R137). -/

theorem readWord_image_brr (b : RegBlock) (e : Enc) (u : BitVec 9) :
    readWord Layout.reference (b.image e) u .brr = e.brr.setWidth 32 := by
  have hmask : e.brr.setWidth 32 &&& Field.BRR.mask = e.brr.setWidth 32 := setWidth_mask e.brr
  rw [readWord_of_ne_dr (by decide)]
  show (0 : Word32) ||| (e.brr.setWidth 32 &&& Field.BRR.mask) <<< 0 = e.brr.setWidth 32
  rw [hmask, BitVec.shiftLeft_zero]
  exact BitVec.zero_or

theorem and_not_or_self {n : Nat} (w c : BitVec n) : (w &&& ~~~c) ||| c = w ||| c := by
  ext k hk
  simp only [BitVec.getElem_or, BitVec.getElem_and, BitVec.getElem_not]
  exact (by decide : ∀ x y : Bool, (x && !y || y) = (x || y)) _ _

theorem mask_of_width_one {f : Field} (hf : f.width = 1) : f.mask = 1 := by
  rw [Field.mask, hf]
  rfl

theorem insertField_one {L : Layout} {f : Field} (hf : f.width = 1) (w : Word32) :
    insertField L f 1 w = w ||| ((1 : Word32) <<< L.lo f) := by
  rw [insertField, placeField, mask_of_width_one hf]
  exact and_not_or_self w _

theorem insertField_bit {L : Layout} {f : Field} (hf : f.width = 1) (x : BitVec 1) (w : Word32) :
    insertField L f (x.setWidth 32) w = (w &&& ~~~((1 : Word32) <<< L.lo f)) ||| (x.setWidth 32 <<< L.lo f) := by
  have hx : x.setWidth 32 &&& (1 : Word32) = x.setWidth 32 := setWidth_mask x
  rw [insertField, placeField, mask_of_width_one hf, hx]

/-- A bit placed in CR1 or CR3 is kept when a bit below or above it is cleared. -/
theorem placed_bit_and_not (x : BitVec 1) :
    (x.setWidth 32 <<< 12) &&& ~~~0x400#32 = x.setWidth 32 <<< 12 ∧
    (x.setWidth 32 <<< 12) &&& ~~~0x200#32 = x.setWidth 32 <<< 12 ∧
    (x.setWidth 32 <<< 10) &&& ~~~0x200#32 = x.setWidth 32 <<< 10 ∧
    (x.setWidth 32 <<< 8) &&& ~~~0x200#32 = x.setWidth 32 <<< 8 := by
  revert x
  decide

theorem readWord_image_cr1 (b : RegBlock) (e : Enc) (u : BitVec 9) :
    readWord Layout.reference (b.image e) u .cr1 =
      (readWord Layout.reference b u .cr1 &&& ~~~(0x00001600 : Word32)) ||| (e.m.setWidth 32 <<< 12) |||
        (e.pce.setWidth 32 <<< 10) ||| (e.ps.setWidth 32 <<< 9) ||| 0x0000200C := by
  rw [image_eq_set]
  simp (disch := decide) only [readWord_set reference_wf, readWord_set_ne, insertField_one, insertField_bit]
  generalize readWord Layout.reference b u .cr1 = w
  show ((((w &&& ~~~0x1000#32 ||| e.m.setWidth 32 <<< 12) &&& ~~~0x400#32 ||| e.pce.setWidth 32 <<< 10) &&&
    ~~~0x200#32) ||| e.ps.setWidth 32 <<< 9) ||| 0x8#32 ||| 0x4#32 ||| 0x2000#32 = _
  obtain ⟨hm10, hm9, -⟩ := placed_bit_and_not e.m
  obtain ⟨-, -, hpce9, -⟩ := placed_bit_and_not e.pce
  simp only [BitVec.and_or_distrib_right, hm10, hm9, hpce9]
  simp [BitVec.and_assoc, BitVec.or_assoc]

theorem readWord_image_cr2 (b : RegBlock) (e : Enc) (u : BitVec 9) :
    readWord Layout.reference (b.image e) u .cr2 =
      (readWord Layout.reference b u .cr2 &&& ~~~(0x00003000 : Word32)) ||| (e.stop.setWidth 32 <<< 12) := by
  rw [image_eq_set]
  simp (disch := decide) only [readWord_set reference_wf, readWord_set_ne]
  have hstop : e.stop.setWidth 32 &&& Field.STOP.mask = e.stop.setWidth 32 := setWidth_mask e.stop
  rw [insertField, placeField, hstop]
  rfl

theorem readWord_image_cr3 (b : RegBlock) (e : Enc) (u : BitVec 9) :
    readWord Layout.reference (b.image e) u .cr3 =
      (readWord Layout.reference b u .cr3 &&& ~~~(0x00000300 : Word32)) ||| (e.ctse.setWidth 32 <<< 9) |||
        (e.rtse.setWidth 32 <<< 8) := by
  rw [image_eq_set]
  simp (disch := decide) only [readWord_set reference_wf, readWord_set_ne, insertField_bit]
  generalize readWord Layout.reference b u .cr3 = w
  show ((w &&& ~~~0x100#32 ||| e.rtse.setWidth 32 <<< 8) &&& ~~~0x200#32) ||| e.ctse.setWidth 32 <<< 9 = _
  obtain ⟨-, -, -, hrtse9⟩ := placed_bit_and_not e.rtse
  rw [BitVec.and_or_distrib_right, hrtse9, BitVec.and_assoc, BitVec.or_assoc, BitVec.or_comm (e.rtse.setWidth 32 <<< 8),
    ← BitVec.or_assoc]
  rfl

end Sys2Proof.Machine
end

section
/-! PROOFS. The register image and the idempotence of an uninterrupted INITIALIZE (41_line_init R137, R138). -/

namespace Sys2Proof.Machine

/-! ## The last state of the run -/

theorem nextTurn_sched (s : State) : (nextTurn s).sched = s.sched.tail := by
  unfold nextTurn
  split <;> simp [*]

section
variable {s : State} {a : Nat} {h : BitVec 2} {cfg : BitVec 9}

theorem initDone_uart (hi : h.toNat < s.uarts.length) :
    (nextTurn (s.initDone a h cfg)).uart h.toNat = s.initUart h cfg 8 := by
  rw [uart_nextTurn, State.initDone, State.during_uart hi]

theorem initDone_par : (nextTurn (s.initDone a h cfg)).par = s.par := by
  rw [nextTurn_par]
  rfl

/-- The register block that an INITIALIZE leaves, with or without a clock. -/
theorem initUart_rb : (s.initUart h cfg 8).rb = if s.par.clocked h.toNat then
    (s.uart h.toNat).rb.initImage s.par (enc s.par cfg (s.par.fclk h.toNat)) else (s.uart h.toNat).rb := by
  rw [State.initUart]
  split
  · rw [Uart.micros_rb _ _ _ ‹_›, micros_eq_initImage]
  · rw [Uart.micros_of_unclocked _ _ _ (Bool.eq_false_iff.mpr ‹_›)]

end

/-- A frame in flight is marked if one of the formats differs from its own. -/
theorem foldl_mark_busy (l : List Format) (v : Option (BitVec 9)) (fmt : Format) (c : Bool) :
    l.foldl (fun (x : Shift) f => x.mark f) (.busy v fmt c) = .busy v fmt (c || decide (∃ f ∈ l, f ≠ fmt)) := by
  induction l generalizing c with
  | nil => simp
  | cons f l ih => simp [ih, Bool.or_assoc]

/-! ## The statements -/

/-- Settles O20: the last state of the run, part by part. -/
theorem initRegisterImage : Obligations.InitRegisterImage := fun s a h cfg hw ha hp hf hc hclk hassign => by
  have hi : h.toNat < s.uarts.length := hw.uarts ▸ handle_lt_of_acceptFault hc
  have hpar : (nextTurn (s.initDone a h cfg)).par = s.par := initDone_par
  have hrb : (s.initUart h cfg 8).rb = (s.uart h.toNat).rb.image (enc s.par cfg (s.par.fclk h.toNat)) := by
    rw [initUart_rb, if_pos hclk, RegBlock.initImage, hassign]
  have hsh := Uart.micros_sh hclk hassign (enc s.par cfg (s.par.fclk h.toNat)) (s.uart h.toNat)
  rw [← State.initUart] at hsh
  have hword : ∀ {r : Reg}, r ≠ .dr → peekWord (nextTurn (s.initDone a h cfg)) h.toNat r =
      some (readWord s.par.layout ((s.uart h.toNat).rb.image (enc s.par cfg (s.par.fclk h.toNat))) 0 r) :=
    fun hr => by rw [peekWord_of_clocked (by rwa [hpar]) hr, hpar, initDone_uart hi, hrb]
  refine ⟨_, run_initDone hw ha hp hf hc, ?_⟩
  rw [initDone_uart hi]
  refine ⟨hrb, Uart.micros_wire _ _ _, Uart.micros_rxcur _ _ _, ⟨fun hidle => ?_, fun v fmt c hbusy => ?_⟩,
    fun i hne => ?_, ?_, hpar, nextTurn_progs _, nextTurn_draws _, nextTurn_sched _, nextTurn_clock _,
    nextTurn_seqs _, fun hL => ?_⟩
  · rw [hsh, hidle]
    rfl
  · rw [hsh, hbusy, foldl_mark_busy]
    simp [initFormats]
  · rw [uart_nextTurn]
    exact State.during_uart_ne hne _ _ _
  · rw [nextTurn_uarts]
    exact List.length_set
  · rw [hL] at hword
    have hpeek : ∀ {r : Reg} {w : Word32}, r ≠ .dr → peekWord s h.toNat r = some w →
        readWord Layout.reference (s.uart h.toNat).rb 0 r = w := fun hr hw => by
      rw [peekWord_of_clocked hclk hr, hL] at hw
      exact Option.some.inj hw
    refine ⟨?_, fun w hw => ?_, fun w hw => ?_, fun w hw => ?_⟩
    · rw [hword (by decide), readWord_image_brr]
    · rw [hword (by decide), readWord_image_cr1, hpeek (by decide) hw]
    · rw [hword (by decide), readWord_image_cr2, hpeek (by decide) hw]
    · rw [hword (by decide), readWord_image_cr3, hpeek (by decide) hw]

/-- A run keeps the block well-formed. -/
theorem run_wf {n : Nat} {s t : State} (hw : s.Wf) (hr : Host.Core.run Sys2Proof.core n s = .next t) : t.Wf := by
  induction n generalizing s with
  | zero =>
    cases hr
    exact hw
  | succ n ih =>
    obtain ⟨u, hu, hr⟩ := run_succ hr
    exact ih (step_wf hw hu) hr

theorem wf_withSchedule {s : State} (h : s.Wf) (m : Move) (ms : List Move) : (s.withSchedule m ms).Wf :=
  h.of_eq rfl rfl rfl rfl

/-- Settles O21: the second INITIALIZE starts from the first's image, or from a UART without a clock. -/
theorem initIsIdempotent : Obligations.InitIsIdempotent := fun s t u a h cfg hw ha hp hfs hft hc hrs hrt => by
  have hi : h.toNat < s.uarts.length := hw.uarts ▸ handle_lt_of_acceptFault hc
  have htw : t.Wf := run_wf (wf_withSchedule hw _ _) hrs
  rw [run_initDone hw ha hp hfs hc] at hrs
  cases hrs
  have hpar : (nextTurn (s.initDone a h cfg)).par = s.par := initDone_par
  have hta : a < (nextTurn (s.initDone a h cfg)).seqs.length := by simpa [State.initDone] using ha
  have hti : h.toNat < (nextTurn (s.initDone a h cfg)).uarts.length := by simpa [State.initDone, State.during] using hi
  have htp : ((nextTurn (s.initDone a h cfg)).seq a).phase = .idle := by
    rw [seq_nextTurn, State.initDone, State.during_seq ha]
    rfl
  rw [run_initDone htw hta htp hft (by rw [hpar]; exact hc)] at hrt
  cases hrt
  rw [initDone_uart hti, initUart_rb, hpar, initDone_uart hi, initUart_rb]
  split
  · exact initImage_initImage _ _ _
  · rfl

end Sys2Proof.Machine
end

section
/-! PROOFS. A single agent and the holding register: TXE = 1 stays from TxHold to TxWrite (42_transfer R163). -/

namespace Sys2Proof.Machine

/-- An agent comes to TxWrite only by leaving TxHold, with TXE = 1 (42_transfer R161). -/
theorem SeqMove.txWrite_cases {s t : State} {a : Nat} (h : SeqMove a s t) (ha : a < s.seqs.length)
    (hp : (t.seq a).phase = .txWrite) :
    t = s ∨
    (s.par.clocked (s.seq a).H.toNat = true ∧ (s.uart (s.seq a).H.toNat).rb.TXE = 1 ∧
      t = s.modSeq a fun q => { q with phase := .txWrite }) := by
  cases h with
  | stay => exact .inl rfl
  | txReady _ hc hx => exact .inr ⟨hc, hx, rfl⟩
  | reserved | reject =>
    rw [raiseFault, State.seq_modSeq_self ha] at hp
    cases hp
  | accept w i =>
    rw [State.seq_modSeq_self ha] at hp
    cases i <;> cases hp
  | writeDivisor r u _ hu | writeBack k r u _ hu =>
    rw [(regWrite_frame hu).seq_modSeq ha, Seq.initAdvance_phase] at hp
    split at hp <;> cases hp
  | readBack | rxReady =>
    rw [State.seq_modSeq_self ha] at hp
    cases hp
  | txWrite u _ hu =>
    rw [(regWrite_frame hu).seq_modSeq ha] at hp
    cases hp
  | rxRead v u _ hu =>
    rw [(regRead_frame hu).seq_modSeq ha] at hp
    cases hp

/-- Only a DR write clears TXE: the peripheral agent and the environment leave it at 1 (10_state R23). -/
theorem PerRb.txe_kept {b b' : RegBlock} (h : PerRb b b') (hx : b.TXE = 1) : b'.TXE = 1 := by
  cases h with
  | same | lineFlags => exact hx
  | loaded => rfl
  | finished => rwa [RegBlock.txFinished, if_pos hx]
  | received x fe pe =>
    unfold RegBlock.received
    split <;> exact hx

/-- Settles O55: the only agent enters TxWrite with TXE = 1, and until its own DR write nobody clears it. -/
theorem singleAgentNeverOverwrites : Obligations.SingleAgentNeverOverwrites := fun s t hw ⟨hone, hs⟩ h => by
  obtain ⟨u, hu, rfl⟩ := step_eq_next.mp h
  simp only [SingleAgentTxEmpty, nextTurn_seqs, seq_nextTurn, nextTurn_par, uart_nextTurn]
  obtain ⟨a, ha, hm, hf, -⟩ | ⟨i, hf, hrb⟩ := runTurn_wf_cases hw hu
  · obtain rfl : a = 0 := by omega
    refine ⟨hf.agents.trans hone, fun hp => ?_⟩
    obtain rfl | ⟨hc, hx, rfl⟩ := hm.txWrite_cases ha hp
    · exact hs hp
    · rw [State.seq_modSeq_self ha]
      exact ⟨hc, hx⟩
  · have hseq : u.seq 0 = s.seq 0 := by simp only [State.seq, hf.seqs]
    rw [hf.seqs, hf.par, hseq]
    exact ⟨hone, fun hp => ⟨(hs hp).1, (hrb _).txe_kept (hs hp).2⟩⟩

end Sys2Proof.Machine
end

section
/-! PROOFS. The peripheral agent's three moves: when each is enabled, and the next state (42_transfer R180 to R182). -/

namespace Sys2Proof.Machine

/-! ## The moves -/

theorem txLoad_of_enabled {s : State} {i : Nat} (he : txLoadEnabled i s = true) :
    txLoad i s = s.modUart i fun u => { u with sh := .busy u.rb.TDR u.rb.format false, rb := u.rb.txLoaded } :=
  if_pos he

theorem txFinish_of_busy {s : State} {i : Nat} (hc : s.par.clocked i = true) {v : Option (BitVec 9)} {fmt : Format}
    {c : Bool} (hb : (s.uart i).sh = .busy v fmt c) :
    txFinish i s = (s.modUart i fun u =>
      { u with wire := u.wire ++ [finishedFrame s.draws v fmt c], sh := .idle, rb := u.rb.txFinished }).useDraw := by
  rw [txFinish, if_pos hc, hb]

theorem rxFrame_of_enabled {s : State} {i : Nat} (he : rxFrameEnabled i s = true) :
    ∃ x fe pe, arrival s.draws (s.uart i).rb (nextFrame i s) = (x, fe, pe) ∧
      rxFrame i s = (s.modUart i fun u => { u with rb := u.rb.received x fe pe, rxcur := nextCursor i s }).useDraw :=
  ⟨_, _, _, rfl, if_pos he⟩

/-- A step at the peripheral agent's turn is its move, then the next turn (00_scope R11). -/
theorem step_of_txLoad {s : State} {i : Nat} (ht : s.turn = .txLoad i) : step s = .next (nextTurn (txLoad i s)) :=
  step_eq_next.mpr ⟨_, by rw [runTurn, ht], rfl⟩

theorem step_of_txFinish {s : State} {i : Nat} (ht : s.turn = .txFinish i) :
    step s = .next (nextTurn (txFinish i s)) :=
  step_eq_next.mpr ⟨_, by rw [runTurn, ht], rfl⟩

theorem step_of_rxFrame {s : State} {i : Nat} (ht : s.turn = .rxFrame i) : step s = .next (nextTurn (rxFrame i s)) :=
  step_eq_next.mpr ⟨_, by rw [runTurn, ht], rfl⟩

/-! ## TxLoad -/

theorem txLoadEnabled_iff {s : State} {i : Nat} : txLoadEnabled i s = true ↔
    s.par.clocked i = true ∧ (s.uart i).rb.UE = 1 ∧ (s.uart i).rb.TE = 1 ∧ (s.uart i).rb.TXE = 0 ∧
      (s.uart i).sh = .idle := by
  simp only [txLoadEnabled, Bool.and_eq_true, decide_eq_true_eq, and_assoc]

/-- Settles O28: the guard is the conjunction of the five conditions. -/
theorem txLoadEffect : Obligations.TxLoadEffect := fun _ _ =>
  ⟨txLoadEnabled_iff, fun ht he => by
    rw [step_of_txLoad ht, txLoad_of_enabled he]
    rfl⟩

/-! ## TxFinish -/

theorem txFinish_enabled_iff {s : State} {i : Nat} : enabled s (.txFinish i) = true ↔
    s.par.clocked i = true ∧ ∃ v fmt c, (s.uart i).sh = .busy v fmt c := by
  simp only [enabled, Bool.and_eq_true, decide_eq_true_eq]
  cases (s.uart i).sh <;> simp

/-- Settles O29: the one UART that the move updates exists, as it has a clock. -/
theorem txFinishEffect : Obligations.TxFinishEffect := by
  refine ⟨fun _ _ => txFinish_enabled_iff, fun s i v fmt c ht hw hc hb => ?_⟩
  have hi : i < s.uarts.length := hw.uarts ▸ Params.lt_of_clocked hc
  have hself : (nextTurn (txFinish i s)).uart i = { s.uart i with
      wire := (s.uart i).wire ++ [finishedFrame s.draws v fmt c], sh := .idle, rb := (s.uart i).rb.txFinished } := by
    rw [uart_nextTurn, txFinish_of_busy hc hb, State.uart_useDraw, State.uart_modUart_self hi]
  refine ⟨_, finishedFrame s.draws v fmt c, step_of_txFinish ht, ?_⟩
  rw [hself]
  refine ⟨rfl, ?_, ?_, ?_, rfl, rfl, rfl, fun j hj => ?_, ?_⟩
  · rintro rfl
    rfl
  · rintro rfl x rfl
    rfl
  · rintro rfl
    exact ⟨v.getD (Config.drawTx s.draws), rfl⟩
  · rw [uart_nextTurn, (txFinish_frame i s).others j hj]
  · rw [nextTurn_seqs, (txFinish_frame i s).seqs]

/-! ## RxFrame -/

theorem frameAvailable_iff {s : State} {i : Nat} : frameAvailable i s = true ↔
    s.par.rxSource i = .external ∨
      ∃ j, s.par.rxSource i = .loopback j ∧ (s.uart i).rxcur < (s.uart j).wire.length := by
  unfold frameAvailable
  cases s.par.rxSource i <;> simp

theorem rxFrameEnabled_iff {s : State} {i : Nat} : rxFrameEnabled i s = true ↔
    s.par.clocked i = true ∧ (s.uart i).rb.UE = 1 ∧ (s.uart i).rb.RE = 1 ∧ frameAvailable i s = true := by
  simp only [rxFrameEnabled, Bool.and_eq_true, decide_eq_true_eq, and_assoc]

theorem nextFrame_of_loopback {s : State} {i j : Nat} (hsrc : s.par.rxSource i = .loopback j) :
    nextFrame i s = (s.uart j).wire[(s.uart i).rxcur]? := by
  simp only [nextFrame, hsrc]

/-- A looped-back frame of the receiver's format arrives as it was sent, without an error flag (42_transfer R182). -/
theorem arrival_of_matching (n : Nat) (b : RegBlock) (word : BitVec 9) :
    arrival n b (some (.frame word b.format.nbits (parityOf b.PCE b.PS) b.STOP b.BRR)) = (word, 0, 0) := by
  simp [arrival, formatMatches]

/-- Settles O30: what arrives is the model's `arrival`, and one UART receives it. -/
theorem rxFrameEffect : Obligations.RxFrameEffect := by
  refine ⟨fun s i => by rw [← frameAvailable_iff]; exact rxFrameEnabled_iff, fun s i hw ht he => ?_⟩
  have hi : i < s.uarts.length := hw.uarts ▸ Params.lt_of_clocked (rxFrameEnabled_iff.mp he).1
  obtain ⟨x, fe, pe, harr, hrx⟩ := rxFrame_of_enabled he
  have hself : (nextTurn (rxFrame i s)).uart i =
      { s.uart i with rb := (s.uart i).rb.received x fe pe, rxcur := nextCursor i s } := by
    rw [uart_nextTurn, hrx, State.uart_useDraw, State.uart_modUart_self hi]
  refine ⟨_, x, fe, pe, step_of_rxFrame ht, ?_⟩
  rw [hself]
  refine ⟨rfl, fun j hj word hword => ?_, rfl, rfl, rfl, fun j hj => ?_, ?_⟩
  · have hnext : nextFrame i s = some (.frame word (s.uart i).rb.format.nbits _ _ _) :=
      (nextFrame_of_loopback hj).trans hword
    rw [hnext, arrival_of_matching] at harr
    cases harr
    exact ⟨rfl, rfl, rfl⟩
  · rw [uart_nextTurn, (rxFrame_frame i s).others j hj]
  · rw [nextTurn_seqs, (rxFrame_frame i s).seqs]

/-! ## What the moves keep -/

/-- What an update of one UART keeps of it, it keeps of every UART. -/
theorem State.uart_modUart_keeps {α : Type} (π : Uart → α) {s : State} {i : Nat} {f : Uart → Uart}
    (hf : π (f (s.uart i)) = π (s.uart i)) (j : Nat) : π ((s.modUart i f).uart j) = π (s.uart j) := by
  rw [State.uart_modUart_eq]
  split
  · rename_i hj
    obtain ⟨rfl, -⟩ := hj
    exact hf
  · rfl

theorem txLoad_keeps {α : Type} (π : Uart → α)
    (hπ : ∀ u v fmt c, π { u with sh := .busy v fmt c, rb := u.rb.txLoaded } = π u) (i j : Nat) (s : State) :
    π ((txLoad i s).uart j) = π (s.uart j) := by
  unfold txLoad
  split
  · exact State.uart_modUart_keeps π (hπ _ _ _ _) j
  · rfl

theorem txFinish_keeps {α : Type} (π : Uart → α)
    (hπ : ∀ u w, π { u with wire := w, sh := .idle, rb := u.rb.txFinished } = π u) (i j : Nat) (s : State) :
    π ((txFinish i s).uart j) = π (s.uart j) := by
  unfold txFinish
  split
  · split
    · rfl
    · rw [State.uart_useDraw]
      exact State.uart_modUart_keeps π (hπ _ _) j
  · rfl

theorem rxFrame_keeps {α : Type} (π : Uart → α)
    (hπ : ∀ u x fe pe n, π { u with rb := u.rb.received x fe pe, rxcur := n } = π u) (i j : Nat) (s : State) :
    π ((rxFrame i s).uart j) = π (s.uart j) := by
  unfold rxFrame
  split
  · rw [State.uart_useDraw]
    exact State.uart_modUart_keeps π (hπ _ _ _ _ _) j
  · rfl

@[simp] theorem RegBlock.txFinished_TXE (b : RegBlock) : b.txFinished.TXE = b.TXE := by
  unfold RegBlock.txFinished
  split <;> rfl

@[simp] theorem RegBlock.txFinished_RXNE (b : RegBlock) : b.txFinished.RXNE = b.RXNE := by
  unfold RegBlock.txFinished
  split <;> rfl

@[simp] theorem RegBlock.received_TXE (b : RegBlock) (x : BitVec 9) (fe pe : BitVec 1) :
    (b.received x fe pe).TXE = b.TXE := by
  unfold RegBlock.received
  split <;> rfl

/-! ## Who sets TXE and RXNE -/

/-- An agent's step is at most one register access of the UART its handle names; the rest of it changes no UART. -/
inductive BusAccess (h : BitVec 2) (s : State) : State → Prop
  | none : BusAccess h s s
  | read (r : Reg) (v : Word32) (t : State) : regRead h r s = .next (v, t) → BusAccess h s t
  | write (r : Reg) (v : Word32) (t : State) : regWrite h r v s = .next t → BusAccess h s t

theorem handle_lt_of_regWrite {h : BitVec 2} {r : Reg} {v : Word32} {s t : State} (hw : regWrite h r v s = .next t) :
    h.toNat < s.par.nInst := by
  unfold regWrite at hw
  split at hw
  · assumption
  · cases hw

theorem BusAccess.rb {h : BitVec 2} {s t : State} (hp : s.par.wf = true) (hb : BusAccess h s t) (j : Nat) :
    RbStep s.par.layout (s.uart j).rb (t.uart j).rb := by
  cases hb with
  | none => exact .same
  | read r v t hr => exact regRead_rb hp (handle_lt_of_regRead hr) hr j
  | write r v t hw => exact regWrite_rb hp (handle_lt_of_regWrite hw) hw j

theorem pollFlag_access {s t : State} {h : BitVec 2} {f : Field} {x : Bool} (hf : pollFlag h f s = .next (x, t)) :
    BusAccess h s t := by
  obtain ⟨⟨v, u⟩, hr, he⟩ := Out.andThen_eq_next.mp hf
  cases he
  exact .read _ _ _ hr

theorem holdUntil_access {s t : State} {a : Nat} {f : Field} {ph : Phase} (h : holdUntil a f ph s = .next t) :
    ∃ u, BusAccess (s.seq a).H s u ∧ t.uarts = u.uarts := by
  obtain rfl | ⟨u, hu, rfl⟩ := holdUntil_cases h
  · exact ⟨t, .none, rfl⟩
  · exact ⟨u, pollFlag_access hu, rfl⟩

theorem seqStep_access {s t : State} {a : Nat} (ha : activeSeq s = some a) (h : seqStep a s = .next t) :
    ∃ u, BusAccess (s.seq a).H s u ∧ t.uarts = u.uarts := by
  cases hp : (s.seq a).phase with
  | idle =>
    obtain ⟨-, rfl⟩ | ⟨w, -, ⟨-, rfl⟩ | ⟨i, -, rfl⟩⟩ := seqStep_idle ha hp h
    · exact ⟨t, .none, rfl⟩
    · exact ⟨s, .none, rfl⟩
    · exact ⟨s, .none, (acceptCommand_sameMemory a i _ s).uarts⟩
  | init k r =>
    simp only [seqStep, hp] at h
    obtain ⟨-, -, v, u, hr, rfl⟩ | ⟨v, u, hu, rfl⟩ := initMicro_cases h
    · exact ⟨u, .read _ _ _ hr, rfl⟩
    · exact ⟨u, .write _ _ _ hu, rfl⟩
  | txHold | rxHold =>
    simp only [seqStep, hp] at h
    exact holdUntil_access h
  | txWrite =>
    simp only [seqStep, hp] at h
    obtain ⟨u, hu, rfl⟩ := txWrite_cases h
    exact ⟨u, .write _ _ _ hu, rfl⟩
  | rxRead =>
    simp only [seqStep, hp] at h
    obtain ⟨v, u, hu, rfl⟩ := rxRead_cases h
    exact ⟨u, .read _ _ _ hu, rfl⟩
  | faulted =>
    simp only [seqStep, hp] at h
    cases h
    exact ⟨s, .none, rfl⟩

/-- No agent's step sets TXE or RXNE, whatever its handle (20_memory R66 to R68). -/
theorem seqStep_flags {s t : State} (hp : s.par.wf = true) {a : Nat} (ha : activeSeq s = some a)
    (h : seqStep a s = .next t) (j : Nat) :
    ((s.uart j).rb.TXE = 0 → (t.uart j).rb.TXE = 0) ∧ ((s.uart j).rb.RXNE = 0 → (t.uart j).rb.RXNE = 0) := by
  obtain ⟨u, hu, hut⟩ := seqStep_access ha h
  have hj : t.uart j = u.uart j := by simp only [State.uart, hut]
  obtain ⟨hx, hr, -, -⟩ := (hu.rb hp j).flags
  rw [hj]
  exact ⟨fun h0 => hx.elim (fun hx => hx.trans h0) fun hx => hx.1, fun h0 => hr.elim (fun hr => hr.trans h0) id⟩

/-- Every step but a TxLoad of UART `i` leaves its TXE at 0 (10_state R23). -/
theorem step_txe_zero {s t : State} {i : Nat} (hp : s.par.wf = true) (h : step s = .next t)
    (hne : s.turn ≠ .txLoad i) (hx : (s.uart i).rb.TXE = 0) : (t.uart i).rb.TXE = 0 := by
  obtain ⟨u, hu, rfl⟩ := step_eq_next.mp h
  rw [uart_nextTurn]
  obtain ⟨a, ha, hs⟩ | ⟨a, -, -, rfl⟩ | ⟨j, ht, rfl⟩ | ⟨j, -, rfl⟩ | ⟨j, -, rfl⟩ | ⟨j, -, rfl⟩ := runTurn_cases hu
  · exact (seqStep_flags hp ha hs i).1 hx
  · exact hx
  · have hij : i ≠ j := fun hij => hne (hij ▸ ht)
    rwa [(txLoad_frame j s).others i hij]
  · rwa [txFinish_keeps (·.rb.TXE) (fun _ _ => RegBlock.txFinished_TXE _)]
  · rwa [rxFrame_keeps (·.rb.TXE) (fun _ _ _ _ _ => RegBlock.received_TXE _ _ _ _)]
  · obtain ⟨ne, idle, lbd, cts, hl⟩ := lineFlags_uart j i s
    rwa [hl]

/-- Every step but an RxFrame of UART `i` leaves its RXNE at 0 (10_state R23). -/
theorem step_rxne_zero {s t : State} {i : Nat} (hp : s.par.wf = true) (h : step s = .next t)
    (hne : s.turn ≠ .rxFrame i) (hx : (s.uart i).rb.RXNE = 0) : (t.uart i).rb.RXNE = 0 := by
  obtain ⟨u, hu, rfl⟩ := step_eq_next.mp h
  rw [uart_nextTurn]
  obtain ⟨a, ha, hs⟩ | ⟨a, -, -, rfl⟩ | ⟨j, -, rfl⟩ | ⟨j, -, rfl⟩ | ⟨j, ht, rfl⟩ | ⟨j, -, rfl⟩ := runTurn_cases hu
  · exact (seqStep_flags hp ha hs i).2 hx
  · exact hx
  · rwa [txLoad_keeps (·.rb.RXNE) (fun _ _ _ _ => rfl)]
  · rwa [txFinish_keeps (·.rb.RXNE) (fun _ _ => RegBlock.txFinished_RXNE _)]
  · have hij : i ≠ j := fun hij => hne (hij ▸ ht)
    rwa [(rxFrame_frame j s).others i hij]
  · obtain ⟨ne, idle, lbd, cts, hl⟩ := lineFlags_uart j i s
    rwa [hl]

end Sys2Proof.Machine
end

section
/-! PROOFS. TRANSMIT and RECEIVE step by step: acceptance, the hold, and the access of DR (42_transfer R160 to R167). -/

namespace Sys2Proof.Machine

/-! ## Acceptance -/

/-- TRANSMIT has no check but that of its handle (60_exceptions R201). -/
theorem acceptFault_transmit {p : Params} {h : BitVec 2} (hh : h.toNat < p.nInst) (byte : Byte) :
    acceptFault p (.transmit h byte) = .ok :=
  if_neg (ne_false_of_eq_true (decide_eq_true hh))

/-- RECEIVE has no check but that of its handle (60_exceptions R201). -/
theorem acceptFault_receive {p : Params} {h : BitVec 2} (hh : h.toNat < p.nInst) : acceptFault p (.receive h) = .ok :=
  if_neg (ne_false_of_eq_true (decide_eq_true hh))

/-- Settles O23: a handle of a UART that exists passes the checks, and acceptance enters the hold. -/
theorem transferAcceptance : Obligations.TransferAcceptance := fun _ _ _ ht hlt hp hh =>
  have ha := activeSeq_eq_some.mpr ⟨ht, hlt⟩
  ⟨fun byte => exec_idle_of_ok ha hp (acceptFault_transmit hh byte), exec_idle_of_ok ha hp (acceptFault_receive hh)⟩

/-! ## The holds -/

/-- A hold goes on exactly if the flag of a clocked UART is set (42_transfer R161, R166, 20_memory R69). -/
theorem holdUntil_eq {s : State} (hp : s.par.wf = true) {a : Nat} (hh : (s.seq a).H.toNat < s.par.nInst) {f : Field}
    (hf : f ∈ Reg.sr.fields) (ph : Phase) :
    holdUntil a f ph s = .next
      (if (s.par.clocked (s.seq a).H.toNat && decide ((s.uart (s.seq a).H.toNat).rb.get f = 1)) = true then
        s.modSeq a fun q => { q with phase := ph } else s) := by
  rw [holdUntil, pollFlag_eq hp hh hf]
  rfl

theorem seqEnabled_txHold {s : State} (hp : s.par.wf = true) {a : Nat} (ha : a < s.seqs.length)
    (hq : (s.seq a).phase = .txHold) (hh : (s.seq a).H.toNat < s.par.nInst) :
    seqEnabled a s = (s.par.clocked (s.seq a).H.toNat && decide ((s.uart (s.seq a).H.toNat).rb.get .TXE = 1)) := by
  simp only [seqEnabled, ha, hq, decide_true, Bool.true_and, pollFlag_eq hp hh (f := .TXE) (by decide)]
  rfl

theorem seqEnabled_rxHold {s : State} (hp : s.par.wf = true) {a : Nat} (ha : a < s.seqs.length)
    (hq : (s.seq a).phase = .rxHold) (hh : (s.seq a).H.toNat < s.par.nInst) :
    seqEnabled a s = (s.par.clocked (s.seq a).H.toNat && decide ((s.uart (s.seq a).H.toNat).rb.get .RXNE = 1)) := by
  simp only [seqEnabled, ha, hq, decide_true, Bool.true_and, pollFlag_eq hp hh (f := .RXNE) (by decide)]
  rfl

theorem seqStep_txHold {s : State} {a : Nat} (hq : (s.seq a).phase = .txHold) :
    seqStep a s = holdUntil a .TXE .txWrite s := by
  rw [seqStep, hq, txHold]

theorem seqStep_rxHold {s : State} {a : Nat} (hq : (s.seq a).phase = .rxHold) :
    seqStep a s = holdUntil a .RXNE .rxRead s := by
  rw [seqStep, hq, rxHold]

/-- Settles O24: the enabling condition is the poll that the hold makes; TXE rises in no other move. -/
theorem transmitHoldsUntilEmpty : Obligations.TransmitHoldsUntilEmpty := by
  refine ⟨fun s a h byte hp ht hlt hq hh => ?_, fun s t i hp hs h0 h1 => ?_⟩
  · have hen := seqEnabled_txHold hp hlt hq hh
    rw [← seqStep_eq_exec_transmit (activeSeq_eq_some.mpr ⟨ht, hlt⟩) (.inl hq) h byte, seqStep_txHold hq,
      holdUntil_eq hp hh (by decide), ← hen]
    refine ⟨?_, fun he => by rw [if_pos he]; rfl, fun he => by rw [if_neg (by simp [he])]⟩
    rw [hen, Bool.and_eq_true, decide_eq_true_eq, get_TXE_eq_one]
  · by_contra hne
    rw [step_txe_zero hp hs hne h0] at h1
    exact absurd h1 (by decide)

/-- Settles O26: the enabling condition is the poll that the hold makes; RXNE rises in no other move. -/
theorem receiveHoldsUntilFull : Obligations.ReceiveHoldsUntilFull := by
  refine ⟨fun s a h hp ht hlt hq hh => ?_, fun s t i hp hs h0 h1 => ?_⟩
  · have hen := seqEnabled_rxHold hp hlt hq hh
    rw [← seqStep_eq_exec_receive (activeSeq_eq_some.mpr ⟨ht, hlt⟩) (.inl hq) h, seqStep_rxHold hq,
      holdUntil_eq hp hh (by decide), ← hen]
    refine ⟨?_, fun he => by rw [if_pos he]; rfl, fun he => by rw [if_neg (by simp [he])]⟩
    rw [hen, Bool.and_eq_true, decide_eq_true_eq, get_RXNE_eq_one]
  · by_contra hne
    rw [step_rxne_zero hp hs hne h0] at h1
    exact absurd h1 (by decide)

/-! ## The access of DR -/

/-- Bits placed in a register word and taken out again (20_memory R63). -/
theorem setWidth_place_take {n : Nat} (x : BitVec n) {p w : Nat} (h : p + w ≤ 32) :
    ((x.setWidth 32 <<< p) >>> p).setWidth w = x.setWidth w := by
  apply BitVec.eq_of_getLsbD_eq
  intro k hk
  have hlt : p + k < 32 := by omega
  have hk32 : k < 32 := by omega
  simp [hk, hlt, hk32]

/-- `{0, TXB}` (42_transfer R162). -/
theorem setWidth_byte (x : Byte) : x.setWidth 9 = (0#1 ++ x : BitVec 9) := by
  apply BitVec.eq_of_toNat_eq
  have hx := x.isLt
  have happend : (0#1 ++ x : BitVec 9).toNat = x.toNat := (BitVec.toNat_append 0#1 x).trans (by simp)
  rw [BitVec.toNat_setWidth, happend, Nat.mod_eq_of_lt (by omega)]

theorem txWrite_eq {s : State} (hp : s.par.wf = true) {a : Nat} (hh : (s.seq a).H.toNat < s.par.nInst) :
    txWrite a s = .next ((if s.par.clocked (s.seq a).H.toNat then
        s.modRb (s.seq a).H.toNat fun b => b.dataWrite (0#1 ++ (s.seq a).TXB : BitVec 9)
      else s).modSeq a Seq.complete) := by
  unfold txWrite
  by_cases hc : s.par.clocked (s.seq a).H.toNat = true
  · rw [regWrite_dr hp hh hc, setWidth_place_take _ (Layout.dr_fits (Params.layout_wf hp)), setWidth_byte, if_pos hc]
    rfl
  · rw [(access_of_unclocked hp hh (Bool.eq_false_iff.mpr hc) _ _).2, if_neg hc]
    rfl

/-- Settles O25: the byte lies at DR's place in the word written. -/
theorem transmitWritesDataRegister : Obligations.TransmitWritesDataRegister := fun s a h byte hp ht hlt hq hh => by
  rw [← seqStep_eq_exec_transmit (activeSeq_eq_some.mpr ⟨ht, hlt⟩) (.inr hq) h byte, seqStep, hq]
  exact txWrite_eq hp hh

/-- A DR read of an unwritten RDR returns the free value at the count of draws (70_reset_and_hazards R231). -/
theorem regRead_dr_unwritten {s : State} (hp : s.par.wf = true) {h : BitVec 2} (hh : h.toNat < s.par.nInst)
    (hc : s.par.clocked h.toNat = true) (hn : (s.uart h.toNat).rb.RDR = none) :
    regRead h .dr s = .next ((Config.drawRDR s.draws).setWidth 32 <<< s.par.layout.drPos,
      (s.modRb h.toNat RegBlock.dataRead).useDraw) := by
  rw [regRead_eq hp hh, if_pos hc]
  simp [readReg, readWord, hn]

/-- RxRead takes the byte from DR's place in the word read (42_transfer R167). -/
theorem rxRead_of_regRead {s t : State} {a : Nat} {v : Word32} (hr : regRead (s.seq a).H .dr s = .next (v, t)) :
    rxRead a s = .next (t.modSeq a fun q =>
      (q.append (.byte ((v >>> s.par.layout.drPos).setWidth 8))).complete) := by
  rw [rxRead, hr]
  rfl

/-- The read of a written RDR ends the RECEIVE with its low 8 bits (42_transfer R167). -/
theorem rxRead_of_written {s : State} (hp : s.par.wf = true) {a : Nat} (hh : (s.seq a).H.toNat < s.par.nInst)
    (hc : s.par.clocked (s.seq a).H.toNat = true) {v : BitVec 9} (hv : (s.uart (s.seq a).H.toNat).rb.RDR = some v) :
    rxRead a s = .next ((s.modRb (s.seq a).H.toNat RegBlock.dataRead).modSeq a fun q =>
      (q.append (.byte (v.extractLsb' 0 8))).complete) := by
  have hfit : s.par.layout.drPos + 8 ≤ 32 := (Nat.le_succ _).trans (Layout.dr_fits (Params.layout_wf hp))
  rw [rxRead_of_regRead (regRead_dr hp hh hc hv), setWidth_place_take _ hfit]
  rfl

/-- Settles O27: what DR reads as decides; an unwritten RDR uses a draw. -/
theorem receiveReadsDataRegister : Obligations.ReceiveReadsDataRegister := fun s a h hp ht hlt hq hh => by
  rw [← seqStep_eq_exec_receive (activeSeq_eq_some.mpr ⟨ht, hlt⟩) (.inr hq) h, seqStep, hq]
  refine ⟨fun v hc hv => rxRead_of_written hp hh hc hv, fun hc hn => ?_, fun hc => ?_⟩
  · exact ⟨_, s.draws + 1, rxRead_of_regRead (regRead_dr_unwritten hp hh hc hn)⟩
  · have hzero : ((0 : Word32) >>> s.par.layout.drPos).setWidth 8 = 0 := by simp
    exact (rxRead_of_regRead (access_of_unclocked hp hh hc .dr 0).1).trans (by rw [hzero]; rfl)

end Sys2Proof.Machine
end

section
/-! PROOFS. What a frame holds: its data bits, its parity bit and its mode (42_transfer R183, R182). -/

namespace Sys2Proof.Machine

/-! ## Counting ones -/

/-- The count of the low `n` bits depends on those bits only. -/
theorem popcount_congr {n x y : Nat} (h : ∀ k < n, x.testBit k = y.testBit k) : popcount n x = popcount n y := by
  induction n with
  | zero => rfl
  | succ n ih => rw [popcount, popcount, ih fun k hk => h k (by omega), h n (by omega)]

/-- Bits above a number's length count nothing. -/
theorem popcount_of_lt {m n x : Nat} (hmn : m ≤ n) (hx : x < 2 ^ m) : popcount n x = popcount m x := by
  induction n, hmn using Nat.le_induction with
  | base => rfl
  | succ n hmn ih =>
    have hlt : x < 2 ^ n := hx.trans_le (Nat.pow_le_pow_right (by decide) hmn)
    rw [popcount, ih, Nat.testBit_lt_two_pow hlt]
    rfl

/-- A bit on top of `m` bits counts beside them. -/
theorem popcount_top_bit {m p d : Nat} (hp : p < 2) (hd : d < 2 ^ m) :
    popcount (m + 1) (p * 2 ^ m + d) = popcount m d + p := by
  have hbit : ∀ k, (p * 2 ^ m + d).testBit k = if k < m then d.testBit k else p.testBit (k - m) := fun k => by
    rw [Nat.mul_comm, Nat.testBit_two_pow_mul_add p hd]
  have htop : ((p * 2 ^ m + d).testBit m).toNat = p := by
    rw [hbit, if_neg (lt_irrefl m), Nat.sub_self]
    interval_cases p <;> rfl
  have hlow : popcount m (p * 2 ^ m + d) = popcount m d := popcount_congr fun k hk => by rw [hbit, if_pos hk]
  rw [popcount, htop, hlow]

theorem parityBit_lt (n d : Nat) (ps : BitVec 1) : parityBit n d ps < 2 := Nat.mod_lt _ (by decide)

/-- With its parity bit a word has an even number of ones for PS = 0, an odd one for PS = 1 (42_transfer R183). -/
theorem popcount_with_parityBit {m d : Nat} (hd : d < 2 ^ m) (ps : BitVec 1) :
    popcount (m + 1) (parityBit m d ps * 2 ^ m + d) % 2 = ps.toNat := by
  have hps := ps.isLt
  rw [popcount_top_bit (parityBit_lt _ _ _) hd, parityBit]
  omega

/-! ## The line word -/

theorem Format.nbits_eq (fmt : Format) : fmt.nbits = 8 + fmt.M.toNat := rfl

theorem getLsbD_frameWord_of_no_parity {fmt : Format} (h : fmt.PCE = 0) (v : BitVec 9) (b : Nat) :
    (frameWord v fmt).getLsbD b = (v.getLsbD b && decide (b < fmt.nbits)) := by
  rw [frameWord, if_pos h, BitVec.getLsbD_ofNat, Nat.testBit_mod_two_pow]
  by_cases hb : b < 9
  · simp [hb, BitVec.getLsbD, Bool.and_comm]
  · simp [hb, BitVec.getLsbD_of_ge v b (by omega)]

/-- The data bits of a frame with parity: `v[L-2:0]` (42_transfer R183). -/
def Format.data (fmt : Format) (v : BitVec 9) : Nat := v.toNat % 2 ^ (7 + fmt.M.toNat)

theorem Format.data_lt (fmt : Format) (v : BitVec 9) : fmt.data v < 2 ^ (7 + fmt.M.toNat) :=
  Nat.mod_lt _ (Nat.two_pow_pos _)

theorem Format.data_top_lt (fmt : Format) (v : BitVec 9) {p : Nat} (hp : p < 2) :
    p * 2 ^ (7 + fmt.M.toNat) + fmt.data v < 2 ^ (8 + fmt.M.toNat) := by
  have hd := fmt.data_lt v
  have hpow : 2 ^ (8 + fmt.M.toNat) = 2 * 2 ^ (7 + fmt.M.toNat) := by
    rw [show 8 + fmt.M.toNat = 7 + fmt.M.toNat + 1 by omega, Nat.pow_succ, Nat.mul_comm]
  rw [hpow]
  interval_cases p <;> omega

section
variable {fmt : Format} (h : fmt.PCE = 1) (v : BitVec 9)
include h

/-- With parity the line word is the parity bit on top of the data bits (42_transfer R183). -/
theorem toNat_frameWord_of_parity : (frameWord v fmt).toNat =
    parityBit (7 + fmt.M.toNat) (fmt.data v) fmt.PS * 2 ^ (7 + fmt.M.toNat) + fmt.data v := by
  have hlen : fmt.nbits - 1 = 7 + fmt.M.toNat := by
    rw [Format.nbits_eq]
    omega
  have hlt := fmt.data_top_lt v (parityBit_lt (7 + fmt.M.toNat) (fmt.data v) fmt.PS)
  have hM := fmt.M.isLt
  have h9 : 2 ^ (8 + fmt.M.toNat) ≤ 2 ^ 9 := Nat.pow_le_pow_right (by decide) (by omega)
  rw [frameWord, if_neg (by rw [h]; decide), hlen, BitVec.toNat_ofNat]
  exact Nat.mod_eq_of_lt (hlt.trans_le h9)

theorem getLsbD_frameWord_of_parity {b : Nat} (hb : b < 7 + fmt.M.toNat) :
    (frameWord v fmt).getLsbD b = v.getLsbD b := by
  rw [BitVec.getLsbD, toNat_frameWord_of_parity h, Nat.mul_comm, Nat.testBit_two_pow_mul_add _ (fmt.data_lt v),
    if_pos hb, Format.data, Nat.testBit_mod_two_pow, decide_eq_true hb, Bool.true_and]
  rfl

theorem frameWord_lt_of_parity : (frameWord v fmt).toNat < 2 ^ (8 + fmt.M.toNat) := by
  rw [toNat_frameWord_of_parity h]
  exact fmt.data_top_lt v (parityBit_lt _ _ _)

theorem popcount_frameWord_of_parity : popcount 9 (frameWord v fmt).toNat % 2 = fmt.PS.toNat := by
  have hM := fmt.M.isLt
  rw [popcount_of_lt (m := 7 + fmt.M.toNat + 1) (by omega)
    ((frameWord_lt_of_parity h v).trans_eq (by rw [show 8 + fmt.M.toNat = 7 + fmt.M.toNat + 1 by omega])),
    toNat_frameWord_of_parity h]
  exact popcount_with_parityBit (fmt.data_lt v) fmt.PS

end

/-! ## The frame -/

theorem parityOf_iff : ∀ pce ps : BitVec 1,
    (parityOf pce ps = .off ↔ pce = 0) ∧ (parityOf pce ps = .even ↔ pce = 1 ∧ ps = 0) ∧
      (parityOf pce ps = .odd ↔ pce = 1 ∧ ps = 1) := by decide

/-- Settles O31: the parity bit is the sum of the data bits and PS modulo 2, so the sum with it is PS. -/
theorem frameContents : Obligations.FrameContents := fun v fmt => by
  refine ⟨fun h b => getLsbD_frameWord_of_no_parity h v b, fun h => ⟨fun b hb => getLsbD_frameWord_of_parity h v hb,
    fun b hb => ?_, popcount_frameWord_of_parity h v⟩, _, rfl, rfl, parityOf_iff _ _⟩
  exact Nat.testBit_lt_two_pow ((frameWord_lt_of_parity h v).trans_le (Nat.pow_le_pow_right (by decide) hb))

end Sys2Proof.Machine
end

section
/-! PROOFS. The corrupt mark of a frame in flight (42_transfer R184). -/

namespace Sys2Proof.Machine

/-- A control write on its own UART: the fields, and the mark where the register is one that marks
(20_memory R68, 42_transfer R184). -/
theorem writeControl_uart {s : State} {i : Nat} (hi : i < s.uarts.length) (r : Reg) (m : Bool) (v : Word32) :
    (writeControl i r m v s).uart i = { s.uart i with
      rb := writeFields s.par.layout (s.uart i).rb r v
      sh := if m then (s.uart i).sh.mark (writeFields s.par.layout (s.uart i).rb r v).format else (s.uart i).sh } := by
  rw [writeControl, State.uart_modUart_self hi]
  cases m with
  | false => rfl
  | true => exact Uart.markCorrupt_eq _

theorem format_eq_iff (b : RegBlock) (fmt : Format) :
    (b.M, b.PCE, b.PS, b.STOP, b.BRR) = (fmt.M, fmt.PCE, fmt.PS, fmt.STOP, fmt.BRR) ↔ b.format = fmt := by
  cases fmt
  simp [RegBlock.format]

/-- Settles O32: a control write compares the new fields with the frame's format only where the register marks. -/
theorem corruptMark : Obligations.CorruptMark := by
  refine ⟨fun s t h r x v fmt c hw hh hc hb ht => ?_, fun s i v fmt hw hc hb => ?_⟩
  · have hi : h.toNat < s.uarts.length := hw.uarts ▸ hh
    rw [regWrite_eq hw.params hh, if_pos hc] at ht
    obtain ⟨rfl, rfl⟩ | ⟨hdr, -, rfl⟩ := writeReg_cases ht
    · rw [State.uart_modRb_eq, if_pos ⟨rfl, hi⟩]
      exact ⟨fun hr => by simp at hr, fun _ => rfl, fun hr => absurd rfl hr⟩
    · rw [writeControl_uart hi]
      refine ⟨fun hr => ?_, fun hr => if_neg ?_, fun _ => writeFields_TDR _ _ _ _⟩
      · have hmark : decide (r = .brr ∨ r = .cr1 ∨ r = .cr2) = true := by simpa using hr
        simp only [hmark, if_true, hb, Shift.mark_busy, ne_eq, format_eq_iff]
      · have hmem : r = .cr3 ∨ r = .gtpr := by simpa [hdr] using hr
        obtain rfl | rfl := hmem <;> decide
  · have hi : i < s.uarts.length := hw.uarts ▸ Params.lt_of_clocked hc
    rw [txFinish_of_busy hc hb, State.uart_useDraw, State.uart_modUart_self hi]
    rfl

end Sys2Proof.Machine
end

section
/-! PROOFS. One round over a loopback: a TRANSMIT, the three moves that bring its frame over, and a RECEIVE, with no
other step between them (42_transfer R188). -/

namespace Sys2Proof.Machine

/-! ## Runs of a schedule -/

/-- `n` steps lead from `s` to `t`, where the schedule is at its entry `n`. -/
structure SchedRun (n : Nat) (s t : State) : Prop where
  run : Host.Core.run Sys2Proof.core n s = .next t
  par : t.par = s.par
  progs : t.progs = s.progs
  turn : ∀ m, s.sched[n - 1]? = some m → t.turn = m
  sched : t.sched = s.sched.drop n

theorem runTurn_sched {s t : State} (h : runTurn s = .next t) : t.sched = s.sched := by
  obtain ⟨a, ha, hs⟩ | ⟨a, -, -, rfl⟩ | ⟨i, -, rfl⟩ | ⟨i, -, rfl⟩ | ⟨i, -, rfl⟩ | ⟨i, -, rfl⟩ := runTurn_cases h
  · exact (seqStep_frame ha hs).sched
  · rfl
  · exact (txLoad_frame i s).sched
  · exact (txFinish_frame i s).sched
  · exact (rxFrame_frame i s).sched
  · exact (lineFlags_frame i s).sched

/-- One step is a run of the schedule's next entry. -/
theorem SchedRun.of_step {s t : State} (h : step s = .next t) : SchedRun 1 s t where
  run := run_of_step h 0
  par := (step_par_progs h).1
  progs := (step_par_progs h).2
  turn m hm := by
    obtain ⟨u, hu, rfl⟩ := step_eq_next.mp h
    obtain ⟨ms, hs⟩ := List.head?_eq_some_iff.mp (List.head?_eq_getElem?.trans hm)
    exact (nextTurn_of_sched ((runTurn_sched hu).trans hs)).1
  sched := by
    obtain ⟨u, hu, rfl⟩ := step_eq_next.mp h
    rw [nextTurn_sched, runTurn_sched hu, List.drop_one]

theorem run_add {m : Nat} {s t : State} (h : Host.Core.run Sys2Proof.core m s = .next t) (n : Nat) :
    Host.Core.run Sys2Proof.core (m + n) s = Host.Core.run Sys2Proof.core n t := by
  induction m generalizing s with
  | zero =>
    cases h
    rw [Nat.zero_add]
  | succ m ih =>
    obtain ⟨u, hu, hr⟩ := run_succ h
    rw [show m + 1 + n = m + n + 1 by omega, run_of_step hu, ih hr]

/-- One run after another. -/
theorem SchedRun.trans {m n : Nat} (hn : 0 < n) {s t u : State} (h : SchedRun m s t) (h' : SchedRun n t u) :
    SchedRun (m + n) s u where
  run := (run_add h.run n).trans h'.run
  par := h'.par.trans h.par
  progs := h'.progs.trans h.progs
  turn x hx := h'.turn x (by rw [h.sched, List.getElem?_drop, ← Nat.add_sub_assoc hn]; exact hx)
  sched := by rw [h'.sched, h.sched, List.drop_drop]

/-! ## An agent's steps in a schedule -/

/-- In the run agent `a` becomes `q` and the UARTs become `us`. -/
structure AgentRun (n a : Nat) (q : Seq) (us : List Uart) (s t : State) : Prop extends SchedRun n s t where
  seq : t.seq a = q
  uarts : t.uarts = us

theorem AgentRun.trans {m n a : Nat} (hn : 0 < n) {q q' : Seq} {us us' : List Uart} {s t u : State}
    (h : AgentRun m a q us s t) (h' : AgentRun n a q' us' t u) : AgentRun (m + n) a q' us' s u :=
  { h.toSchedRun.trans hn h'.toSchedRun with seq := h'.seq, uarts := h'.uarts }

theorem AgentRun.of_seqStep {s u : State} {a : Nat} {f : Seq → Seq} (ha : activeSeq s = some a) (hu : BusFrame s u)
    (h : seqStep a s = .next (u.modSeq a f)) :
    AgentRun 1 a (f (s.seq a)) u.uarts s (nextTurn (u.modSeq a f)) :=
  have ⟨ht, hlt⟩ := activeSeq_eq_some.mp ha
  { SchedRun.of_step (t := nextTurn (u.modSeq a f)) (by rw [step_of_agent ht hlt, h]; rfl) with
    seq := by rw [seq_nextTurn, hu.seq_modSeq hlt]
    uarts := by rw [nextTurn_uarts, State.modSeq_uarts] }

theorem AgentRun.uart {n a : Nat} {q : Seq} {r s t : State} (h : AgentRun n a q r.uarts s t) (i : Nat) :
    t.uart i = r.uart i := by
  simp only [State.uart, h.uarts]

/-- A run leaves an agent its turn if the schedule says so. -/
theorem SchedRun.activeSeq {n a : Nat} {s t : State} (h : SchedRun n s t) (hw : s.Wf) (ha : a < s.seqs.length)
    (hs : s.sched[n - 1]? = some (Move.seq a)) : activeSeq t = some a :=
  activeSeq_eq_some.mpr ⟨h.turn _ hs, by rwa [(run_wf hw h.run).agents, h.par, ← hw.agents]⟩

theorem State.modRb_busFrame (s : State) (i : Nat) (f : RegBlock → RegBlock) : BusFrame s (s.modRb i f) :=
  ⟨rfl, rfl, rfl, rfl, rfl, rfl, State.modRb_length s i f⟩

theorem State.modRb_uarts_congr {s t : State} (h : t.uarts = s.uarts) (i : Nat) (f : RegBlock → RegBlock) :
    (t.modRb i f).uarts = (s.modRb i f).uarts := by
  simp only [State.modRb, State.modUart, State.uart, h]

section
variable {s : State} {a : Nat} (hp : s.par.wf = true) (ha : activeSeq s = some a)
include ha

/-- The acceptance of a command that passes the checks (10_state R30). -/
theorem step_accept {i : Instr} (hq : (s.seq a).phase = .idle) (hf : fetch a s = some (encode i))
    (hc : acceptFault s.par i = .ok) :
    ∃ t, AgentRun 1 a (enterOf s.par i { s.seq a with CMD := encode i, H := i.handle }) s.uarts s t := by
  refine ⟨_, .of_seqStep (f := fun q => enterOf s.par i { q with CMD := encode i, H := i.handle }) ha .rfl ?_⟩
  rw [seqStep_of_fetch hq hf, acceptWord, decode_encode]
  exact exec_idle_of_ok ha hq hc

variable (hc : s.par.clocked (s.seq a).H.toNat = true)
include hp hc

/-- The hold of a TRANSMIT ends at TXE = 1 (42_transfer R161). -/
theorem step_txHold (hq : (s.seq a).phase = .txHold) (hx : (s.uart (s.seq a).H.toNat).rb.TXE = 1) :
    ∃ t, AgentRun 1 a { s.seq a with phase := .txWrite } s.uarts s t := by
  refine ⟨_, .of_seqStep (f := fun q => { q with phase := .txWrite }) ha .rfl ?_⟩
  rw [seqStep_txHold hq, holdUntil_eq hp (Params.lt_of_clocked hc) (by decide), if_pos]
  rw [hc, Bool.true_and, decide_eq_true_eq, get_TXE_eq_one, hx]

/-- The hold of a RECEIVE ends at RXNE = 1 (42_transfer R166). -/
theorem step_rxHold (hq : (s.seq a).phase = .rxHold) (hx : (s.uart (s.seq a).H.toNat).rb.RXNE = 1) :
    ∃ t, AgentRun 1 a { s.seq a with phase := .rxRead } s.uarts s t := by
  refine ⟨_, .of_seqStep (f := fun q => { q with phase := .rxRead }) ha .rfl ?_⟩
  rw [seqStep_rxHold hq, holdUntil_eq hp (Params.lt_of_clocked hc) (by decide), if_pos]
  rw [hc, Bool.true_and, decide_eq_true_eq, get_RXNE_eq_one, hx]

/-- The DR write of a TRANSMIT (42_transfer R162). -/
theorem step_txWrite (hq : (s.seq a).phase = .txWrite) :
    ∃ t, AgentRun 1 a (s.seq a).complete
      (s.modRb (s.seq a).H.toNat fun b => b.dataWrite (0#1 ++ (s.seq a).TXB : BitVec 9)).uarts s t := by
  refine ⟨_, .of_seqStep ha (s.modRb_busFrame _ _) ?_⟩
  rw [seqStep, hq]
  exact (txWrite_eq hp (Params.lt_of_clocked hc)).trans (by rw [if_pos hc])

/-- The DR read of a RECEIVE (42_transfer R167). -/
theorem step_rxRead (hq : (s.seq a).phase = .rxRead) {v : BitVec 9}
    (hv : (s.uart (s.seq a).H.toNat).rb.RDR = some v) :
    ∃ t, AgentRun 1 a ((s.seq a).append (.byte (v.extractLsb' 0 8))).complete
      (s.modRb (s.seq a).H.toNat RegBlock.dataRead).uarts s t := by
  refine ⟨_, .of_seqStep (f := fun q => (q.append (.byte (v.extractLsb' 0 8))).complete) ha
    (s.modRb_busFrame _ _) ?_⟩
  rw [seqStep, hq]
  exact rxRead_of_written hp (Params.lt_of_clocked hc) hc hv

end

/-! ## The two commands -/

section
variable {s : State} {a : Nat} {h : BitVec 2} (hw : s.Wf) (ha : activeSeq s = some a)
  (hq : (s.seq a).phase = .idle) (hc : s.par.clocked h.toNat = true)
  (h0 : s.sched[0]? = some (Move.seq a)) (h1 : s.sched[1]? = some (Move.seq a))
include hw ha hq hc h0 h1

/-- A TRANSMIT to an empty holding register takes three steps (42_transfer R160 to R162). -/
theorem run_transmit {byte : Byte} (hf : fetch a s = some (encode (.transmit h byte)))
    (hx : (s.uart h.toNat).rb.TXE = 1) :
    ∃ t, AgentRun 3 a
      { s.seq a with
        CMD := encode (.transmit h byte), H := h, TXB := byte, phase := .idle, next := (s.seq a).next + 1 }
      (s.modRb h.toNat fun b => b.dataWrite (0#1 ++ byte : BitVec 9)).uarts s t := by
  have hlt := (activeSeq_eq_some.mp ha).2
  obtain ⟨u, hu⟩ := step_accept ha hq hf (acceptFault_transmit (Params.lt_of_clocked hc) byte)
  have huH : (u.seq a).H = h := by rw [hu.seq]; rfl
  obtain ⟨v, hv⟩ := step_txHold (hu.par ▸ hw.params) (hu.activeSeq hw hlt h0) (by rwa [huH, hu.par])
    (by rw [hu.seq]; rfl) (by rwa [huH, hu.uart])
  rw [hu.seq, hu.uarts] at hv
  have hv := hu.trans one_pos hv
  have hvH : (v.seq a).H = h := by rw [hv.seq]; rfl
  obtain ⟨t, ht⟩ := step_txWrite (hv.par ▸ hw.params) (hv.activeSeq hw hlt h1) (by rwa [hvH, hv.par])
    (by rw [hv.seq])
  rw [hv.seq, State.modRb_uarts_congr hv.uarts] at ht
  exact ⟨t, hv.trans one_pos ht⟩

/-- A RECEIVE of a byte that has arrived takes three steps (42_transfer R165 to R167). -/
theorem run_receive {x : BitVec 9} (hf : fetch a s = some (encode (.receive h)))
    (hx : (s.uart h.toNat).rb.RXNE = 1) (hr : (s.uart h.toNat).rb.RDR = some x) :
    ∃ t, AgentRun 3 a
      { s.seq a with
        CMD := encode (.receive h), H := h, phase := .idle, next := (s.seq a).next + 1
        RES := (s.seq a).RES ++ [.byte (x.extractLsb' 0 8)] }
      (s.modRb h.toNat RegBlock.dataRead).uarts s t := by
  have hlt := (activeSeq_eq_some.mp ha).2
  obtain ⟨u, hu⟩ := step_accept ha hq hf (acceptFault_receive (Params.lt_of_clocked hc))
  have huH : (u.seq a).H = h := by rw [hu.seq]; rfl
  obtain ⟨v, hv⟩ := step_rxHold (hu.par ▸ hw.params) (hu.activeSeq hw hlt h0) (by rwa [huH, hu.par])
    (by rw [hu.seq]; rfl) (by rwa [huH, hu.uart])
  rw [hu.seq, hu.uarts] at hv
  have hv := hu.trans one_pos hv
  have hvH : (v.seq a).H = h := by rw [hv.seq]; rfl
  obtain ⟨t, ht⟩ := step_rxRead (hv.par ▸ hw.params) (hv.activeSeq hw hlt h1) (by rwa [hvH, hv.par])
    (by rw [hv.seq]) (by rwa [hvH, hv.uart])
  rw [hv.seq, State.modRb_uarts_congr hv.uarts] at ht
  exact ⟨t, hv.trans one_pos ht⟩

end

/-! ## The frame's way -/

/-- The UART is enabled to receive and empty, has taken `n` frames of its source, and expects format `fmt`. -/
def Uart.Awaits (fmt : Format) (n : Nat) (u : Uart) : Prop :=
  u.rb.UE = 1 ∧ u.rb.RE = 1 ∧ u.rb.RXNE = 0 ∧ u.rxcur = n ∧ u.rb.format = fmt

theorem Uart.awaits_txFinished (fmt : Format) (n : Nat) (u : Uart) (w : List WireEntry) :
    Uart.Awaits fmt n { u with wire := w, sh := .idle, rb := u.rb.txFinished } = u.Awaits fmt n := by
  simp only [Uart.Awaits, RegBlock.txFinished]
  split <;> rfl

/-- What TxLoad and then TxFinish add to the wire: the frame of the byte in TDR (42_transfer R180, R181). -/
theorem wire_of_txLoad_txFinish {s u : State} {i : Nat} (hi : i < s.uarts.length) (hen : txLoadEnabled i s = true)
    {x : BitVec 9} (hx : (s.uart i).rb.TDR = some x) (hu : u = nextTurn (txLoad i s)) :
    ((txFinish i u).uart i).wire = (s.uart i).wire ++ [frame x (s.uart i).rb.format] := by
  have hload : u.uart i =
      { s.uart i with sh := .busy (some x) (s.uart i).rb.format false, rb := (s.uart i).rb.txLoaded } := by
    rw [hu, uart_nextTurn, txLoad_of_enabled hen, State.uart_modUart_self hi, hx]
  have hc : u.par.clocked i = true := by
    rw [hu, nextTurn_par, (txLoad_frame i s).par]
    exact (txLoadEnabled_iff.mp hen).1
  have hlen : i < u.uarts.length := by rwa [hu, nextTurn_uarts, (txLoad_frame i s).uarts]
  rw [txFinish_of_busy hc (by rw [hload]), State.uart_useDraw, State.uart_modUart_self hlen, hload]
  rfl

/-- RxFrame of an awaited frame puts its word into RDR (42_transfer R182). -/
theorem rxFrame_of_awaited {s : State} {i j : Nat} (hj : j < s.uarts.length) (hc : s.par.clocked j = true)
    (hsrc : s.par.rxSource j = .loopback i) {fmt : Format} {w : List WireEntry} (haw : (s.uart j).Awaits fmt w.length)
    {x : BitVec 9} (hwire : (s.uart i).wire = w ++ [frame x fmt]) :
    ((rxFrame j s).uart j).rb.RXNE = 1 ∧ ((rxFrame j s).uart j).rb.RDR = some (frameWord x fmt) := by
  obtain ⟨hUE, hRE, hRXNE, hcur, rfl⟩ := haw
  have havail : frameAvailable j s = true :=
    frameAvailable_iff.mpr (.inr ⟨i, hsrc, by rw [hcur, hwire, List.length_append]; exact Nat.lt_succ_self _⟩)
  obtain ⟨y, fe, pe, harr, hrx⟩ := rxFrame_of_enabled (rxFrameEnabled_iff.mpr ⟨hc, hUE, hRE, havail⟩)
  have hnext : nextFrame j s = some (frame x (s.uart j).rb.format) := by
    rw [nextFrame_of_loopback hsrc, hcur, hwire, List.getElem?_concat_length]
  have hword := arrival_of_matching s.draws (s.uart j).rb (frameWord x (s.uart j).rb.format)
  rw [hnext] at harr
  cases hword.symm.trans harr
  rw [hrx, State.uart_useDraw, State.uart_modUart_self hj, RegBlock.received, if_pos hRXNE]
  exact ⟨rfl, rfl⟩

/-- The three moves bring a byte from TDR of UART `i` to RDR of UART `j`, which loops back from `i`
(42_transfer R180 to R182). -/
theorem run_moves {s : State} (hlen : s.uarts.length = s.par.nInst) {i j : Nat} (ht : s.turn = .txLoad i)
    (h0 : s.sched[0]? = some (Move.txFinish i)) (h1 : s.sched[1]? = some (Move.rxFrame j)) {x : BitVec 9}
    (hen : txLoadEnabled i s = true) (hx : (s.uart i).rb.TDR = some x) (hc : s.par.clocked j = true)
    (hsrc : s.par.rxSource j = .loopback i)
    (haw : (s.uart j).Awaits (s.uart i).rb.format (s.uart i).wire.length) :
    ∃ t, SchedRun 3 s t ∧ t.seqs = s.seqs ∧ (t.uart j).rb.RXNE = 1 ∧
      (t.uart j).rb.RDR = some (frameWord x (s.uart i).rb.format) := by
  have hload := SchedRun.of_step (step_of_txLoad ht)
  have hfinish := hload.trans one_pos (.of_step (step_of_txFinish (hload.turn _ h0)))
  have hrx := hfinish.trans one_pos (.of_step (step_of_rxFrame (hfinish.turn _ h1)))
  have hi : i < s.uarts.length := hlen ▸ Params.lt_of_clocked (txLoadEnabled_iff.mp hen).1
  have hj : j < s.uarts.length := hlen ▸ Params.lt_of_clocked hc
  have hawaits : ((nextTurn (txFinish i (nextTurn (txLoad i s)))).uart j).Awaits (s.uart i).rb.format
      (s.uart i).wire.length := by
    rw [uart_nextTurn, txFinish_keeps _ (Uart.awaits_txFinished _ _), uart_nextTurn,
      txLoad_keeps (Uart.Awaits _ _) fun _ _ _ _ => rfl]
    exact haw
  have hdeliver := rxFrame_of_awaited (by simpa [(txFinish_frame _ _).uarts, (txLoad_frame _ _).uarts] using hj)
    (hfinish.par ▸ hc) (hfinish.par ▸ hsrc) hawaits
    ((congrArg Uart.wire (uart_nextTurn _ i)).trans (wire_of_txLoad_txFinish hi hen hx rfl))
  refine ⟨_, hrx, ?_, by rwa [uart_nextTurn]⟩
  simp only [nextTurn_seqs, (rxFrame_frame _ _).seqs, (txFinish_frame _ _).seqs, (txLoad_frame _ _).seqs]

/-! ## The round -/

theorem fetch_of_next {s t : State} {a n : Nat} (hp : t.progs = s.progs) (hn : (t.seq a).next = n) :
    fetch a t = (s.prog a)[n]? := by
  rw [fetch, hn, State.prog, State.prog, hp]

/-- UART `j` loops back from UART `i`, which can send at once, and `j` awaits the next frame of `i`'s format. -/
structure LoopbackReady (i j : Nat) (s : State) : Prop where
  sender : s.par.clocked i = true
  receiver : s.par.clocked j = true
  source : s.par.rxSource j = .loopback i
  UE : (s.uart i).rb.UE = 1
  TE : (s.uart i).rb.TE = 1
  TXE : (s.uart i).rb.TXE = 1
  idle : (s.uart i).sh = .idle
  awaits : (s.uart j).Awaits (s.uart i).rb.format (s.uart i).wire.length

/-- After six steps the TRANSMIT is complete and its byte has arrived at the receiver. -/
theorem run_transmit_moves {s : State} {a : Nat} {h : BitVec 2} {j : Nat} {byte : Byte} {ms : List Move} (hw : s.Wf)
    (ha : activeSeq s = some a) (hq : (s.seq a).phase = .idle)
    (hs : s.sched = .seq a :: .seq a :: .txLoad h.toNat :: .txFinish h.toNat :: .rxFrame j :: ms)
    (hf : fetch a s = some (encode (.transmit h byte))) (hr : LoopbackReady h.toNat j s) :
    ∃ t, SchedRun 6 s t ∧
      t.seq a = { s.seq a with
        CMD := encode (.transmit h byte), H := h, TXB := byte, phase := .idle, next := (s.seq a).next + 1 } ∧
      (t.uart j).rb.RXNE = 1 ∧
      (t.uart j).rb.RDR = some (frameWord (0#1 ++ byte : BitVec 9) (s.uart h.toNat).rb.format) := by
  have hi : h.toNat < s.uarts.length := hw.uarts ▸ Params.lt_of_clocked hr.sender
  obtain ⟨t, ht⟩ := run_transmit hw ha hq hr.sender (by rw [hs]; rfl) (by rw [hs]; rfl) hf hr.TXE
  have hsched : t.sched = .txFinish h.toNat :: .rxFrame j :: ms := by
    rw [ht.sched, hs]
    rfl
  have huart : t.uart h.toNat =
      { s.uart h.toNat with rb := (s.uart h.toNat).rb.dataWrite (0#1 ++ byte : BitVec 9) } := by
    rw [ht.uart, State.uart_modRb_eq]
    exact if_pos ⟨rfl, hi⟩
  have hen : txLoadEnabled h.toNat t = true := by
    rw [txLoadEnabled_iff, ht.par, huart]
    exact ⟨hr.sender, hr.UE, hr.TE, rfl, hr.idle⟩
  have haw : (t.uart j).Awaits (t.uart h.toNat).rb.format (t.uart h.toNat).wire.length := by
    rw [huart, ht.uart, State.modRb, State.uart_modUart_keeps (Uart.Awaits _ _) rfl]
    exact hr.awaits
  obtain ⟨u, hu, hseqs, hfull, hrdr⟩ := run_moves (run_wf hw ht.run).uarts (ht.turn _ (by rw [hs]; rfl))
    (by rw [hsched]; rfl) (by rw [hsched]; rfl) hen (by rw [huart]; rfl) (ht.par ▸ hr.receiver)
    (ht.par ▸ hr.source) haw
  refine ⟨u, ht.toSchedRun.trans three_pos hu, ?_, hfull, by rw [hrdr, huart]; rfl⟩
  rw [State.seq, hseqs]
  exact ht.seq

/-- Settles O33: after the TRANSMIT and the three moves the RECEIVE finds the byte's line word in RDR. -/
theorem transmittedByteIsReceived : Obligations.TransmittedByteIsReceived :=
  fun s a h g byte hw ha hq hf hf' hc hc' hsrc hUE hTE hTXE hsh hUE' hRE hRXNE hcur hfmt => by
  have hw0 := wf_withSchedule hw (.seq a) [.seq a, .seq a, .txLoad h.toNat, .txFinish h.toNat, .rxFrame g.toNat,
    .seq a, .seq a, .seq a]
  obtain ⟨t, ht, hseq, hfull, hrdr⟩ := run_transmit_moves hw0 (activeSeq_eq_some.mpr ⟨rfl, ha⟩) hq rfl hf
    ⟨hc, hc', hsrc, hUE, hTE, hTXE, hsh, hUE', hRE, hRXNE, hcur, hfmt⟩
  have htw := run_wf hw0 ht.run
  have hct : t.par.clocked g.toNat = true := ht.par ▸ hc'
  have hft := fetch_of_next ht.progs (n := (s.seq a).next + 1) (by rw [hseq]; rfl)
  obtain ⟨u, hu⟩ := run_receive htw (ht.activeSeq hw0 ha rfl) (by rw [hseq]) hct (by rw [ht.sched]; rfl)
    (by rw [ht.sched]; rfl) (hft.trans hf') hfull hrdr
  have hread : (u.uart g.toNat).rb = (t.uart g.toNat).rb.dataRead := by
    rw [hu.uart, State.modRb_rb, if_pos ⟨rfl, htw.uarts ▸ Params.lt_of_clocked hct⟩]
  refine ⟨u, (ht.trans three_pos hu.toSchedRun).run, ?_⟩
  rw [hu.seq, hseq, hread]
  exact ⟨rfl, rfl, rfl, rfl, rfl⟩

end Sys2Proof.Machine
end

section
/-! PROOFS. Acceptance of any word by an idle agent, fault entry, and the agent that has faulted (60_exceptions R201 to
R203). -/

namespace Sys2Proof.Machine

/-! ## The checks on the bits of a word and on the command it decodes to -/

/-- Check 1 of 60_exceptions R201 is the decoder's. -/
theorem acceptanceCode_of_reserved {w : CmdWord} {e : DecodeError} (h : decode w = .error e) (p : Params) :
    acceptanceCode p w = .reserved := by
  unfold decode at h
  split_ifs at h with h0 hr h1 hr h2 hr hr
  · exact if_pos ⟨.inl h0, hr⟩
  · exact (if_neg (by simp [h1])).trans (if_pos ⟨h1, hr⟩)
  · exact (if_neg (by simp [h2])).trans ((if_neg (by simp [h2])).trans (if_pos ⟨h2, hr⟩))
  · exact if_pos ⟨.inr (op_eq_three _ h0 h1 h2), hr⟩

theorem handleOk_eq_false_iff {n : Nat} {i : Instr} : i.handleOk n = false ↔ n ≤ i.handle.toNat := by
  simp [Instr.handleOk]

/-- Bits taken out of bits taken out of a word. -/
theorem extractLsb'_extractLsb' {n m k : Nat} (x : BitVec n) (i j : Nat) (h : j + k ≤ m) :
    (x.extractLsb' i m).extractLsb' j k = x.extractLsb' (i + j) k := by
  ext b hb
  have hm : j + b < m := by omega
  rw [BitVec.getElem_extractLsb', BitVec.getElem_extractLsb', BitVec.getLsbD_extractLsb']
  simp [hm, Nat.add_assoc]

/-- `PAR` in the word of an INITIALIZE (30_encoding R81, R84). -/
theorem parityOk_initLine_eq_false_iff {w : CmdWord} {h : BitVec 2} :
    (Instr.initLine h (w.extractLsb' 4 9)).parityOk = false ↔ w.extractLsb' 6 2 = 3#2 := by
  rw [Instr.parityOk, extractLsb'_extractLsb' _ _ _ (by decide)]
  simp

/-- Checks 2 to 4 of 60_exceptions R201 on the bits of the word are those on the operands. -/
theorem acceptanceCode_of_decode {w : CmdWord} {i : Instr} (h : decode w = .ok i) (p : Params) :
    acceptanceCode p w = acceptFault p i := by
  unfold decode at h
  split_ifs at h with h0 hr h1 hr h2 hr hr <;> cases h
  · simp [acceptanceCode, h0, hr, acceptFault, handleOk_eq_false_iff, Instr.handle]
  · simp [acceptanceCode, h1, hr, acceptFault, handleOk_eq_false_iff, Instr.handle, parityOk_initLine_eq_false_iff,
      divisorOk]
  · simp [acceptanceCode, h2, hr, acceptFault, handleOk_eq_false_iff, Instr.handle]
  · simp [acceptanceCode, op_eq_three _ h0 h1 h2, hr, acceptFault, handleOk_eq_false_iff, Instr.handle]

/-! ## The step that accepts or faults -/

section
variable {s : State} {a : Nat} {w : CmdWord} (ha : activeSeq s = some a) (hp : (s.seq a).phase = .idle)
include ha hp

/-- A word that fails a check faults with the code of the first that fails (60_exceptions R201, R202). -/
theorem acceptWord_of_fault (hc : acceptanceCode s.par w ≠ .ok) :
    acceptWord a w s = .next (raiseFault a w (acceptanceCode s.par w) s) := by
  cases hd : decode w with
  | error e =>
    rw [acceptWord_of_reserved hd, acceptanceCode_of_reserved hd]
  | ok i =>
    rw [acceptanceCode_of_decode hd] at hc ⊢
    rw [acceptWord, hd, ← encode_of_decode hd]
    exact exec_idle_of_fault ha hp hc

/-- A word that passes the checks is latched, its command entered (10_state R30). -/
theorem acceptWord_of_ok (hc : acceptanceCode s.par w = .ok) :
    ∃ i, acceptWord a w s =
      .next (s.modSeq a fun q => enterOf s.par i { q with CMD := w, H := w.extractLsb' 2 2 }) := by
  cases hd : decode w with
  | error e =>
    rw [acceptanceCode_of_reserved hd] at hc
    cases hc
  | ok i =>
    rw [acceptanceCode_of_decode hd] at hc
    refine ⟨i, ?_⟩
    rw [acceptWord, hd, ← encode_of_decode hd, extractLsb'_handle_encode]
    exact exec_idle_of_ok ha hp hc

theorem acceptWord_next (w : CmdWord) : ∃ t, acceptWord a w s = .next t := by
  by_cases hc : acceptanceCode s.par w = .ok
  · obtain ⟨i, h⟩ := acceptWord_of_ok ha hp hc
    exact ⟨_, h⟩
  · exact ⟨_, acceptWord_of_fault ha hp hc⟩

end

/-- Settles O7: the checks on the bits are those that acceptance makes on the decoded command. -/
theorem acceptanceChecksInOrder : Obligations.AcceptanceChecksInOrder := fun s a w ht hlt hp => by
  have ha : activeSeq s = some a := activeSeq_eq_some.mpr ⟨ht, hlt⟩
  refine ⟨fun hc => ⟨_, acceptWord_of_fault ha hp hc, ?_⟩, fun hc => ?_⟩
  · rw [raiseFault, State.seq_modSeq_self hlt]
  · obtain ⟨i, h⟩ := acceptWord_of_ok ha hp hc
    obtain ⟨hC, hH, hF, hne⟩ := enterOf_keeps s.par i { s.seq a with CMD := w, H := w.extractLsb' 2 2 }
    refine ⟨_, h, ?_⟩
    rw [State.seq_modSeq_self hlt]
    exact ⟨hF, hne, hC, hH⟩

/-! ## Past acceptance -/

/-- A step inside a command gives no fault, and a faulted agent's changes nothing (60_exceptions R202, R203). -/
theorem seqStep_keeps_fault {s t : State} {a : Nat} (ha : a < s.seqs.length) (hp : (s.seq a).phase ≠ .idle)
    (h : seqStep a s = .next t) :
    (t.seq a).FAULT = (s.seq a).FAULT ∧ ((t.seq a).phase = .faulted → t = s) := by
  cases hq : (s.seq a).phase with
  | idle => exact absurd hq hp
  | init k r =>
    simp only [seqStep, hq] at h
    obtain ⟨-, -, v, u, hr, rfl⟩ | ⟨v, u, hw, rfl⟩ := initMicro_cases h
    · rw [(regRead_frame hr).seq_modSeq ha]
      exact ⟨rfl, nofun⟩
    · rw [(regWrite_frame hw).seq_modSeq ha, Seq.initAdvance_phase]
      refine ⟨Seq.initAdvance_FAULT _ _, ?_⟩
      split <;> nofun
  | txHold | rxHold =>
    simp only [seqStep, hq] at h
    obtain rfl | ⟨u, hu, rfl⟩ := holdUntil_cases h
    · exact ⟨rfl, fun _ => rfl⟩
    · rw [(pollFlag_frame hu).seq_modSeq ha]
      exact ⟨rfl, nofun⟩
  | txWrite =>
    simp only [seqStep, hq] at h
    obtain ⟨u, hw, rfl⟩ := txWrite_cases h
    rw [(regWrite_frame hw).seq_modSeq ha]
    exact ⟨rfl, nofun⟩
  | rxRead =>
    simp only [seqStep, hq] at h
    obtain ⟨v, u, hr, rfl⟩ := rxRead_cases h
    rw [(regRead_frame hr).seq_modSeq ha]
    exact ⟨rfl, nofun⟩
  | faulted =>
    simp only [seqStep, hq] at h
    cases h
    exact ⟨rfl, fun _ => rfl⟩

/-- Settles O8: the only step that writes `FAULT` is the acceptance of a word, at an idle agent. -/
theorem faultEntryIsPrecise : Obligations.FaultEntryIsPrecise := by
  refine ⟨fun s a w ht hlt hp hc => acceptWord_of_fault (activeSeq_eq_some.mpr ⟨ht, hlt⟩) hp hc,
    fun s t a h hp => ?_⟩
  obtain he | ⟨ha, u, hs, rfl⟩ := step_seq_cases h a
  · rw [he]
    exact ⟨rfl, id⟩
  · obtain ⟨hF, hu⟩ := seqStep_keeps_fault (activeSeq_eq_some.mp ha).2 hp hs
    rw [seq_nextTurn]
    exact ⟨hF, fun hf => hu hf ▸ hf⟩

/-! ## The faulted agent -/

theorem seqStep_of_faulted {s : State} {a : Nat} (hp : (s.seq a).phase = .faulted) : seqStep a s = .next s := by
  simp only [seqStep, hp]

theorem seqEnabled_of_faulted {s : State} {a : Nat} (hp : (s.seq a).phase = .faulted) : seqEnabled a s = false := by
  simp only [seqEnabled, hp, Bool.and_false]

/-- A step leaves a faulted agent as it is (60_exceptions R203). -/
theorem step_seq_of_faulted {s t : State} {a : Nat} (hp : (s.seq a).phase = .faulted) (h : step s = .next t) :
    t.seq a = s.seq a := by
  obtain he | ⟨-, u, hs, rfl⟩ := step_seq_cases h a
  · exact he
  · rw [seqStep_of_faulted hp] at hs
    cases hs
    exact seq_nextTurn s a

section
variable {s t : State} (hpar : t.par = s.par) (huarts : t.uarts = s.uarts) (hdraws : t.draws = s.draws)
include hpar huarts hdraws

/-- The value of a bus read depends on the parameters, the UARTs and the count of draws (20_memory R60 to R69). -/
theorem memRead_value_congr (addr : Word32) (n : Nat) :
    (memRead addr n t).value.map Prod.fst = (memRead addr n s).value.map Prod.fst := by
  have hreg : ∀ i r, (readReg i r t).1 = (readReg i r s).1 := fun i r => by
    simp only [readReg_value, State.uart, hpar, huarts, hdraws]
  unfold memRead
  rw [hpar]
  split_ifs
  · rfl
  · rfl
  · cases locate s.par addr with
    | none => rfl
    | some x =>
      by_cases hc : s.par.clocked x.1 = true
      · simpa [hc, Out.value] using hreg x.1 x.2
      · simp [hc, Out.value]

theorem regRead_value_congr (h : BitVec 2) (r : Reg) :
    (regRead h r t).value.map Prod.fst = (regRead h r s).value.map Prod.fst := by
  unfold regRead
  rw [hpar]
  split
  · exact memRead_value_congr hpar huarts hdraws _ _
  · rfl

theorem pollFlag_value_congr (h : BitVec 2) (f : Field) :
    (pollFlag h f t).value.elim false (·.1) = (pollFlag h f s).value.elim false (·.1) := by
  have hset : ∀ u : State, (pollFlag h f u).value.elim false (·.1) =
      ((regRead h .sr u).value.map Prod.fst).elim false fun v => decide (extractField u.par.layout f v = 1) := by
    intro u
    unfold pollFlag
    cases regRead h .sr u <;> rfl
  rw [hset, hset, regRead_value_congr hpar huarts hdraws, hpar]

end

/-- Whether an agent's step is enabled depends on the agent and what it can read (10_state R30, 42_transfer R161,
R166). -/
theorem seqEnabled_congr {s t : State} {b : Nat} (hpar : t.par = s.par) (hprogs : t.progs = s.progs)
    (huarts : t.uarts = s.uarts) (hdraws : t.draws = s.draws) (hlen : t.seqs.length = s.seqs.length)
    (hseq : t.seq b = s.seq b) : seqEnabled b t = seqEnabled b s := by
  have hpoll := pollFlag_value_congr hpar huarts hdraws (s.seq b).H
  have hfetch : fetch b t = fetch b s := by simp only [fetch, State.prog, hprogs, hseq]
  simp only [seqEnabled, hlen, hseq, hfetch, hpoll]

theorem not_normalEnd_of_faulted {s : State} {a : Nat} (ha : a < s.seqs.length) (hp : (s.seq a).phase = .faulted) :
    ¬ NormalEnd s := by
  rintro ⟨hdone, -⟩
  obtain ⟨⟨hidle, -⟩, -⟩ := hdone a ha
  rw [hp] at hidle
  cases hidle

/-- Settles O9: a faulted agent's step is empty, and entering a fault touches only the agent that faults. -/
theorem faultIsSticky : Obligations.FaultIsSticky :=
  ⟨fun _ _ hp => seqEnabled_of_faulted hp, fun _ _ _ hp h => step_seq_of_faulted hp h,
    fun s a _ w c hb => seqEnabled_congr rfl rfl rfl rfl (State.raiseFault_length s a w c) (State.seq_modSeq_ne hb _),
    fun _ _ ha hp => not_normalEnd_of_faulted ha hp⟩

end Sys2Proof.Machine
end

section
/-! PROOFS. The block never stops: every move of a well-formed state has a next state (60_exceptions R202, R206,
20_memory R70). -/

namespace Sys2Proof.Machine

/-- A micro-step accesses a register of the UART it names, and never writes SR (41_line_init R132). -/
theorem initMicro_next {s : State} (hp : s.par.wf = true) {a : Nat} (hh : (s.seq a).H.toNat < s.par.nInst)
    (k : Fin 8) (r : Option Word32) : ∃ t, initMicro a k r s = .next t := by
  by_cases hk : k = 0
  · subst hk
    exact ⟨_, initMicro_zero hp hh r⟩
  · cases r with
    | none => exact ⟨_, initMicro_none hp hh hk⟩
    | some w => exact ⟨_, initMicro_some hp hh hk w⟩

/-- An agent's step of a well-formed state has a next state: its handle names a UART that exists. -/
theorem seqStep_next {s : State} (hw : s.Wf) {a : Nat} (ha : activeSeq s = some a) : ∃ t, seqStep a s = .next t := by
  have hh := hw.handles a (activeSeq_eq_some.mp ha).2
  cases hq : (s.seq a).phase with
  | idle =>
    cases hf : fetch a s with
    | none => exact ⟨s, by simp only [seqStep, hq, hf]⟩
    | some w =>
      rw [seqStep_of_fetch hq hf]
      exact acceptWord_next ha hq w
  | init k r =>
    simp only [seqStep, hq]
    exact initMicro_next hw.params (hh (by rw [hq]; rfl)) k r
  | txHold =>
    rw [seqStep_txHold hq]
    exact ⟨_, holdUntil_eq hw.params (hh (by rw [hq]; rfl)) (by decide) _⟩
  | txWrite =>
    simp only [seqStep, hq]
    exact ⟨_, txWrite_eq hw.params (hh (by rw [hq]; rfl))⟩
  | rxHold =>
    rw [seqStep_rxHold hq]
    exact ⟨_, holdUntil_eq hw.params (hh (by rw [hq]; rfl)) (by decide) _⟩
  | rxRead =>
    simp only [seqStep, hq]
    obtain ⟨v, t, hr⟩ := regRead_next hw.params (hh (by rw [hq]; rfl)) .dr
    exact ⟨_, rxRead_of_regRead hr⟩
  | faulted => exact ⟨s, seqStep_of_faulted hq⟩

theorem runTurn_next {s : State} (hw : s.Wf) : ∃ t, runTurn s = .next t := by
  cases ht : s.turn with
  | seq a =>
    simp only [runTurn, ht]
    split
    · exact seqStep_next hw (activeSeq_eq_some.mpr ⟨ht, ‹_›⟩)
    · exact ⟨s, rfl⟩
  | txLoad | txFinish | rxFrame | lineFlags =>
    simp only [runTurn, ht]
    exact ⟨_, rfl⟩

/-- Settles O51: no agent of a well-formed state makes an access that the bus refuses, and no other move can stop. -/
theorem wellFormedNeverStops : Obligations.WellFormedNeverStops := fun _ m hw => by
  obtain ⟨u, hu⟩ := runTurn_next (hw.withTurn m)
  exact ⟨_, step_eq_next.mpr ⟨u, hu, rfl⟩⟩

end Sys2Proof.Machine
end

section
/-! PROOFS. Two agents that take turns on one clocked UART: a DR write overwrites another, and a read-modify-write of
CR1 undoes another (60_exceptions R215, 20_memory R66, R72). -/

namespace Sys2Proof.Machine

/-! ## Two agents in turn -/

/-- Agent `b` is as it was after the step of another agent. -/
theorem AgentRun.seq_of_turn {a b : Nat} {q : Seq} {us : List Uart} {s t : State} (h : AgentRun 1 a q us s t)
    (hb : s.turn ≠ .seq b) : t.seq b = s.seq b := by
  obtain ⟨u, hu, hr⟩ := run_succ h.run
  cases hr
  obtain he | ⟨ha, -⟩ := step_seq_cases hu b
  · exact he
  · exact absurd (activeSeq_eq_some.mp ha).1 hb

/-- In the run, whose last step is agent `a`'s, agent `a` becomes `q` and agent `b` becomes `r`. -/
structure PairRun (n a b : Nat) (q r : Seq) (s t : State) : Prop extends SchedRun n s t where
  last : t.seq a = q
  other : t.seq b = r

theorem PairRun.of_agentRun {a b : Nat} {q : Seq} {us : List Uart} {s t : State} (h : AgentRun 1 a q us s t)
    (hb : s.turn ≠ .seq b) : PairRun 1 a b q (s.seq b) s t :=
  { h.toSchedRun with
    last := h.seq
    other := h.seq_of_turn hb }

/-- A run, then one step of the agent that did not step last. -/
theorem PairRun.step {n a b : Nat} {q r r' : Seq} {us : List Uart} {s t u : State} (h : PairRun n a b q r s t)
    (hab : a ≠ b) (ht : activeSeq t = some b) (h' : AgentRun 1 b r' us t u) : PairRun (n + 1) b a r' q s u :=
  { h.toSchedRun.trans one_pos h'.toSchedRun with
    last := h'.seq
    other := (h'.seq_of_turn (by simpa [(activeSeq_eq_some.mp ht).1] using hab.symm)).trans h.last }

theorem SchedRun.lt_of_clocked {n i : Nat} {s t : State} (h : SchedRun n s t) (hw : s.Wf)
    (hc : s.par.clocked i = true) : i < t.uarts.length := by
  rw [(run_wf hw h.run).uarts, h.par]
  exact Params.lt_of_clocked hc

/-! ## Two DR writes -/

/-- Settles O59: each TxWrite puts its agent's byte into TDR, whatever TDR held. -/
theorem racingTransmitsLoseAByte : Obligations.RacingTransmitsLoseAByte := fun s a b hw ha hb hab hpa hpb hH hc => by
  have hw0 := wf_withSchedule hw (.seq a) [.seq b]
  obtain ⟨t, h1⟩ := step_txWrite hw0.params (activeSeq_eq_some.mpr ⟨rfl, ha⟩) hc hpa
  have hrun1 := PairRun.of_agentRun (b := b) h1 (by simpa using hab)
  have htb : t.seq b = s.seq b := hrun1.other
  have hbt : activeSeq t = some b := h1.activeSeq hw0 hb rfl
  have hct : t.par.clocked (t.seq b).H.toNat = true := by rwa [htb, ← hH, h1.par]
  obtain ⟨u, h2⟩ := step_txWrite (h1.par ▸ hw.params) hbt hct (htb ▸ hpb)
  have hrun2 := hrun1.step hab hbt h2
  refine ⟨u, hrun2.run, ?_, by rw [hrun2.other]; rfl, by rw [h2.seq]; rfl, by rw [hrun2.other]; rfl, ?_⟩
  · rw [h2.uart, htb, ← hH, State.modRb_rb, if_pos ⟨rfl, h1.lt_of_clocked hw0 hc⟩]
    rfl
  · rw [h2.seq, htb, Seq.complete_FAULT]

/-! ## Two read-modify-writes of one register -/

theorem State.modUart_busFrame (s : State) (i : Nat) (f : Uart → Uart) : BusFrame s (s.modUart i f) :=
  ⟨rfl, rfl, rfl, rfl, rfl, rfl, State.modUart_length s i f⟩

/-- Micro-step 5 sets TE, under either `P_FIELD_WRITE` (41_line_init R132, R133). -/
theorem replace_TE_one (p : Params) (b : RegBlock) : b.replace p (.TE, 1) = { b with TE := 1 } := by
  have hor : ((b.get .TE ||| 1).setWidth 1 : BitVec 1) = 1 := by
    simpa [RegBlock.get, BitVec.setWidth_or] using or_one_bit b.TE
  unfold RegBlock.replace newValue
  cases p.fieldWrite with
  | assign => rfl
  | orOnly => exact congrArg (fun x => { b with TE := x }) hor

section
variable {s : State} {a : Nat} {k : Fin 8} (hp : s.par.wf = true) (ha : activeSeq s = some a)
  (hc : s.par.clocked (s.seq a).H.toNat = true) (hk : k ≠ 0)
include hp ha hc hk

/-- The read of a micro-step (41_line_init R133): the word waits in the agent's phase. -/
theorem step_initRead (hq : (s.seq a).phase = .init k none) :
    ∃ w t, AgentRun 1 a { s.seq a with phase := .init k (some w) } s.uarts s t ∧
      ∀ f ∈ (initReg k).fields, extractField s.par.layout f w = (s.uart (s.seq a).H.toNat).rb.get f := by
  refine ⟨s.busWord (s.seq a).H.toNat (initReg k), _,
    .of_seqStep (f := fun q => { q with phase := .init k (some _) }) ha .rfl ?_, fun f hf => ?_⟩
  · rw [seqStep, hq]
    exact initMicro_none hp (Params.lt_of_clocked hc) hk
  · rw [State.busWord, if_pos hc, extractField_readWord (Params.layout_wf hp) _ _ hf]

/-- The write of a micro-step after a read that returned `w` (41_line_init R133). -/
theorem step_initWrite {w : Word32} (hq : (s.seq a).phase = .init k (some w)) :
    ∃ t, AgentRun 1 a ((s.seq a).initAdvance k) (s.modUart (s.seq a).H.toNat fun u => u.written (initReg k)
      ((initFields k (s.seq a).ENC).foldl (RegBlock.replace s.par)
        (writeFields s.par.layout u.rb (initReg k) w))).uarts s t := by
  refine ⟨_, .of_seqStep ha (State.modUart_busFrame _ _ _) ?_⟩
  rw [seqStep, hq]
  exact (initMicro_some hp (Params.lt_of_clocked hc) hk w).trans (by rw [if_pos hc])

end

/-- Two micro-steps on one clocked UART, the second's read before the first's write: the second writes back a word with
the fields that its register had before both (20_memory R72). -/
theorem run_interleaved_micros {s : State} {a b : Nat} (hw : s.Wf) (ha : a < s.seqs.length) (hb : b < s.seqs.length)
    (hab : a ≠ b) {k l : Fin 8} (hk : k ≠ 0) (hl : l ≠ 0) (hpa : (s.seq a).phase = .init k none)
    (hpb : (s.seq b).phase = .init l none) (hH : (s.seq a).H = (s.seq b).H)
    (hc : s.par.clocked (s.seq a).H.toNat = true) :
    ∃ w v b' t,
      PairRun 4 b a (Seq.initAdvance l { s.seq b with phase := .init l (some v) })
        (Seq.initAdvance k { s.seq a with phase := .init k (some w) })
        (s.withSchedule (.seq a) [.seq b, .seq a, .seq b]) t ∧
      (∀ f ∈ (initReg l).fields, extractField s.par.layout f v = (s.uart (s.seq a).H.toNat).rb.get f) ∧
      (t.uart (s.seq a).H.toNat).rb = (initFields l (s.seq b).ENC).foldl (RegBlock.replace s.par)
        (writeFields s.par.layout b' (initReg l) v) := by
  have hw0 := wf_withSchedule hw (.seq a) [.seq b, .seq a, .seq b]
  obtain ⟨w, t1, h1, -⟩ := step_initRead hw0.params (activeSeq_eq_some.mpr ⟨rfl, ha⟩) hc hk hpa
  have hrun1 := PairRun.of_agentRun (b := b) h1 (by simpa using hab)
  have hb1 : t1.seq b = s.seq b := hrun1.other
  have hact1 : activeSeq t1 = some b := hrun1.activeSeq hw0 hb rfl
  obtain ⟨v, t2, h2, hv⟩ := step_initRead (h1.par ▸ hw.params) hact1 (by rwa [hb1, ← hH, h1.par]) hl (hb1 ▸ hpb)
  have hrun2 := hrun1.step hab hact1 h2
  have ha2 : t2.seq a = { s.seq a with phase := .init k (some w) } := hrun2.other
  have hact2 : activeSeq t2 = some a := hrun2.activeSeq hw0 ha rfl
  obtain ⟨t3, h3⟩ := step_initWrite (k := k) (w := w) (hrun2.par ▸ hw.params) hact2 (by rwa [ha2, hrun2.par]) hk
    (by rw [ha2])
  have hrun3 := hrun2.step hab.symm hact2 h3
  have hb3 : t3.seq b = { s.seq b with phase := .init l (some v) } := hrun3.other.trans (by rw [hb1])
  have hact3 : activeSeq t3 = some b := hrun3.activeSeq hw0 hb rfl
  obtain ⟨t, h4⟩ := step_initWrite (k := l) (w := v) (hrun3.par ▸ hw.params) hact3 (by rwa [hb3, ← hH, hrun3.par]) hl
    (by rw [hb3])
  have hrun4 := hrun3.step hab hact3 h4
  rw [hb3, ha2] at hrun4
  refine ⟨w, v, (t3.uart (s.seq a).H.toNat).rb, t, hrun4, fun f hf => ?_, ?_⟩
  · have hvf := hv f hf
    rwa [h1.par, hb1, ← hH, AgentRun.uart h1] at hvf
  · rw [h4.uart, hb3, ← hH, State.uart_modUart_self (hrun3.lt_of_clocked hw0 hc), Uart.written_rb, hrun3.par]
    rfl

/-- M after a write back of a word read earlier is the M that the word has (20_memory R68, R72). -/
theorem writeFields_M (L : Layout) (b : RegBlock) {w : Word32} {m : BitVec 1}
    (hm : extractField L .M w = m.setWidth 32) : (writeFields L b .cr1 w).M = m :=
  setWidth_inj (by decide) ((get_writeFields L b .cr1 w .M).trans ((if_pos (by decide)).trans hm))

/-- Settles O60: the second agent writes back the M that it read before the first one wrote. -/
theorem racingInitializesLoseAnUpdate : Obligations.RacingInitializesLoseAnUpdate :=
  fun s a b hw ha hb hab hpa hpb hH hc => by
  obtain ⟨w, v, b', t, hrun, hv, hrb⟩ := run_interleaved_micros hw ha hb hab (by decide) (by decide) hpa hpb hH hc
  replace hrb : (t.uart (s.seq a).H.toNat).rb = { writeFields s.par.layout b' .cr1 v with TE := 1 } :=
    hrb.trans (replace_TE_one _ _)
  refine ⟨t, hrun.run, ?_, by rw [hrb], by rw [hrun.other]; rfl, by rw [hrun.last]; rfl⟩
  rw [hrb]
  dsimp only
  exact writeFields_M _ _ (hv .M (by decide))

end Sys2Proof.Machine
end

section
/-! PROOFS. RDR and TDR, unwritten after reset, are written wherever they are read (70_reset_and_hazards R231). -/

namespace Sys2Proof.Machine

/-- Settles O53: RXNE is set only together with RDR, and an agent enters RxRead only at RXNE = 1. -/
theorem rdrIsWrittenWhenRead : Obligations.RdrIsWrittenWhenRead := fun _ _ hw hr h => step_rdrWritten hw hr h

/-! ## TXE and TDR -/

/-- What every step does to TXE and TDR of a register block: TXE is cleared only with a value for TDR, and a written
TDR stays written (20_memory R66, 42_transfer R180). -/
def TdrKept (b b' : RegBlock) : Prop :=
  (b'.TXE = 0 → b.TXE = 0 ∨ b'.TDR.isSome = true) ∧ (b.TDR.isSome = true → b'.TDR.isSome = true)

theorem TdrKept.of_eq {b b' : RegBlock} (hx : b'.TXE = b.TXE) (ht : b'.TDR = b.TDR) : TdrKept b b' :=
  ⟨fun h => .inl (hx ▸ h), fun h => ht ▸ h⟩

theorem RbStep.tdrKept {L : Layout} {b b' : RegBlock} (h : RbStep L b b') : TdrKept b b' := by
  obtain ⟨hx, -, ht, -⟩ := h.flags
  refine ⟨fun h0 => ?_, fun h1 => ?_⟩
  · obtain hx | ⟨-, hd⟩ := hx
    · exact .inl (hx ▸ h0)
    · exact .inr hd
  · obtain ht | ht := ht
    · exact ht ▸ h1
    · exact ht

theorem PerRb.tdrKept {b b' : RegBlock} (h : PerRb b b') : TdrKept b b' := by
  cases h with
  | same => exact .of_eq rfl rfl
  | loaded => exact ⟨fun h0 => (nomatch (h0 : 1#1 = 0)), id⟩
  | finished =>
    unfold RegBlock.txFinished
    split <;> exact .of_eq rfl rfl
  | received x fe pe =>
    unfold RegBlock.received
    split <;> exact .of_eq rfl rfl
  | lineFlags v => exact .of_eq rfl rfl

/-! ## Shift logic -/

/-- Everything a step can do to the shift logic of a UART (42_transfer R180, R181, R184). -/
inductive ShiftStep (u : Uart) : Shift → Prop
  | same : ShiftStep u u.sh
  | marked (now : Format) : ShiftStep u (u.sh.mark now)
  | loaded : u.rb.TXE = 0 → ShiftStep u (.busy u.rb.TDR u.rb.format false)
  | finished : ShiftStep u .idle

theorem ShiftStep.of_eq {u v : Uart} (h : v.sh = u.sh) : ShiftStep u v.sh := h ▸ .same

/-- An update of one UART, seen at any UART. -/
theorem ShiftStep.modUart (s : State) (i j : Nat) (f : Uart → Uart) (hf : ShiftStep (s.uart i) (f (s.uart i)).sh) :
    ShiftStep (s.uart j) ((s.modUart i f).uart j).sh := by
  rw [State.uart_modUart_eq]
  split
  · rename_i hj
    obtain ⟨rfl, -⟩ := hj
    exact hf
  · exact .same

theorem writeControl_shift (s : State) (i j : Nat) (r : Reg) (m : Bool) (v : Word32) :
    ShiftStep (s.uart j) ((writeControl i r m v s).uart j).sh := by
  refine .modUart s i j _ ?_
  cases m with
  | false => exact .same
  | true =>
    simp only [if_true, Uart.markCorrupt_eq]
    exact .marked _

/-- Of the register accesses only a control write touches the shift logic, and at most marks it (42_transfer R184). -/
theorem BusAccess.shift {h : BitVec 2} {s t : State} (hp : s.par.wf = true) (hb : BusAccess h s t) (j : Nat) :
    ShiftStep (s.uart j) (t.uart j).sh := by
  cases hb with
  | none => exact .same
  | read r v t hr =>
    obtain hu | ⟨-, -, hu⟩ := regRead_cases hp (handle_lt_of_regRead hr) hr
    · simp only [State.uart, hu]
      exact .same
    · have hj : t.uart j = (s.modRb h.toNat RegBlock.dataRead).uart j := by simp only [State.uart, hu]
      rw [hj]
      exact .modUart s _ j _ .same
  | write r v t hw =>
    obtain rfl | ⟨-, -, rfl⟩ | ⟨-, -, -, rfl⟩ := regWrite_cases hp (handle_lt_of_regWrite hw) hw
    · exact .same
    · exact .modUart s _ j _ .same
    · exact writeControl_shift s _ j r _ v

theorem txLoad_shift (i j : Nat) (s : State) : ShiftStep (s.uart j) ((txLoad i s).uart j).sh := by
  by_cases he : txLoadEnabled i s = true
  · obtain ⟨-, -, -, hx, -⟩ := txLoadEnabled_iff.mp he
    rw [txLoad_of_enabled he]
    exact .modUart s i j _ (.loaded hx)
  · rw [txLoad, if_neg he]
    exact .same

theorem txFinish_shift (i j : Nat) (s : State) : ShiftStep (s.uart j) ((txFinish i s).uart j).sh := by
  unfold txFinish
  split
  · split
    · exact .same
    · rw [State.uart_useDraw]
      exact .modUart s i j _ .finished
  · exact .same

/-- What a move of whoever's turn it is does to a shift logic. -/
theorem runTurn_shift {s t : State} (hp : s.par.wf = true) (h : runTurn s = .next t) (j : Nat) :
    ShiftStep (s.uart j) (t.uart j).sh := by
  obtain ⟨a, ha, hs⟩ | ⟨a, -, -, rfl⟩ | ⟨i, -, rfl⟩ | ⟨i, -, rfl⟩ | ⟨i, -, rfl⟩ | ⟨i, -, rfl⟩ := runTurn_cases h
  · obtain ⟨u, hu, hut⟩ := seqStep_access ha hs
    have hj : t.uart j = u.uart j := by simp only [State.uart, hut]
    rw [hj]
    exact hu.shift hp j
  · exact .same
  · exact txLoad_shift i j s
  · exact txFinish_shift i j s
  · exact .of_eq (rxFrame_keeps (·.sh) (fun _ _ _ _ _ => rfl) i j s)
  · obtain ⟨ne, idle, lbd, cts, hl⟩ := lineFlags_uart i j s
    rw [hl]
    exact .same

/-! ## The invariant -/

/-- What TdrWritten asks of one UART. -/
def Uart.TdrWritten (u : Uart) : Prop :=
  (u.rb.TXE = 0 → u.rb.TDR.isSome = true) ∧ ∀ fmt c, u.sh ≠ .busy none fmt c

/-- A marked frame keeps its value, and TxLoad loads a written TDR, as TXE = 0. -/
theorem ShiftStep.specified {u : Uart} {x : Shift} (h : ShiftStep u x) (hu : u.TdrWritten) (fmt : Format) (c : Bool) :
    x ≠ .busy none fmt c := by
  obtain ⟨htdr, hsh⟩ := hu
  cases h with
  | same => exact hsh fmt c
  | marked now =>
    cases hx : u.sh with
    | idle => simp
    | busy v f d =>
      rw [Shift.mark_busy]
      rintro ⟨⟩
      exact hsh _ _ hx
  | loaded hx =>
    intro he
    injection he with hv
    simpa [hv] using htdr hx
  | finished => simp

theorem Uart.TdrWritten.of_kept {u v : Uart} (hu : u.TdrWritten) (hrb : TdrKept u.rb v.rb)
    (hsh : ShiftStep u v.sh) : v.TdrWritten := by
  refine ⟨fun h0 => ?_, hsh.specified hu⟩
  obtain h0 | hd := hrb.1 h0
  · exact hrb.2 (hu.1 h0)
  · exact hd

/-- Settles O54: TXE is cleared only together with a write of TDR, and only TxLoad puts a value into the shift logic. -/
theorem tdrIsWrittenWhenLoaded : Obligations.TdrIsWrittenWhenLoaded := fun s t hw hs h i hi => by
  obtain ⟨u, hu, rfl⟩ := step_eq_next.mp h
  rw [uart_nextTurn]
  rw [nextTurn_uarts] at hi
  obtain ⟨hlen, hrb⟩ : u.uarts.length = s.uarts.length ∧ TdrKept (s.uart i).rb (u.uart i).rb := by
    obtain ⟨a, -, -, hf, hrb⟩ | ⟨j, hf, hrb⟩ := runTurn_wf_cases hw hu
    · exact ⟨hf.uarts, (hrb i).tdrKept⟩
    · exact ⟨hf.uarts, (hrb i).tdrKept⟩
  exact Uart.TdrWritten.of_kept (hs i (hlen ▸ hi)) hrb (runTurn_shift hw.params hu i)

end Sys2Proof.Machine
end

section
/-! PROOFS. What reset leaves (70_reset_and_hazards R230, 20_memory R61). -/

namespace Sys2Proof.Machine

/-- SR after reset in the reference profile: TC, and TXE as `P_TXE_RESET` says (20_memory R61). -/
theorem readWord_reset_sr : ∀ txe : BitVec 1,
    readWord Layout.reference (RegBlock.reset txe) 0 .sr = if txe = 1 then 0xC0 else 0x40 := by decide

theorem readWord_reset_control : ∀ txe : BitVec 1, ∀ r ∈ [Reg.brr, Reg.cr1, Reg.cr2, Reg.cr3, Reg.gtpr],
    readWord Layout.reference (RegBlock.reset txe) 0 r = 0 := by decide

/-- An unwritten RDR has no word (70_reset_and_hazards R231). -/
theorem peekWord_dr_of_unwritten {s : State} {i : Nat} (hc : s.par.clocked i = true) (hr : (s.uart i).rb.RDR = none) :
    peekWord s i .dr = none := by
  simp [peekWord, hc, hr]

theorem peekWord_launch {p : Params} {progs : List (List CmdWord)} {i : Nat} (hL : p.layout = Layout.reference)
    (hc : p.clocked i = true) {r : Reg} (hr : r ≠ .dr) : peekWord (State.launch p progs) i r =
      some (readWord Layout.reference (RegBlock.reset p.txeReset) 0 r) := by
  rw [peekWord_of_clocked hc hr, launch_uart (Params.lt_of_clocked hc), launch_par, hL]
  rfl

/-- Settles O48: a launch gives every UART and every agent its reset value; the words are those of the two register
blocks that reset can leave. -/
theorem resetState : Obligations.ResetState := fun p progs => by
  refine ⟨fun i hi => ?_, fun a _ => ?_, launch_seqs_length p progs, launch_uarts_length p progs, fun i hL hc => ?_⟩
  · rw [launch_uart hi]
    exact ⟨get_reset p.txeReset, rfl, rfl, rfl, rfl, rfl⟩
  · rw [launch_seq]
    exact ⟨rfl, rfl, rfl, rfl⟩
  · refine ⟨?_, ?_, fun r hr => ?_⟩
    · rw [peekWord_launch hL hc (by decide), readWord_reset_sr]
    · refine peekWord_dr_of_unwritten hc ?_
      rw [launch_uart (Params.lt_of_clocked hc)]
      rfl
    · rw [peekWord_launch hL hc (control_of_mem hr).2, readWord_reset_control p.txeReset r hr]

end Sys2Proof.Machine
end

section
/-! PROOFS. The ends of a run: what is enabled at a normal end and in a stuck state, and the runs that never end
(70_reset_and_hazards R247). -/

namespace Sys2Proof.Machine

/-! ## Normal ends -/

/-- A done agent has no word left to fetch (10_state R30). -/
theorem seqEnabled_of_done {s : State} {a : Nat} (h : Done s a) : seqEnabled a s = false := by
  obtain ⟨hidle, hnext⟩ := h
  have hf : fetch a s = none := by rw [fetch, hnext, List.getElem?_eq_none le_rfl]
  simp [seqEnabled, hidle, hf]

theorem txLoadEnabled_of_quiescent {s : State} {i : Nat} (h : Quiescent s i) : txLoadEnabled i s = false := by
  obtain ⟨-, hx⟩ := h
  rw [← Bool.not_eq_true, txLoadEnabled_iff]
  rintro ⟨-, hue, hte, hxe, -⟩
  rw [hue, hte, hxe] at hx
  revert hx
  decide

theorem txFinish_not_enabled_of_quiescent {s : State} {i : Nat} (h : Quiescent s i) :
    enabled s (.txFinish i) = false := by
  obtain ⟨hidle, -⟩ := h
  simp [enabled, hidle]

theorem NormalEnd.seq_not_enabled {s : State} (h : NormalEnd s) (a : Nat) : enabled s (.seq a) = false := by
  obtain ⟨hdone, -⟩ := h
  by_cases ha : a < s.seqs.length
  · exact seqEnabled_of_done (hdone a ha).1
  · simp [enabled, seqEnabled, ha]

/-- A UART that does not exist has no clock, so the transmitters of the others decide. -/
theorem NormalEnd.txLoad_not_enabled {s : State} (h : NormalEnd s) (i : Nat) : enabled s (.txLoad i) = false := by
  obtain ⟨-, hquiet⟩ := h
  by_cases hi : i < s.par.nInst
  · exact txLoadEnabled_of_quiescent (hquiet i hi)
  · rw [← Bool.not_eq_true]
    exact fun he => hi (Params.lt_of_clocked (txLoadEnabled_iff.mp he).1)

theorem NormalEnd.not_stuck {s : State} (h : NormalEnd s) : ¬ Stuck s := by
  obtain ⟨hdone, -⟩ := h
  rintro ⟨-, a, ha, hd⟩
  exact hd (hdone a ha).1

theorem NormalEnd.not_faultedEnd {s : State} (h : NormalEnd s) : ¬ FaultedEnd s := by
  rintro ⟨a, ha, hp⟩
  exact not_normalEnd_of_faulted ha hp h

/-! ## Moves of the environment -/

/-- The UARTs agree in what the guards of the agents' moves read (42_transfer R161, R166, R180 to R182). -/
structure Uart.GuardsEq (u v : Uart) : Prop where
  txe : v.rb.TXE = u.rb.TXE
  rxne : v.rb.RXNE = u.rb.RXNE
  ue : v.rb.UE = u.rb.UE
  te : v.rb.TE = u.rb.TE
  re : v.rb.RE = u.rb.RE
  sh : v.sh = u.sh
  wire : v.wire = u.wire
  rxcur : v.rxcur = u.rxcur

theorem lineFlags_guardsEq (i j : Nat) (s : State) : Uart.GuardsEq (s.uart j) ((lineFlags i s).uart j) := by
  obtain ⟨ne, idle, lbd, cts, hl⟩ := lineFlags_uart i j s
  rw [hl]
  exact ⟨rfl, rfl, rfl, rfl, rfl, rfl, rfl, rfl⟩

/-- What a move of the environment keeps: the configuration, the agents and what the guards read (10_state R22). -/
structure EnvFrame (s t : State) : Prop where
  par : t.par = s.par
  progs : t.progs = s.progs
  seqs : t.seqs = s.seqs
  uarts : t.uarts.length = s.uarts.length
  guards : ∀ j, Uart.GuardsEq (s.uart j) (t.uart j)

theorem EnvMoves.frame {s t : State} (h : EnvMoves s t) : EnvFrame s t := by
  obtain ⟨i, -, hs⟩ := h
  obtain ⟨u, hu, rfl⟩ := step_eq_next.mp hs
  cases hu
  obtain ⟨hpar, hprogs, hseqs, -, -, -, huarts, -⟩ := lineFlags_frame i (s.withTurn (.lineFlags i))
  exact ⟨(nextTurn_par _).trans hpar, (nextTurn_progs _).trans hprogs, (nextTurn_seqs _).trans hseqs,
    (congrArg List.length (nextTurn_uarts _)).trans huarts,
    fun j => (uart_nextTurn _ j).symm ▸ lineFlags_guardsEq i j (s.withTurn (.lineFlags i))⟩

section
variable {s t : State} (h : EnvFrame s t)
include h

/-- The environment does not touch the two flags that the holds poll (42_transfer R161, R166). -/
theorem EnvFrame.pollFlag_value_eq (hp : s.par.wf = true) {g : BitVec 2} (hg : g.toNat < s.par.nInst) {f : Field}
    (hf : f = .TXE ∨ f = .RXNE) :
    (pollFlag g f t).value.elim false (·.1) = (pollFlag g f s).value.elim false (·.1) := by
  have hsr : f ∈ Reg.sr.fields := by obtain rfl | rfl := hf <;> decide
  have hget : (t.uart g.toNat).rb.get f = (s.uart g.toNat).rb.get f := by
    obtain rfl | rfl := hf
    · exact congrArg (BitVec.setWidth 32) (h.guards _).txe
    · exact congrArg (BitVec.setWidth 32) (h.guards _).rxne
  rw [pollFlag_eq hp hg hsr, pollFlag_eq (h.par ▸ hp) (h.par ▸ hg) hsr, hget, h.par]
  rfl

/-- The holds' guards of a well-formed state poll a UART that exists; the other phases' guards read no UART. -/
theorem EnvFrame.seqEnabled_eq (hw : s.Wf) (a : Nat) : seqEnabled a t = seqEnabled a s := by
  have hseq : t.seq a = s.seq a := by simp only [State.seq, h.seqs]
  have hfetch : fetch a t = fetch a s := by simp only [fetch, State.prog, h.progs, hseq]
  by_cases ha : a < s.seqs.length
  · have hh := hw.handles a ha
    cases hq : (s.seq a).phase with
    | txHold =>
      have hpoll := h.pollFlag_value_eq hw.params (hh (by rw [hq]; rfl)) (.inl rfl)
      simp only [seqEnabled, h.seqs, hseq, hq, hpoll]
    | rxHold =>
      have hpoll := h.pollFlag_value_eq hw.params (hh (by rw [hq]; rfl)) (.inr rfl)
      simp only [seqEnabled, h.seqs, hseq, hq, hpoll]
    | idle | init | txWrite | rxRead | faulted => simp only [seqEnabled, h.seqs, hseq, hq, hfetch]
  · simp [seqEnabled, h.seqs, ha]

theorem EnvFrame.rxFrameEnabled_eq (i : Nat) : rxFrameEnabled i t = rxFrameEnabled i s := by
  simp only [rxFrameEnabled, frameAvailable, h.par, (h.guards _).ue, (h.guards _).re, (h.guards _).wire,
    (h.guards _).rxcur]

/-- A move of an agent is enabled as before. -/
theorem EnvFrame.enabled_eq (hw : s.Wf) {m : Move} (hm : agentMove m = true) : enabled t m = enabled s m := by
  cases m with
  | seq a => exact h.seqEnabled_eq hw a
  | txLoad i =>
    simp only [enabled, txLoadEnabled, h.par, (h.guards _).ue, (h.guards _).te, (h.guards _).txe, (h.guards _).sh]
  | txFinish i => simp only [enabled, h.par, (h.guards _).sh]
  | rxFrame i => exact h.rxFrameEnabled_eq i
  | lineFlags i => cases hm

end

/-- However the environment moves, the agents' moves are enabled as before. -/
theorem enabled_of_envMoves {s u : State} (hw : s.Wf) (h : Relation.ReflTransGen EnvMoves s u) :
    u.Wf ∧ ∀ m, agentMove m = true → enabled u m = enabled s m := by
  induction h with
  | refl => exact ⟨hw, fun _ _ => rfl⟩
  | tail _ hstep ih =>
    obtain ⟨hwf, ih⟩ := ih
    have hf := hstep.frame
    exact ⟨hwf.of_eq hf.par hf.progs hf.seqs hf.uarts, fun m hm => (hf.enabled_eq hwf hm).trans (ih m hm)⟩

/-- In a stuck state a run cannot begin. -/
theorem Stuck.not_runStep {s t : State} (hw : s.Wf) (h : Stuck s) : ¬ RunStep s t := by
  rintro ⟨u, hu, m, hm, he, -⟩
  rw [(enabled_of_envMoves hw hu).2 m hm, h.1 m hm] at he
  cases he

/-! ## Hangs -/

/-- UART `i` is enabled to receive from an external line. -/
structure ListensOutside (i : Nat) (s : State) : Prop where
  clocked : s.par.clocked i = true
  external : s.par.rxSource i = .external
  ue : (s.uart i).rb.UE = 1
  re : (s.uart i).rb.RE = 1

/-- The block after UART `i`'s turn to receive. -/
def State.afterRxFrame (i : Nat) (s : State) : State := nextTurn (rxFrame i (s.withTurn (.rxFrame i)))

/-- Such a UART takes a frame, whatever RXNE is (42_transfer R182). -/
theorem ListensOutside.runStep {i : Nat} {s : State} (h : ListensOutside i s) : RunStep s (s.afterRxFrame i) :=
  ⟨s, .refl, .rxFrame i, rfl,
    rxFrameEnabled_iff.mpr ⟨h.clocked, h.ue, h.re, frameAvailable_iff.mpr (.inl h.external)⟩, step_of_rxFrame rfl⟩

theorem RegBlock.received_enables (b : RegBlock) (x : BitVec 9) (fe pe : BitVec 1) :
    ((b.received x fe pe).UE, (b.received x fe pe).RE) = (b.UE, b.RE) := by
  unfold RegBlock.received
  split <;> rfl

/-- And it stays enabled to receive. -/
theorem ListensOutside.afterRxFrame {i : Nat} {s : State} (h : ListensOutside i s) :
    ListensOutside i (s.afterRxFrame i) := by
  have hpar : (s.afterRxFrame i).par = s.par := (nextTurn_par _).trans (rxFrame_frame i _).par
  have hrb : (((s.afterRxFrame i).uart i).rb.UE, ((s.afterRxFrame i).uart i).rb.RE) =
      ((s.uart i).rb.UE, (s.uart i).rb.RE) := by
    rw [State.afterRxFrame, uart_nextTurn]
    exact rxFrame_keeps (fun u => (u.rb.UE, u.rb.RE)) (fun u _ _ _ _ => u.rb.received_enables _ _ _) i i _
  obtain ⟨hue, hre⟩ := Prod.mk.inj hrb
  exact ⟨hpar ▸ h.clocked, hpar ▸ h.external, hue.trans h.ue, hre.trans h.re⟩

/-- A run can go on forever where a step from each state with `P` leads to a state with `P`. -/
theorem hang_of_invariant {P : State → Prop} (f : State → State) (hrun : ∀ s, P s → RunStep s (f s))
    (hkeep : ∀ s, P s → P (f s)) {s : State} (h : P s) : Hang s := by
  refine ⟨fun n => f^[n] s, rfl, fun n => ?_⟩
  have hn : P (f^[n] s) := Function.Iterate.rec P h hkeep n
  simpa only [Function.iterate_succ_apply'] using hrun _ hn

theorem Hang.step {s : State} (h : Hang s) : ∃ t, RunStep s t ∧ Hang t := by
  obtain ⟨r, rfl, hr⟩ := h
  exact ⟨r 1, hr 0, fun n => r (n + 1), rfl, fun n => hr (n + 1)⟩

/-- Settles O58: at a normal end each guard fails; a hang needs a first step, which a stuck state has not; RxFrame of an
external receiver can be repeated forever. -/
theorem endsOfARun : Obligations.EndsOfARun := by
  refine ⟨fun s h => ⟨h.seq_not_enabled, fun i => ⟨h.txLoad_not_enabled i, fun hi => ?_⟩, h.not_faultedEnd,
    h.not_stuck⟩, fun s hw hstuck hhang => ?_, fun s i hc hsrc hue hre => ?_, fun _ h => h.step⟩
  · exact txFinish_not_enabled_of_quiescent (h.2 i hi)
  · obtain ⟨t, ht, -⟩ := hhang.step
    exact hstuck.not_runStep hw ht
  · exact hang_of_invariant (State.afterRxFrame i) (fun _ => ListensOutside.runStep)
      (fun _ => ListensOutside.afterRxFrame) ⟨hc, hsrc, hue, hre⟩

end Sys2Proof.Machine
end
